-- ==== Sys2Proof/Word.lean ====
section
/-! DEFINITION. The 32-bit word the FFTU moves: on its ports, in its memories, in its arithmetic (20_memory.md R70, R72). -/

namespace Sys2Proof

/-- A word of a port stream or of a memory: 32 bits, bit 0 least significant (00_scope.md R10). -/
abbrev Word := BitVec 32

end Sys2Proof
end

