-- ==== Sys2Proof/Syntax.lean ====
section
/-! DEFINITION. The names of the FFTU's ports, memory spaces and commands, and its instructions: one constructor of `Instr` per row
of spec/opcode_table.json. Encodings are in Decode.lean, meanings in Machine/. -/

namespace Sys2Proof

/-- The three command ports: P0 ingest, P1 analyzer, P2 reader (00_scope.md R6). -/
inductive Port where
  | p0 | p1 | p2
deriving DecidableEq, Repr

/-- The part of a slot a read names, bit F[0] of TB_RDOUT and SLOT_RD (30_encoding.md R108). -/
inductive Part where
  | re | im
deriving DecidableEq, Repr

/-- The transform mode, bit F[0] of FFT_FWD and FFT_INV (30_encoding.md R108, 00_scope.md R5). -/
inductive Mode where
  | iterative | direct
deriving DecidableEq, Repr

/-- Which words RB_SETNUM keeps, bit F[0] (retainOldest: 0 newest, 1 oldest; 30_encoding.md R108). -/
inductive Retain where
  | newest | oldest
deriving DecidableEq, Repr

/-- The three slots of the triple buffer (42_triple_buffer.md R230). -/
inductive Slot where
  | s0 | s1 | s2
deriving DecidableEq, Repr

/-- The writable word-indexed memory spaces (20_memory.md R70); the read-only tables are in Machine/Rom.lean. -/
inductive Space where
  | ring | scr | slot (k : Slot) (part : Part)
deriving DecidableEq, Repr

/-- The listed opcodes (30_encoding.md R107). -/
inductive Opcode where
  | nop | stat
  | rbSetcap | rbPush | rbPop | rbPeek | rbNum | rbRem | rbSetnum
  | tbReset | tbStart | tbStop | tbLock | tbUnlock | tbRdout
  | fftCfg | fftFwd | fftInv
  | scrWr | scrRd | slotRd
deriving DecidableEq, Repr

/-- A command with its operands. `count`, `n`, `sel` are field A (20 bits, 30_encoding.md R103), `off` is the argument word B
(R104), `data` the payload words (R105), whose number is field A of RB_PUSH and SCR_WR. -/
inductive Instr where
  | nop
  | stat (sel : BitVec 20)
  | rbSetcap (n : BitVec 20)
  | rbPush (data : List Word)
  | rbPop (count : BitVec 20) (off : Word)
  | rbPeek (count : BitVec 20) (off : Word)
  | rbNum
  | rbRem
  | rbSetnum (retain : Retain) (n : BitVec 20)
  | tbReset
  | tbStart
  | tbStop
  | tbLock
  | tbUnlock
  | tbRdout (part : Part) (count : BitVec 20) (off : Word)
  | fftCfg (n : BitVec 20)
  | fftFwd (mode : Mode)
  | fftInv (mode : Mode)
  | scrWr (off : Word) (data : List Word)
  | scrRd (count : BitVec 20) (off : Word)
  | slotRd (slot : BitVec 2) (part : Part) (count : BitVec 20) (off : Word)
deriving DecidableEq, Repr

/-- The opcode a command is an instance of. -/
def Instr.opcode : Instr → Opcode
  | .nop => .nop
  | .stat _ => .stat
  | .rbSetcap _ => .rbSetcap
  | .rbPush _ => .rbPush
  | .rbPop _ _ => .rbPop
  | .rbPeek _ _ => .rbPeek
  | .rbNum => .rbNum
  | .rbRem => .rbRem
  | .rbSetnum _ _ => .rbSetnum
  | .tbReset => .tbReset
  | .tbStart => .tbStart
  | .tbStop => .tbStop
  | .tbLock => .tbLock
  | .tbUnlock => .tbUnlock
  | .tbRdout _ _ _ => .tbRdout
  | .fftCfg _ => .fftCfg
  | .fftFwd _ => .fftFwd
  | .fftInv _ => .fftInv
  | .scrWr _ _ => .scrWr
  | .scrRd _ _ => .scrRd
  | .slotRd _ _ _ _ => .slotRd

end Sys2Proof
end

