-- ==== Sys2Proof/WellFormed.lean ====
section
/-! DEFINITION. Which commands have an encoding: the number of payload words must fit field A (30_encoding.md R103, R105). -/

namespace Sys2Proof

/-- A payload has at most 2^20 - 1 words, because its length is the 20-bit field A (30_encoding.md R103, R105). -/
def payloadFits (data : List Word) : Bool := decide (data.length < 2 ^ 20)

/-- Every command is well-formed but for a payload longer than field A can say. -/
def Instr.wellFormed : Instr → Bool
  | .rbPush data => payloadFits data
  | .scrWr _ data => payloadFits data
  | .nop | .stat _ | .rbSetcap _ | .rbPop _ _ | .rbPeek _ _ | .rbNum | .rbRem | .rbSetnum _ _
  | .tbReset | .tbStart | .tbStop | .tbLock | .tbUnlock | .tbRdout _ _ _
  | .fftCfg _ | .fftFwd _ | .fftInv _ | .scrRd _ _ | .slotRd _ _ _ _ => true

end Sys2Proof
end

