-- ==== Sys2Proof/Decode.lean ====
section
/-! DEFINITION. The command encoding of 30_encoding.md: opcode numbers, header fields, command lengths; the decoder, total on every
word stream, and the encoder. -/

namespace Sys2Proof

/-- The opcode numbers of 30_encoding.md R107. -/
def Opcode.code : Opcode → BitVec 8
  | .nop => 0x00 | .stat => 0x01
  | .rbSetcap => 0x10 | .rbPush => 0x11 | .rbPop => 0x12 | .rbPeek => 0x13 | .rbNum => 0x14 | .rbRem => 0x15 | .rbSetnum => 0x16
  | .tbReset => 0x20 | .tbStart => 0x21 | .tbStop => 0x22 | .tbLock => 0x23 | .tbUnlock => 0x24 | .tbRdout => 0x25
  | .fftCfg => 0x30 | .fftFwd => 0x31 | .fftInv => 0x32
  | .scrWr => 0x38 | .scrRd => 0x39 | .slotRd => 0x3A

/-- The opcodes in the order of the table of 30_encoding.md R107. -/
def Opcode.all : List Opcode :=
  [.nop, .stat, .rbSetcap, .rbPush, .rbPop, .rbPeek, .rbNum, .rbRem, .rbSetnum, .tbReset, .tbStart, .tbStop, .tbLock, .tbUnlock,
   .tbRdout, .fftCfg, .fftFwd, .fftInv, .scrWr, .scrRd, .slotRd]

/-- The opcode of a number; none for a reserved one (30_encoding.md R107, R113). -/
def Opcode.ofCode (c : BitVec 8) : Option Opcode := Opcode.all.find? fun op => op.code == c

/-- The commands that take the argument word B (30_encoding.md R104). -/
def Opcode.hasB : Opcode → Bool
  | .rbPop | .rbPeek | .tbRdout | .scrWr | .scrRd | .slotRd => true
  | .nop | .stat | .rbSetcap | .rbPush | .rbNum | .rbRem | .rbSetnum | .tbReset | .tbStart | .tbStop | .tbLock | .tbUnlock
  | .fftCfg | .fftFwd | .fftInv => false

/-- The commands followed by A payload words (30_encoding.md R105). -/
def Opcode.hasPayload : Opcode → Bool
  | .rbPush | .scrWr => true
  | .nop | .stat | .rbSetcap | .rbPop | .rbPeek | .rbNum | .rbRem | .rbSetnum | .tbReset | .tbStart | .tbStop | .tbLock
  | .tbUnlock | .tbRdout | .fftCfg | .fftFwd | .fftInv | .scrRd | .slotRd => false

/-- The bits of F an opcode gives a meaning; the others are reserved (30_encoding.md R108). -/
def Opcode.usedF : Opcode → BitVec 4
  | .rbSetnum | .tbRdout | .fftFwd | .fftInv => 0b0001
  | .slotRd => 0b0111
  | .nop | .stat | .rbSetcap | .rbPush | .rbPop | .rbPeek | .rbNum | .rbRem | .tbReset | .tbStart | .tbStop | .tbLock
  | .tbUnlock | .fftCfg | .scrWr | .scrRd => 0b0000

/-- The opcodes for which field A is reserved and must be 0 (30_encoding.md R109). -/
def Opcode.reservedA : Opcode → Bool
  | .nop | .rbNum | .rbRem | .tbReset | .tbStart | .tbStop | .tbLock | .tbUnlock | .fftFwd | .fftInv => true
  | .stat | .rbSetcap | .rbPush | .rbPop | .rbPeek | .rbSetnum | .tbRdout | .fftCfg | .scrWr | .scrRd | .slotRd => false

/-- Field OPC of a header (30_encoding.md R102). -/
def headerOpc (h : Word) : BitVec 8 := h.extractLsb' 24 8

/-- Field F of a header (30_encoding.md R102). -/
def headerF (h : Word) : BitVec 4 := h.extractLsb' 20 4

/-- Field A of a header, an unsigned integer (30_encoding.md R102, R103). -/
def headerA (h : Word) : BitVec 20 := h.extractLsb' 0 20

/-- The header word {OPC, F, A} (30_encoding.md R102). -/
def header (op : Opcode) (f : BitVec 4) (a : BitVec 20) : Word := op.code ++ f ++ a

/-- The number of words after the header: hasB + (hasPayload ? A : 0) (30_encoding.md R106). -/
def Opcode.bodyLength (op : Opcode) (a : BitVec 20) : Nat :=
  (if op.hasB then 1 else 0) + (if op.hasPayload then a.toNat else 0)

/-- The length of a command in words, from its header alone (30_encoding.md R106; 1 for an unlisted opcode, R113). -/
def commandLength (h : Word) : Nat :=
  match Opcode.ofCode (headerOpc h) with
  | some op => 1 + op.bodyLength (headerA h)
  | none => 1

/-- Whether a list has at least `n` entries (recursion on `n`, so that a long stream is not measured). -/
def hasAtLeast : Nat → List Word → Bool
  | 0, _ => true
  | _ + 1, [] => false
  | n + 1, _ :: ws => hasAtLeast n ws

/-- Bit F[0] as a slot part (30_encoding.md R108). -/
def Part.ofF (f : BitVec 4) : Part := if f.getLsbD 0 then .im else .re

/-- Bit F[0] as a transform mode (30_encoding.md R108). -/
def Mode.ofF (f : BitVec 4) : Mode := if f.getLsbD 0 then .direct else .iterative

/-- Bit F[0] as retainOldest (30_encoding.md R108). -/
def Retain.ofF (f : BitVec 4) : Retain := if f.getLsbD 0 then .oldest else .newest

/-- The command an opcode makes of its fields F and A and the words after the header (30_encoding.md R104, R105, R108, R109). -/
def Opcode.build (op : Opcode) (f : BitVec 4) (a : BitVec 20) (body : List Word) : Instr :=
  match op with
  | .nop => .nop
  | .stat => .stat a
  | .rbSetcap => .rbSetcap a
  | .rbPush => .rbPush (body.take a.toNat)
  | .rbPop => .rbPop a (body.headD 0)
  | .rbPeek => .rbPeek a (body.headD 0)
  | .rbNum => .rbNum
  | .rbRem => .rbRem
  | .rbSetnum => .rbSetnum (Retain.ofF f) a
  | .tbReset => .tbReset
  | .tbStart => .tbStart
  | .tbStop => .tbStop
  | .tbLock => .tbLock
  | .tbUnlock => .tbUnlock
  | .tbRdout => .tbRdout (Part.ofF f) a (body.headD 0)
  | .fftCfg => .fftCfg a
  | .fftFwd => .fftFwd (Mode.ofF f)
  | .fftInv => .fftInv (Mode.ofF f)
  | .scrWr => .scrWr (body.headD 0) (body.tail.take a.toNat)
  | .scrRd => .scrRd a (body.headD 0)
  | .slotRd => .slotRd (f.extractLsb' 1 2) (Part.ofF f) a (body.headD 0)

/-- Why a header is no command (30_encoding.md R113, R114); all three raise ERR_ILLEGAL. -/
inductive Illegal where
  | unlistedOpcode | reservedF | reservedA
deriving DecidableEq, Repr

/-- What the front of a command stream is: a command and its length in words, an illegal header and the words it takes, or the
beginning of a command whose last words have not been written yet (70_reset_and_hazards.md R335). -/
inductive Decoded where
  | command (i : Instr) (length : Nat)
  | illegal (why : Illegal) (h : Word) (length : Nat)
  | incomplete
deriving DecidableEq, Repr

/-- The decoder, total on every word stream (60_exceptions.md R295). An unlisted opcode takes one word (30_encoding.md R113); every
other command, illegal or not, waits for its full length (R106, R114) and has F checked before A. -/
def decode : List Word → Decoded
  | [] => .incomplete
  | h :: body =>
    match Opcode.ofCode (headerOpc h) with
    | none => .illegal .unlistedOpcode h 1
    | some op =>
      if hasAtLeast (op.bodyLength (headerA h)) body then
        if headerF h &&& ~~~ op.usedF = 0 then
          if op.reservedA && decide (headerA h ≠ 0) then .illegal .reservedA h (commandLength h)
          else .command (op.build (headerF h) (headerA h) body) (commandLength h)
        else .illegal .reservedF h (commandLength h)
      else .incomplete

/-- F[0] of a slot part (30_encoding.md R108). -/
def Part.bit : Part → BitVec 1
  | .re => 0 | .im => 1

/-- F[0] of a transform mode (30_encoding.md R108). -/
def Mode.bit : Mode → BitVec 1
  | .iterative => 0 | .direct => 1

/-- F[0] of retainOldest (30_encoding.md R108). -/
def Retain.bit : Retain → BitVec 1
  | .newest => 0 | .oldest => 1

/-- The words of a command, from the table of 30_encoding.md R118. -/
def encode : Instr → List Word
  | .nop => [header .nop 0 0]
  | .stat sel => [header .stat 0 sel]
  | .rbSetcap n => [header .rbSetcap 0 n]
  | .rbPush data => header .rbPush 0 (BitVec.ofNat 20 data.length) :: data
  | .rbPop count off => [header .rbPop 0 count, off]
  | .rbPeek count off => [header .rbPeek 0 count, off]
  | .rbNum => [header .rbNum 0 0]
  | .rbRem => [header .rbRem 0 0]
  | .rbSetnum retain n => [header .rbSetnum (0#3 ++ retain.bit) n]
  | .tbReset => [header .tbReset 0 0]
  | .tbStart => [header .tbStart 0 0]
  | .tbStop => [header .tbStop 0 0]
  | .tbLock => [header .tbLock 0 0]
  | .tbUnlock => [header .tbUnlock 0 0]
  | .tbRdout part count off => [header .tbRdout (0#3 ++ part.bit) count, off]
  | .fftCfg n => [header .fftCfg 0 n]
  | .fftFwd mode => [header .fftFwd (0#3 ++ mode.bit) 0]
  | .fftInv mode => [header .fftInv (0#3 ++ mode.bit) 0]
  | .scrWr off data => header .scrWr 0 (BitVec.ofNat 20 data.length) :: off :: data
  | .scrRd count off => [header .scrRd 0 count, off]
  | .slotRd slot part count off => [header .slotRd (0#1 ++ slot ++ part.bit) count, off]

/-- `n` words of a bit string, from its word number `j` on (word 0 is bits 31..0). -/
def wordsFrom (w j : Nat) : Nat → List Word
  | 0 => []
  | n + 1 => BitVec.ofNat 32 (w >>> (32 * j)) :: wordsFrom w (j + 1) n

/-- The words of the command whose bits, numbered as spec/opcode_table.json numbers them, are `w`, zero from bit `nbits` on. -/
def tableWords (nbits w : Nat) : List Word :=
  let bits := w % 2 ^ nbits
  BitVec.ofNat 32 bits :: wordsFrom bits 1 (commandLength (BitVec.ofNat 32 bits) - 1)

/-- The instruction the decoder reads from those words, none where they are no command. -/
def decodeTableWord (nbits w : Nat) : Option Instr :=
  match decode (tableWords nbits w) with
  | .command i _ => some i
  | .illegal _ _ _ => none
  | .incomplete => none

end Sys2Proof
end

