-- ==== Sys2Proof/Config.lean ====
section
/-! DEFINITION. The implementation parameters of 00_scope.md R8 as plain data, their legal ranges and reference values, and the free
values: constants with no body, so that a theorem holds whatever they are. -/

namespace Sys2Proof

/-- TWIDDLE_SIGN, the sign of the exponent of the forward kernel (00_scope.md R8, 41_fft.md R185). -/
inductive TwiddleSign where
  | plus | minus
deriving DecidableEq, Repr

/-- NAN_MODE, the bits of a NaN an arithmetic operation produces (00_scope.md R8, 41_fft.md R183). -/
inductive NanMode where
  | canonical | any
deriving DecidableEq, Repr

/-- CLOCKING, whether the ports share a clock; no rule depends on it (00_scope.md R8, 30_encoding.md R100). -/
inductive Clocking where
  | single | cdc
deriving DecidableEq, Repr

/-- The parameters of one FFTU (00_scope.md R8); LOG2_NMAX and RB_DEPTH in the widths STAT gives them (43_access_system.md R261).
The sixth parameter, ARB, is open in every FFTU: `Config.arbChoice`. -/
structure Params where
  log2Nmax : BitVec 5
  rbDepth : BitVec 21
  twiddleSign : TwiddleSign
  nanMode : NanMode
  clocking : Clocking
deriving DecidableEq, Repr

/-- NMAX = 2^LOG2_NMAX (00_scope.md R9). -/
def Params.nmax (p : Params) : Nat := 2 ^ p.log2Nmax.toNat

/-- The legal ranges of 00_scope.md R8. -/
def Params.legal (p : Params) : Bool :=
  decide (12 ≤ p.log2Nmax.toNat ∧ p.log2Nmax.toNat ≤ 19 ∧ 2 ≤ p.rbDepth.toNat ∧ p.rbDepth.toNat ≤ 2 ^ 20)

/-- The reference values of 00_scope.md R8. -/
def Params.reference : Params :=
  { log2Nmax := 12#5, rbDepth := 32768#21, twiddleSign := .plus, nanMode := .canonical, clocking := .single }

/-- FREE VALUE (log entry 2): what a read of a word no command has written gives, by draw index, memory space and word index
(10_state.md R42, 93_implementation_defined.md I1). -/
opaque Config.freeWord : Nat → Space → Nat → Word

/-- FREE VALUE (log entry 4): the word drawn for a NaN result with NAN_MODE = ANY, by draw index and by the place of the operation
in the transform (41_fft.md R183, 93_implementation_defined.md I2). -/
opaque Config.freeNan : Nat → List Nat → Word

/-- FREE VALUE (log entry 6): which of several ready ports the block grants, by draw index (parameter ARB, 00_scope.md R8,
20_memory.md R83, 93_implementation_defined.md I4). -/
opaque Config.arbChoice : Nat → Nat

end Sys2Proof
end

