-- ==== Sys2Proof/Machine/State.lean ====
section
/-! DEFINITION. The state of the FFTU (10_state.md R30 to R45, 70_reset_and_hazards.md R320), its reset value, and why a step can stop. -/

namespace Sys2Proof.Machine

/-- A memory space: the words written since block reset, by word index, in strictly rising order. A word that is not listed has not
been written and reads as a draw (10_state.md R42; log entries 1 and 2). -/
abbrev Memory := List (Nat × Word)

/-- One command port (10_state.md R40, R41; 30_encoding.md R101). -/
structure PortState where
  /-- the stream position: command words taken since reset (R41) -/
  pos : Nat
  /-- the command words from that position on that the host has written, oldest first -/
  stream : List Word
  /-- response words produced and not yet taken by the host, oldest first (R40) -/
  rsp : List Word
  /-- response words the host has taken since reset, oldest first: the observation of 70_reset_and_hazards.md R338 -/
  got : List Word
deriving DecidableEq, Repr

/-- What happens at the block's boundary: the moves of the host (70_reset_and_hazards.md R339) and the arbiter's grants
(20_memory.md R83), in the order they happen. -/
inductive Event where
  /-- the host writes a command word on a port -/
  | write (p : Port) (w : Word)
  /-- the host takes the oldest response word of a port -/
  | take (p : Port)
  /-- `rst_n` falls -/
  | resetLow
  /-- `rst_n` rises -/
  | resetHigh
  /-- the block grants a port -/
  | grant (p : Port)
deriving DecidableEq, Repr

structure State where
  /-- the parameters, LOG2_NMAX and RB_DEPTH among them (10_state.md R30, R45) -/
  params : Params
  /-- CAP (10_state.md R32) -/
  cap : BitVec 21
  /-- RIDX (10_state.md R33) -/
  ridx : BitVec 20
  /-- WIDX (10_state.md R34) -/
  widx : BitVec 20
  /-- TIN (10_state.md R36) -/
  tin : BitVec 2
  /-- TOUT (10_state.md R36) -/
  tout : BitVec 2
  /-- FFTN (10_state.md R37) -/
  fftn : BitVec 20
  /-- RING (10_state.md R39) -/
  ring : Memory
  /-- SCR (10_state.md R39) -/
  scr : Memory
  /-- SLOT[0].RE -/
  slot0re : Memory
  /-- SLOT[0].IM -/
  slot0im : Memory
  /-- SLOT[1].RE -/
  slot1re : Memory
  /-- SLOT[1].IM -/
  slot1im : Memory
  /-- SLOT[2].RE -/
  slot2re : Memory
  /-- SLOT[2].IM -/
  slot2im : Memory
  /-- port P0 -/
  p0 : PortState
  /-- port P1 -/
  p1 : PortState
  /-- port P2 -/
  p2 : PortState
  /-- arbitration state: the port whose command was granted last, the executing port of a meaning (10_state.md R40) -/
  granted : Port
  /-- the level of `rst_n` (30_encoding.md R100, 70_reset_and_hazards.md R320) -/
  rstN : Bool
  /-- the events to come, soonest first -/
  events : List Event
  /-- the model's own counter, which numbers the free values (log entry 3); each command executed advances it -/
  draws : Nat
deriving DecidableEq, Repr

/-- Why the machine stops. The FFTU itself never faults (60_exceptions.md R295); these are raised only in states the spec says are
never held (10_state.md R32, R36, R37, R46; log entry 10). -/
inductive Fault where
  /-- raised by RB_PUSH, RB_POP and RB_PEEK when CAP > RB_DEPTH, so that a ring index may lie outside RING (20_memory.md R70). Safe:
  the machine stops where nothing is specified. -/
  | ringOutsideMemory
  /-- raised by FFT_FWD, FFT_INV and TB_RDOUT when the slot index they use holds 3, "never held" (10_state.md R36). Safe. -/
  | noSuchSlot
  /-- raised by FFT_FWD and FFT_INV when FFTN is neither 0 nor a power of two up to NMAX (10_state.md R37). Safe. -/
  | illegalFftSize
deriving DecidableEq, Repr

/-- Why the model gives a command no meaning. -/
inductive Refusal where
  /-- raised by a stub arm of `exec` for a command without a meaning; no arm does so now. Safe: the machine stops. -/
  | notModelled (mnemonic : String)
deriving DecidableEq, Repr

/-- A port right after block reset: both streams empty (70_reset_and_hazards.md R320). -/
def PortState.reset : PortState := { pos := 0, stream := [], rsp := [], got := [] }

/-- The state right after block reset of an FFTU with the given parameters (70_reset_and_hazards.md R320). The values of `granted`,
`events` and `draws` are the model's (log entries 7, 8 and 3). -/
def State.resetOf (p : Params) : State :=
  { params := p
    cap := 0, ridx := 0, widx := 0, tin := 1, tout := 0, fftn := 0
    ring := [], scr := []
    slot0re := [], slot0im := [], slot1re := [], slot1im := [], slot2re := [], slot2im := []
    p0 := PortState.reset, p1 := PortState.reset, p2 := PortState.reset
    granted := .p0, rstN := true, events := [], draws := 0 }

/-- The state right after block reset with the reference parameters (00_scope.md R8; log entry 5). -/
def State.reset : State := State.resetOf Params.reference

end Sys2Proof.Machine
end

