-- ==== Sys2Proof/Machine/Ops.lean ====
section
/-! DEFINITION. The named operations over the state: word memories, the memory spaces, the ports' streams, responses and errors,
block reset. -/

namespace Sys2Proof.Machine

/-- What a meaning answers. -/
abbrev Result := Host.Outcome State Fault Refusal

/-! ### Word memories -/

/-- The canonical form of a memory: word indices strictly rising. Every listed entry differs from what an unlisted index reads as,
which is no value at all (log entry 1). -/
def Memory.wf : Memory → Bool
  | [] => true
  | [_] => true
  | (a, _) :: (b, w) :: m => decide (a < b) && Memory.wf ((b, w) :: m)

/-- Every listed index lies in a space of `size` words (20_memory.md R70). -/
def Memory.within (size : Nat) (m : Memory) : Bool := m.all fun c => decide (c.1 < size)

/-- The word at an index, none if no command has written it since block reset (10_state.md R42). -/
def Memory.read? : Memory → Nat → Option Word
  | [], _ => none
  | (b, w) :: m, a => if a = b then some w else Memory.read? m a

/-- `MemWrite` (00_scope.md R12): one whole word, the canonical form kept. -/
def Memory.write : Memory → Nat → Word → Memory
  | [], a, v => [(a, v)]
  | (b, w) :: m, a, v =>
    if a < b then (a, v) :: (b, w) :: m
    else if a = b then (a, v) :: m
    else (b, w) :: Memory.write m a v

/-- Words written one after the other at rising indices from `a` on. -/
def Memory.writeWords : Memory → Nat → List Word → Memory
  | m, _, [] => m
  | m, a, v :: vs => Memory.writeWords (Memory.write m a v) (a + 1) vs

/-- `n` words `v` at the indices from `a` on. -/
def Memory.fill (v : Word) (a : Nat) : Nat → Memory
  | 0 => []
  | n + 1 => (a, v) :: Memory.fill v (a + 1) n

/-! ### Memory spaces -/

/-- The memory of a space (20_memory.md R70). -/
def State.mem (s : State) : Space → Memory
  | .ring => s.ring
  | .scr => s.scr
  | .slot .s0 .re => s.slot0re
  | .slot .s0 .im => s.slot0im
  | .slot .s1 .re => s.slot1re
  | .slot .s1 .im => s.slot1im
  | .slot .s2 .re => s.slot2re
  | .slot .s2 .im => s.slot2im

/-- The state with the memory of one space replaced. -/
def State.setMem (s : State) (sp : Space) (m : Memory) : State :=
  match sp with
  | .ring => { s with ring := m }
  | .scr => { s with scr := m }
  | .slot .s0 .re => { s with slot0re := m }
  | .slot .s0 .im => { s with slot0im := m }
  | .slot .s1 .re => { s with slot1re := m }
  | .slot .s1 .im => { s with slot1im := m }
  | .slot .s2 .re => { s with slot2re := m }
  | .slot .s2 .im => { s with slot2im := m }

/-- The number of words of a space (20_memory.md R70). -/
def spaceSize (p : Params) : Space → Nat
  | .ring => p.rbDepth.toNat
  | .scr => p.nmax
  | .slot _ _ => p.nmax

/-- `MemRead` (00_scope.md R12): the word a command has written, or a free value (10_state.md R42; log entry 2). The free value has
the draw index of the command, the space and the word index, so that no two reads of unwritten words share one. -/
def State.readWord (s : State) (sp : Space) (a : Nat) : Word :=
  match Memory.read? (s.mem sp) a with
  | some w => w
  | none => Config.freeWord s.draws sp a

/-- `n` words of a space in increasing index order from `a` on. -/
def State.readWords (s : State) (sp : Space) (a n : Nat) : List Word :=
  (List.range n).map fun i => s.readWord sp (a + i)

/-- Words written to a space in increasing index order from `a` on. -/
def State.writeWords (s : State) (sp : Space) (a : Nat) (ws : List Word) : State :=
  s.setMem sp (Memory.writeWords (s.mem sp) a ws)

/-! ### Ports and responses -/

/-- A port's state. -/
def State.port (s : State) : Port → PortState
  | .p0 => s.p0
  | .p1 => s.p1
  | .p2 => s.p2

/-- The state with one port's state replaced. -/
def State.setPort (s : State) (p : Port) (ps : PortState) : State :=
  match p with
  | .p0 => { s with p0 := ps }
  | .p1 => { s with p1 := ps }
  | .p2 => { s with p2 := ps }

/-- `respond` (00_scope.md R13): words appended to the executing port's response stream. -/
def State.respond (s : State) (ws : List Word) : State :=
  s.setPort s.granted { s.port s.granted with rsp := (s.port s.granted).rsp ++ ws }

/-- The status codes of 30_encoding.md R112. -/
inductive Status where
  | ok | illegal | port | unconfig | range | size
deriving DecidableEq, Repr

/-- Their numbers (30_encoding.md R112). -/
def Status.code : Status → BitVec 8
  | .ok => 0 | .illegal => 1 | .port => 2 | .unconfig => 3 | .range => 4 | .size => 5

/-- The STATUS word {OPC, 16'b0, code} (30_encoding.md R111). -/
def statusWord (opc : BitVec 8) (st : Status) : Word := opc ++ 0#16 ++ st.code

/-- The response of a command that succeeds: STATUS OK, VALUE, then its data words (30_encoding.md R110). -/
def reply (op : Opcode) (value : Word) (data : List Word) (s : State) : State :=
  s.respond (statusWord op.code .ok :: value :: data)

/-- `raise` (00_scope.md R13, 60_exceptions.md R290, R291): the one way a command reports an error, with VALUE 0 and no other effect.
The command's words have been taken by the fetch (R292). This is the FFTU's whole exception mechanism (R297, R298). -/
def raise (op : Opcode) (st : Status) (s : State) : State := s.respond [statusWord op.code st, 0]

/-- ERR_ILLEGAL for a header that is no command: its OPC in STATUS, listed or not, and the header as VALUE (30_encoding.md R111, R113,
R114). -/
def raiseIllegal (h : Word) (s : State) : State := s.respond [statusWord (headerOpc h) .illegal, h]

/-! ### Taking a command's words, and the host's moves -/

/-- The executing port takes `n` words of its stream and its position advances by as many (10_state.md R41, 60_exceptions.md R292);
the free values of the command get an index of their own (log entry 3). -/
def State.consume (s : State) (p : Port) (n : Nat) : State :=
  { s.setPort p { s.port p with pos := (s.port p).pos + n, stream := (s.port p).stream.drop n } with
    granted := p, draws := s.draws + 1 }

/-- The host writes a word on a port; words written while `rst_n` is low are discarded (70_reset_and_hazards.md R320). -/
def State.hostWrite (s : State) (p : Port) (w : Word) : State :=
  if s.rstN then s.setPort p { s.port p with stream := (s.port p).stream ++ [w] } else s

/-- The host takes the oldest response word of a port, if there is one (30_encoding.md R101). -/
def State.hostTake (s : State) (p : Port) : State :=
  match (s.port p).rsp with
  | [] => s
  | w :: rest => s.setPort p { s.port p with rsp := rest, got := (s.port p).got ++ [w] }

/-- `rst_n` at a level: the block is in the state of 70_reset_and_hazards.md R320, the parameters kept (10_state.md R45). The events to
come and the index of the free values are not the block's and go on. -/
def State.blockReset (s : State) (level : Bool) : State :=
  { State.resetOf s.params with rstN := level, events := s.events, draws := s.draws }

end Sys2Proof.Machine
end

