-- ==== Sys2Proof/Machine/Flags.lean ====
section
/-! DEFINITION. The FFTU has no flags (10_state.md R44). What a command reports instead is its VALUE word: this file computes the
signed counts and the zero-extended register values VALUE holds. -/

namespace Sys2Proof.Machine

/-- `s32`: the 32-bit two's-complement encoding of an integer (00_scope.md R11). -/
def s32 (v : Int) : Word := BitVec.ofInt 32 v

/-- `zext_32` of a number below 2^32 (00_scope.md R11). -/
def zext32 (n : Nat) : Word := BitVec.ofNat 32 n

/-- The signed-return convention of RB_PUSH, RB_POP and RB_PEEK: what is left if everything fitted, else the negated shortfall
(40_ring_buffer.md R143). -/
def signedCount (available count : Nat) : Word := s32 ((available : Int) - (count : Int))

end Sys2Proof.Machine
end

