-- ==== Sys2Proof/Machine/Operands.lean ====
section
/-! DEFINITION. The checks and operand forms the commands share, in the order of 60_exceptions.md R293: the port check, the
configuration checks, the range checks, and which slot an index names. -/

namespace Sys2Proof.Machine

/-- The ports allowed to issue an opcode (30_encoding.md R107). -/
def allowedPorts : Opcode → List Port
  | .nop | .stat => [.p0, .p1, .p2]
  | .rbPush => [.p0]
  | .rbNum | .rbRem => [.p0, .p1]
  | .rbSetcap | .rbPop | .rbPeek | .rbSetnum => [.p1]
  | .tbReset | .tbStart | .tbStop => [.p1]
  | .tbLock | .tbUnlock | .tbRdout => [.p2]
  | .fftCfg | .fftFwd | .fftInv => [.p1]
  | .scrWr | .scrRd | .slotRd => [.p1]

/-- ERR_PORT on a port not in the opcode's list (60_exceptions.md R290, R293 item 3). -/
def onItsPorts (op : Opcode) (s : State) (k : Result) : Result :=
  if s.granted ∈ allowedPorts op then k else .next (raise op .port s)

/-- ERR_UNCONFIG while CAP = 0 (40_ring_buffer.md R146). -/
def ringConfigured (op : Opcode) (s : State) (k : Result) : Result :=
  if s.cap = 0 then .next (raise op .unconfig s) else k

/-- ERR_UNCONFIG while FFTN = 0 (41_fft.md R191, R197). -/
def fftConfigured (op : Opcode) (s : State) (k : Result) : Result :=
  if s.fftn = 0 then .next (raise op .unconfig s) else k

/-- ERR_RANGE if B + A > NMAX, a sum of mathematical integers (30_encoding.md R104, 60_exceptions.md R290). -/
def frameRange (op : Opcode) (count : Nat) (off : Word) (s : State) (k : Result) : Result :=
  if s.params.nmax < off.toNat + count then .next (raise op .range s) else k

/-- No ring index lies outside RING while CAP ≤ RB_DEPTH (10_state.md R32, 20_memory.md R70; log entry 10). -/
def ringInMemory (s : State) (k : Result) : Result :=
  if s.params.rbDepth.toNat < s.cap.toNat then .fault .ringOutsideMemory else k

/-- The slot a 2-bit slot number names; none for the encoding 3 (10_state.md R36). -/
def slotOf (b : BitVec 2) : Option Slot :=
  if b = 0 then some .s0 else if b = 1 then some .s1 else if b = 2 then some .s2 else none

/-- The slot TIN or TOUT names; the encoding 3 is never held (10_state.md R36; log entry 10). -/
def withSlot (b : BitVec 2) (k : Slot → Result) : Result :=
  match slotOf b with
  | some i => k i
  | none => .fault .noSuchSlot

/-- `n` is a power of two that is at most NMAX (41_fft.md R190). -/
def isFftSize (p : Params) (n : Nat) : Bool :=
  decide (n ≠ 0) && decide (n &&& (n - 1) = 0) && decide (n ≤ p.nmax)

/-- The transform length of a configured FFT unit; FFTN holds no other value (10_state.md R37; log entry 10). -/
def withFftSize (s : State) (k : Nat → Result) : Result :=
  if isFftSize s.params s.fftn.toNat then k s.fftn.toNat else .fault .illegalFftSize

end Sys2Proof.Machine
end

