-- ==== Sys2Proof/Machine/Access.lean ====
section
/-! DEFINITION. The access and system commands NOP, STAT, SCR_WR, SCR_RD, SLOT_RD (43_access_system.md). -/

namespace Sys2Proof.Machine

/-- NOP (43_access_system.md R260). -/
def execNop (s : State) : Result := onItsPorts .nop s <| .next (reply .nop 0 [] s)

/-- The value STAT reads by selector, none above 7 (43_access_system.md R261). -/
def State.statValue (s : State) (sel : Nat) : Option Word :=
  match sel with
  | 0 => some (s.cap.setWidth 32)
  | 1 => some (s.ridx.setWidth 32)
  | 2 => some (s.widx.setWidth 32)
  | 3 => some (s.tin.setWidth 32)
  | 4 => some (s.tout.setWidth 32)
  | 5 => some (s.fftn.setWidth 32)
  | 6 => some (s.params.log2Nmax.setWidth 32)
  | 7 => some (s.params.rbDepth.setWidth 32)
  | _ => none

/-- STAT (43_access_system.md R261). -/
def execStat (sel : BitVec 20) (s : State) : Result :=
  onItsPorts .stat s <|
    match s.statValue sel.toNat with
    | some v => .next (reply .stat v [] s)
    | none => .next (raise .stat .range s)

/-- SCR_WR (43_access_system.md R262). -/
def execScrWr (off : Word) (data : List Word) (s : State) : Result :=
  onItsPorts .scrWr s <| frameRange .scrWr data.length off s <|
    .next (reply .scrWr (zext32 data.length) [] (s.writeWords .scr off.toNat data))

/-- SCR_RD (43_access_system.md R263). -/
def execScrRd (count : BitVec 20) (off : Word) (s : State) : Result :=
  onItsPorts .scrRd s <| frameRange .scrRd count.toNat off s <|
    .next (reply .scrRd (zext32 count.toNat) (s.readWords .scr off.toNat count.toNat) s)

/-- SLOT_RD (43_access_system.md R264): words of any slot; slot number 3 raises ERR_RANGE. -/
def execSlotRd (slot : BitVec 2) (part : Part) (count : BitVec 20) (off : Word) (s : State) : Result :=
  onItsPorts .slotRd s <| frameRange .slotRd count.toNat off s <|
    match slotOf slot with
    | some k => .next (reply .slotRd (zext32 count.toNat) (s.readWords (.slot k part) off.toNat count.toNat) s)
    | none => .next (raise .slotRd .range s)

end Sys2Proof.Machine
end

