-- ==== Sys2Proof/Machine/Float.lean ====
section
/-! DEFINITION. IEEE 754 binary32 arithmetic on 32-bit words, as 00_scope.md R14 and 41_fft.md R180 to R183 give it: operands are read
as exact integers in units of 2^-149, the result is computed exactly and rounded once to nearest, ties to even. The first argument of
`fadd`, `fsub` and `fmul` is the word to deliver should the result be a NaN (log entry 4). -/

namespace Sys2Proof.Machine

/-- The sign bit (00_scope.md R14). -/
def fSign (w : Word) : Bool := w.getLsbD 31

/-- The biased exponent, bits 30:23. -/
def fExp (w : Word) : Nat := (w.extractLsb' 23 8).toNat

/-- The fraction, bits 22:0. -/
def fFrac (w : Word) : Nat := (w.extractLsb' 0 23).toNat

def isNaN (w : Word) : Bool := decide (fExp w = 255) && decide (fFrac w ≠ 0)

def isInf (w : Word) : Bool := decide (fExp w = 255) && decide (fFrac w = 0)

/-- The magnitude of a finite word in units of 2^-149; subnormals as they are (41_fft.md R181). -/
def fMag (w : Word) : Nat := if fExp w = 0 then fFrac w else (2 ^ 23 + fFrac w) * 2 ^ (fExp w - 1)

/-- The value of a finite word in units of 2^-149. -/
def fInt (w : Word) : Int := if fSign w then -(fMag w : Int) else (fMag w : Int)

/-- The bits 30:0 of the binary32 value nearest, ties to even, to n · 2^-(149 + k): the unit of the result is 2^q, the magnitude is cut
to a multiple of it and rounded; a carry into the exponent and the overflow to infinity (41_fft.md R181) come out of the sum. -/
def roundMag (n k : Nat) : Nat :=
  let q := max k (Nat.log2 n - 23)
  let m := n / 2 ^ q
  let r := n % 2 ^ q
  let up := 2 ^ q < 2 * r ∨ (2 * r = 2 ^ q ∧ m % 2 = 1)
  min ((q - k) * 2 ^ 23 + (if up then m + 1 else m)) 0x7F800000

/-- A word of a sign and the bits 30:0. -/
def fPack (neg : Bool) (bits : Nat) : Word := BitVec.ofNat 32 (if neg then 2 ^ 31 + bits else bits)

/-- `fneg`: bit 31 inverted, for zero and NaN too (00_scope.md R14). -/
def fneg (a : Word) : Word := a ^^^ 0x80000000#32

/-- `fadd` (00_scope.md R14, 41_fft.md R181, R183). -/
def fadd (nan a b : Word) : Word :=
  if isNaN a || isNaN b then nan
  else if isInf a then (if isInf b && (fSign a != fSign b) then nan else a)
  else if isInf b then b
  else if fInt a + fInt b = 0 then fPack (fSign a && fSign b) 0
  else fPack (decide (fInt a + fInt b < 0)) (roundMag (fInt a + fInt b).natAbs 0)

/-- `fsub` (00_scope.md R14, 41_fft.md R181, R183): the sum with the sign of the second operand inverted. -/
def fsub (nan a b : Word) : Word := fadd nan a (fneg b)

/-- `fmul` (00_scope.md R14, 41_fft.md R181, R183). -/
def fmul (nan a b : Word) : Word :=
  if isNaN a || isNaN b then nan
  else if isInf a || isInf b then
    (if fMag a = 0 ∨ fMag b = 0 then nan else fPack (fSign a != fSign b) 0x7F800000)
  else fPack (fSign a != fSign b) (roundMag (fMag a * fMag b) 149)

/-- The canonical NaN (41_fft.md R183). -/
def canonicalNaN : Word := 0x7FC00000#32

/-- A drawn word as a NaN encoding; every NaN encoding is one of these (93_implementation_defined.md I2). -/
def asNaN (w : Word) : Word := if isNaN w then w else canonicalNaN

/-- The word delivered for a NaN result, by the place of the operation in the transform. -/
abbrev NanSource := List Nat → Word

/-- NaN results under NAN_MODE: the canonical NaN, or any NaN, drawn anew for each operation (41_fft.md R183; log entry 4). -/
def State.nanSource (s : State) : NanSource := fun site =>
  match s.params.nanMode with
  | .canonical => canonicalNaN
  | .any => asNaN (Config.freeNan s.draws site)

end Sys2Proof.Machine
end

