-- ==== Sys2Proof/Machine/Rom.lean ====
section
/-! DEFINITION. The read-only twiddle tables ROMC and ROMS (10_state.md R39, 41_fft.md R184) as functions of the table index, and the
twiddle `tw` (R185). The tables have up to 2 · 2^19 words, so their entries are computed: cosine and sine as fixed-point integers in
units of 2^-192, by the Taylor series on [0, π/4], rounded once to binary32 (log entry 11). -/

namespace Sys2Proof.Machine

/-- 1 in fixed point. -/
def romOne : Nat := 2 ^ 192

/-- π in fixed point, cut to 2^-192. -/
def romPi : Nat := 19720096697726538562396133364228268891463450865190089732560

/-- One Horner step: 1 - x2 · acc / d, with x2 the squared angle and `d` the product of two successive factorial factors. -/
def romHorner (x2 : Nat) (acc d : Nat) : Nat := romOne - x2 * acc / (romOne * d)

/-- cos x for a fixed-point x in [0, π/4]: 1 - x²/(1·2) · (1 - x²/(3·4) · (1 - …)), 24 terms. -/
def romCosSeries (x : Nat) : Nat :=
  (List.range 24).foldl (fun acc i => romHorner (x * x / romOne) acc ((2 * (24 - i) - 1) * (2 * (24 - i)))) romOne

/-- sin x for a fixed-point x in [0, π/4]: x · (1 - x²/(2·3) · (1 - x²/(4·5) · (1 - …))), 24 terms. -/
def romSinSeries (x : Nat) : Nat :=
  x * (List.range 24).foldl (fun acc i => romHorner (x * x / romOne) acc ((2 * (24 - i)) * (2 * (24 - i) + 1))) romOne / romOne

/-- The fixed-point angle 2πr/2^l. -/
def romAngle (l r : Nat) : Nat := romPi * 2 * r / 2 ^ l

/-- cos(2πr/2^l) for 0 ≤ r ≤ 2^l/4, in fixed point; past π/4 it is the sine of the complement. -/
def romCosFirst (l r : Nat) : Nat :=
  if 8 * r ≤ 2 ^ l then romCosSeries (romAngle l r) else romSinSeries (romAngle l (2 ^ l / 4 - r))

/-- sin(2πr/2^l) for 0 ≤ r ≤ 2^l/4, in fixed point; past π/4 it is the cosine of the complement. -/
def romSinFirst (l r : Nat) : Nat :=
  if 8 * r ≤ 2 ^ l then romSinSeries (romAngle l r) else romCosSeries (romAngle l (2 ^ l / 4 - r))

/-- A fixed-point magnitude and a sign as the nearest binary32 value; an exact zero is +0.0 (41_fft.md R184). -/
def romRound (neg : Bool) (v : Nat) : Word := fPack (neg && decide (v ≠ 0)) (roundMag v 43)

/-- ROMC[m] of a table of 2^l words: cos(2πm/2^l), by the quadrant of m (41_fft.md R184). -/
def romCosAt (l m : Nat) : Word :=
  match m / (2 ^ l / 4) with
  | 0 => romRound false (romCosFirst l (m % (2 ^ l / 4)))
  | 1 => romRound true (romSinFirst l (m % (2 ^ l / 4)))
  | 2 => romRound true (romCosFirst l (m % (2 ^ l / 4)))
  | _ => romRound false (romSinFirst l (m % (2 ^ l / 4)))

/-- ROMS[m] of a table of 2^l words: sin(2πm/2^l), by the quadrant of m (41_fft.md R184). -/
def romSinAt (l m : Nat) : Word :=
  match m / (2 ^ l / 4) with
  | 0 => romRound false (romSinFirst l (m % (2 ^ l / 4)))
  | 1 => romRound false (romCosFirst l (m % (2 ^ l / 4)))
  | 2 => romRound true (romSinFirst l (m % (2 ^ l / 4)))
  | _ => romRound true (romCosFirst l (m % (2 ^ l / 4)))

/-- `ROMC[m]` of an FFTU (41_fft.md R184). -/
def romCos (p : Params) (m : Nat) : Word := romCosAt p.log2Nmax.toNat m

/-- `ROMS[m]` of an FFTU (41_fft.md R184). -/
def romSin (p : Params) (m : Nat) : Word := romSinAt p.log2Nmax.toNat m

/-- `tw(m)`: the table entries, the sine's sign by TWIDDLE_SIGN (41_fft.md R185). -/
def tw (p : Params) (m : Nat) : Word × Word :=
  match p.twiddleSign with
  | .plus => (romCos p m, romSin p m)
  | .minus => (romCos p m, fneg (romSin p m))

end Sys2Proof.Machine
end

