-- ==== Sys2Proof/Machine/Fft.lean ====
section
/-! DEFINITION. The FFT unit (41_fft.md): bit reversal, complex multiplication, butterflies, the butterfly network, the direct
transforms, and the commands FFT_CFG, FFT_FWD, FFT_INV. Each arithmetic operation carries the place it stands at (`site`), by which
NAN_MODE = ANY draws its NaN (log entry 4). -/

namespace Sys2Proof.Machine

/-- A complex number (r, i) of two binary32 words (00_scope.md R14). -/
abbrev Cx := Word × Word

/-- `bitrev_L(i)` (00_scope.md R15). -/
def bitrev : Nat → Nat → Nat
  | 0, _ => 0
  | L + 1, i => (i % 2) * 2 ^ L + bitrev L (i / 2)

/-- The bit-reversal permutation: `p[bitrev_L(i)] = x[i]` (41_fft.md R186). -/
def permute (L : Nat) (x : List Cx) : List Cx :=
  (List.range (2 ^ L)).foldl (fun p i => p.set (bitrev L i) (x.getD i (0, 0))) (List.replicate (2 ^ L) (0, 0))

/-- Complex multiplication (41_fft.md R187). -/
def cmul (nu : NanSource) (site : List Nat) (a b : Cx) : Cx :=
  (fsub (nu (4 :: site)) (fmul (nu (0 :: site)) a.1 b.1) (fmul (nu (1 :: site)) a.2 b.2),
   fadd (nu (5 :: site)) (fmul (nu (2 :: site)) a.1 b.2) (fmul (nu (3 :: site)) a.2 b.1))

/-- The butterfly on the index pair (k, k2) with twiddle w, in place (41_fft.md R188). -/
def butterfly (nu : NanSource) (site : List Nat) (w : Cx) (k k2 : Nat) (a : List Cx) : List Cx :=
  let t := cmul nu site w (a.getD k2 (0, 0))
  let u := a.getD k (0, 0)
  (a.set k (fadd (nu (6 :: site)) u.1 t.1, fadd (nu (7 :: site)) u.2 t.2)).set k2
    (fsub (nu (8 :: site)) u.1 t.1, fsub (nu (9 :: site)) u.2 t.2)

/-- The innermost loop of 41_fft.md R189: the butterflies of position j, on k = j, j + M, j + 2M, … below N = G · M. -/
def groupLoop (nu : NanSource) (s j G : Nat) (w : Cx) (a : List Cx) : List Cx :=
  (List.range G).foldl
    (fun a g => butterfly nu [j + g * 2 ^ s, j, s] w (j + g * 2 ^ s) (j + g * 2 ^ s + 2 ^ (s - 1)) a) a

/-- The loop over j of one stage, `H` positions from `j` on, the twiddle updated by ω_M after each (41_fft.md R189). -/
def positionLoop (nu : NanSource) (s G : Nat) (omega : Cx) : Nat → Nat → Cx → List Cx → List Cx
  | 0, _, _, a => a
  | H + 1, j, w, a => positionLoop nu s G omega H (j + 1) (cmul nu [j, s] w omega) (groupLoop nu s j G w a)

/-- Stage s of the network of length 2^L, M = 2^s, H = M/2, the twiddle started at (1.0, +0.0) (41_fft.md R189). -/
def networkStage (nu : NanSource) (p : Params) (L s : Nat) (a : List Cx) : List Cx :=
  positionLoop nu s (2 ^ L / 2 ^ s) (tw p (p.nmax / 2 ^ s)) (2 ^ (s - 1)) 0 (0x3F800000#32, 0x00000000#32) a

/-- The butterfly network of length 2^L: stages 1 to L (41_fft.md R189). -/
def butterflyNetwork (nu : NanSource) (p : Params) (L : Nat) (a : List Cx) : List Cx :=
  (List.range L).foldl (fun a i => networkStage nu p L (i + 1) a) a

/-- `forward_iterative` (41_fft.md R192). -/
def forwardIterative (nu : NanSource) (p : Params) (L : Nat) (x : List Word) : List Cx :=
  butterflyNetwork nu p L (permute L (x.map fun w => (w, 0x00000000#32)))

/-- The twiddle of the direct transforms: tw(((k · n) mod N) · (NMAX / N)) (41_fft.md R193, R199). -/
def directTwiddle (p : Params) (L k n : Nat) : Cx := tw p ((k * n) % 2 ^ L * (p.nmax / 2 ^ L))

/-- One term of the sum of `forward_direct` (41_fft.md R193). -/
def directForwardStep (nu : NanSource) (p : Params) (L : Nat) (x : List Word) (k : Nat) (acc : Cx) (n : Nat) : Cx :=
  (fadd (nu [2, n, k]) acc.1 (fmul (nu [0, n, k]) (x.getD n 0) (directTwiddle p L k n).1),
   fadd (nu [3, n, k]) acc.2 (fmul (nu [1, n, k]) (x.getD n 0) (directTwiddle p L k n).2))

/-- `forward_direct` (41_fft.md R193). -/
def forwardDirect (nu : NanSource) (p : Params) (L : Nat) (x : List Word) : List Cx :=
  (List.range (2 ^ L)).map fun k =>
    (List.range (2 ^ L)).foldl (directForwardStep nu p L x k) (0x00000000#32, 0x00000000#32)

/-- The binary32 encoding of 2^-L (41_fft.md R198). -/
def invScale (L : Nat) : Word := BitVec.ofNat 32 ((127 - L) * 2 ^ 23)

/-- `inverse_iterative` (41_fft.md R198): conjugate, permute both parts, the forward network, scale the real part. -/
def inverseIterative (nu : NanSource) (p : Params) (L : Nat) (x : List Cx) : List Word :=
  let a := butterflyNetwork nu p L (permute L (x.map fun z => (z.1, fneg z.2)))
  (List.range (2 ^ L)).map fun i => fmul (nu [i]) (a.getD i (0, 0)).1 (invScale L)

/-- One term of the sum of `inverse_direct` (41_fft.md R199). -/
def directInverseStep (nu : NanSource) (p : Params) (L : Nat) (x : List Cx) (n : Nat) (acc : Word) (k : Nat) : Word :=
  fadd (nu [3, k, n]) acc
    (fadd (nu [2, k, n]) (fmul (nu [0, k, n]) (x.getD k (0, 0)).1 (directTwiddle p L k n).1)
      (fmul (nu [1, k, n]) (x.getD k (0, 0)).2 (directTwiddle p L k n).2))

/-- `inverse_direct` (41_fft.md R199). -/
def inverseDirect (nu : NanSource) (p : Params) (L : Nat) (x : List Cx) : List Word :=
  (List.range (2 ^ L)).map fun n =>
    fmul (nu [n]) ((List.range (2 ^ L)).foldl (directInverseStep nu p L x n) 0x00000000#32) (invScale L)

/-- The forward transform in a mode (41_fft.md R191). -/
def forwardTransform (nu : NanSource) (p : Params) (mode : Mode) (L : Nat) (x : List Word) : List Cx :=
  match mode with
  | .iterative => forwardIterative nu p L x
  | .direct => forwardDirect nu p L x

/-- The inverse transform in a mode (41_fft.md R197). -/
def inverseTransform (nu : NanSource) (p : Params) (mode : Mode) (L : Nat) (x : List Cx) : List Word :=
  match mode with
  | .iterative => inverseIterative nu p L x
  | .direct => inverseDirect nu p L x

/-- FFT_CFG (41_fft.md R190). -/
def execFftCfg (n : BitVec 20) (s : State) : Result :=
  onItsPorts .fftCfg s <|
    if isFftSize s.params n.toNat then .next (reply .fftCfg (zext32 n.toNat) [] { s with fftn := n })
    else .next (raise .fftCfg .size s)

/-- FFT_FWD (41_fft.md R191): SCR[0..N-1] transformed into slot TIN. -/
def execFftFwd (mode : Mode) (s : State) : Result :=
  onItsPorts .fftFwd s <| fftConfigured .fftFwd s <| withFftSize s fun N => withSlot s.tin fun i =>
    let y := forwardTransform s.nanSource s.params mode (Nat.log2 N) (s.readWords .scr 0 N)
    .next (reply .fftFwd (zext32 s.tin.toNat) []
      ((s.writeWords (.slot i .re) 0 (y.map Prod.fst)).writeWords (.slot i .im) 0 (y.map Prod.snd)))

/-- FFT_INV (41_fft.md R197): slot TIN inverted into SCR[0..N-1], the slot unchanged. -/
def execFftInv (mode : Mode) (s : State) : Result :=
  onItsPorts .fftInv s <| fftConfigured .fftInv s <| withFftSize s fun N => withSlot s.tin fun i =>
    let x := (s.readWords (.slot i .re) 0 N).zip (s.readWords (.slot i .im) 0 N)
    .next (reply .fftInv (zext32 s.tin.toNat) []
      (s.writeWords .scr 0 (inverseTransform s.nanSource s.params mode (Nat.log2 N) x)))

end Sys2Proof.Machine
end

