-- ==== Sys2Proof/Machine/Ring.lean ====
section
/-! DEFINITION. The ring-buffer unit: index arithmetic and the commands RB_SETCAP, RB_PUSH, RB_POP, RB_PEEK, RB_NUM, RB_REM, RB_SETNUM
(40_ring_buffer.md). -/

namespace Sys2Proof.Machine

/-- An integer mod CAP, in [0, CAP) (00_scope.md R11). -/
def State.modCap (s : State) (v : Int) : Nat := (v % (s.cap.toNat : Int)).toNat

/-- Num = (WIDX - RIDX - 1) mod CAP, the words RB_POP can return (40_ring_buffer.md R141). -/
def State.num (s : State) : Nat := s.modCap ((s.widx.toNat : Int) - (s.ridx.toNat : Int) - 1)

/-- Rem = (RIDX - WIDX) mod CAP, the words RB_PUSH can store (40_ring_buffer.md R141). -/
def State.rem (s : State) : Nat := s.modCap ((s.ridx.toNat : Int) - (s.widx.toNat : Int))

/-- The ring index of the `i`-th oldest stored word (40_ring_buffer.md R142). -/
def State.oldestIndex (s : State) (i : Nat) : Nat := (s.ridx.toNat + 1 + i) % s.cap.toNat

/-- The ring index of the `i`-th word of a push (40_ring_buffer.md R142). -/
def State.pushIndex (s : State) (i : Nat) : Nat := (s.widx.toNat + i) % s.cap.toNat

/-- The `k` oldest stored words, oldest first. -/
def State.oldestWords (s : State) (k : Nat) : List Word :=
  (List.range k).map fun i => s.readWord .ring (s.oldestIndex i)

/-- RING after the words `ws` have been stored from the push index `i` on. -/
def State.ringStored (s : State) (m : Memory) (i : Nat) : List Word → Memory
  | [] => m
  | w :: ws => s.ringStored (Memory.write m (s.pushIndex i) w) (i + 1) ws

/-- RIDX moved forward by `k` slots (40_ring_buffer.md R142). -/
def State.advanceRidx (s : State) (k : Nat) : State :=
  { s with ridx := BitVec.ofNat 20 ((s.ridx.toNat + k) % s.cap.toNat) }

/-- WIDX moved by an integer number of slots (40_ring_buffer.md R142, R153). -/
def State.moveWidx (s : State) (d : Int) : State :=
  { s with widx := BitVec.ofNat 20 (s.modCap ((s.widx.toNat : Int) + d)) }

/-- RB_SETCAP (40_ring_buffer.md R147). -/
def execRbSetcap (n : BitVec 20) (s : State) : Result :=
  onItsPorts .rbSetcap s <|
    if 1 ≤ n.toNat ∧ n.toNat + 1 ≤ s.params.rbDepth.toNat then
      .next (reply .rbSetcap (zext32 (n.toNat + 1)) [] { s with cap := BitVec.ofNat 21 (n.toNat + 1), ridx := 0, widx := 1 })
    else .next (raise .rbSetcap .range s)

/-- RB_PUSH (40_ring_buffer.md R148): the first min(count, Rem) payload words are stored, the others discarded. -/
def execRbPush (data : List Word) (s : State) : Result :=
  onItsPorts .rbPush s <| ringConfigured .rbPush s <| ringInMemory s <|
    let k := min data.length s.rem
    .next (reply .rbPush (signedCount s.rem data.length) []
      ((s.setMem .ring (s.ringStored s.ring 0 (data.take k))).moveWidx (k : Int)))

/-- RB_POP (40_ring_buffer.md R149): the min(count, Num) oldest words go to SCR from index `off` on, and leave the ring. -/
def execRbPop (count : BitVec 20) (off : Word) (s : State) : Result :=
  onItsPorts .rbPop s <| ringConfigured .rbPop s <| frameRange .rbPop count.toNat off s <| ringInMemory s <|
    let k := min count.toNat s.num
    .next (reply .rbPop (signedCount s.num count.toNat) []
      ((s.writeWords .scr off.toNat (s.oldestWords k)).advanceRidx k))

/-- RB_PEEK (40_ring_buffer.md R150): RB_POP without the write of RIDX. -/
def execRbPeek (count : BitVec 20) (off : Word) (s : State) : Result :=
  onItsPorts .rbPeek s <| ringConfigured .rbPeek s <| frameRange .rbPeek count.toNat off s <| ringInMemory s <|
    let k := min count.toNat s.num
    .next (reply .rbPeek (signedCount s.num count.toNat) [] (s.writeWords .scr off.toNat (s.oldestWords k)))

/-- RB_NUM (40_ring_buffer.md R151). -/
def execRbNum (s : State) : Result :=
  onItsPorts .rbNum s <| ringConfigured .rbNum s <| .next (reply .rbNum (zext32 s.num) [] s)

/-- RB_REM (40_ring_buffer.md R152). -/
def execRbRem (s : State) : Result :=
  onItsPorts .rbRem s <| ringConfigured .rbRem s <| .next (reply .rbRem (zext32 s.rem) [] s)

/-- The ring with at most `n` words, the newest or the oldest kept (40_ring_buffer.md R153). -/
def State.truncate (s : State) (retain : Retain) (n : Nat) : State :=
  if n < s.num then
    match retain with
    | .newest => s.advanceRidx (s.num - n)
    | .oldest => s.moveWidx (-((s.num - n : Nat) : Int))
  else s

/-- RB_SETNUM (40_ring_buffer.md R153). -/
def execRbSetnum (retain : Retain) (n : BitVec 20) (s : State) : Result :=
  onItsPorts .rbSetnum s <| ringConfigured .rbSetnum s <|
    .next (reply .rbSetnum (zext32 (min n.toNat s.num)) [] (s.truncate retain n.toNat))

end Sys2Proof.Machine
end

