-- ==== Sys2Proof/Machine/TripleBuffer.lean ====
section
/-! DEFINITION. The triple-buffer slot-rotation synchronizer: the advance function and the commands TB_RESET, TB_START, TB_STOP,
TB_LOCK, TB_UNLOCK, TB_RDOUT (42_triple_buffer.md). -/

namespace Sys2Proof.Machine

/-- `next(a, b)`: one slot further, two if that would be b (42_triple_buffer.md R231). -/
def nextSlot (a b : BitVec 2) : BitVec 2 :=
  if (a.toNat + 1) % 3 ≠ b.toNat then BitVec.ofNat 2 ((a.toNat + 1) % 3) else BitVec.ofNat 2 ((a.toNat + 2) % 3)

/-- Every word of every slot +0.0 (42_triple_buffer.md R234). -/
def State.clearSlots (s : State) : State :=
  let z := Memory.fill 0x00000000#32 0 s.params.nmax
  { s with slot0re := z, slot0im := z, slot1re := z, slot1im := z, slot2re := z, slot2im := z }

/-- TB_RESET (42_triple_buffer.md R234). -/
def execTbReset (s : State) : Result :=
  onItsPorts .tbReset s <| .next (reply .tbReset 0 [] { s.clearSlots with tin := 1, tout := 0 })

/-- TB_START (42_triple_buffer.md R235). -/
def execTbStart (s : State) : Result :=
  onItsPorts .tbStart s <| .next (reply .tbStart (zext32 s.tin.toNat) [] s)

/-- TB_STOP (42_triple_buffer.md R236). -/
def execTbStop (s : State) : Result :=
  onItsPorts .tbStop s <|
    .next (reply .tbStop (zext32 (nextSlot s.tin s.tout).toNat) [] { s with tin := nextSlot s.tin s.tout })

/-- TB_LOCK (42_triple_buffer.md R237). -/
def execTbLock (s : State) : Result :=
  onItsPorts .tbLock s <| .next (reply .tbLock (zext32 s.tout.toNat) [] s)

/-- TB_UNLOCK (42_triple_buffer.md R239). -/
def execTbUnlock (s : State) : Result :=
  onItsPorts .tbUnlock s <|
    .next (reply .tbUnlock (zext32 (nextSlot s.tout s.tin).toNat) [] { s with tout := nextSlot s.tout s.tin })

/-- TB_RDOUT (42_triple_buffer.md R240): words of slot TOUT. -/
def execTbRdout (part : Part) (count : BitVec 20) (off : Word) (s : State) : Result :=
  onItsPorts .tbRdout s <| frameRange .tbRdout count.toNat off s <| withSlot s.tout fun i =>
    .next (reply .tbRdout (zext32 count.toNat) (s.readWords (.slot i part) off.toNat count.toNat) s)

end Sys2Proof.Machine
end

