-- ==== Sys2Proof/Machine/Dispatch.lean ====
section
/-! DEFINITION. One arm per constructor of `Instr`, each a direct call of its meaning. The executing port is `s.granted`. -/

namespace Sys2Proof.Machine

def exec (i : Instr) (s : State) : Host.Outcome State Fault Refusal :=
  match i with
  | .nop => Sys2Proof.Machine.execNop s
  | .stat sel => Sys2Proof.Machine.execStat sel s
  | .rbSetcap n => Sys2Proof.Machine.execRbSetcap n s
  | .rbPush data => Sys2Proof.Machine.execRbPush data s
  | .rbPop count off => Sys2Proof.Machine.execRbPop count off s
  | .rbPeek count off => Sys2Proof.Machine.execRbPeek count off s
  | .rbNum => Sys2Proof.Machine.execRbNum s
  | .rbRem => Sys2Proof.Machine.execRbRem s
  | .rbSetnum retain n => Sys2Proof.Machine.execRbSetnum retain n s
  | .tbReset => Sys2Proof.Machine.execTbReset s
  | .tbStart => Sys2Proof.Machine.execTbStart s
  | .tbStop => Sys2Proof.Machine.execTbStop s
  | .tbLock => Sys2Proof.Machine.execTbLock s
  | .tbUnlock => Sys2Proof.Machine.execTbUnlock s
  | .tbRdout part count off => Sys2Proof.Machine.execTbRdout part count off s
  | .fftCfg n => Sys2Proof.Machine.execFftCfg n s
  | .fftFwd mode => Sys2Proof.Machine.execFftFwd mode s
  | .fftInv mode => Sys2Proof.Machine.execFftInv mode s
  | .scrWr off data => Sys2Proof.Machine.execScrWr off data s
  | .scrRd count off => Sys2Proof.Machine.execScrRd count off s
  | .slotRd slot part count off => Sys2Proof.Machine.execSlotRd slot part count off s

end Sys2Proof.Machine
end

