-- ==== Sys2Proof/Machine/Run.lean ====
section
/-! DEFINITION. Fetching from a port's command stream, granting a port, and the host's moves: everything a step does around `exec`
(30_encoding.md R101, 20_memory.md R78, R83, 70_reset_and_hazards.md R335, R336, R339). -/

namespace Sys2Proof.Machine

/-- What stands at the front of a port's command stream. -/
def State.fetch (s : State) (p : Port) : Decoded := decode (s.port p).stream

/-- A port has a command to execute: it is out of reset, the host has taken every response word of the command before
(30_encoding.md R101), and every word of the command has been written (70_reset_and_hazards.md R335). -/
def State.ready (s : State) (p : Port) : Bool :=
  s.rstN && (s.port p).rsp.isEmpty && (match s.fetch p with
    | .incomplete => false
    | .command _ _ => true
    | .illegal _ _ _ => true)

/-- The ready ports. -/
def State.readyPorts (s : State) : List Port := [Port.p0, Port.p1, Port.p2].filter fun p => s.ready p

/-- The port the block grants of its own accord: the only ready one, or any of several (ARB; log entry 6). -/
def State.arbiter (s : State) : Option Port :=
  match s.readyPorts with
  | [] => none
  | [p] => some p
  | p :: q :: rest => some ((p :: q :: rest).getD (Config.arbChoice s.draws % (p :: q :: rest).length) p)

/-- A granted port executes the command at the front of its stream, as one step, if it is ready. -/
def runPort (p : Port) (s : State) : Result :=
  if s.ready p then
    match s.fetch p with
    | .command i n => exec i (s.consume p n)
    | .illegal _ h n => .next (raiseIllegal h (s.consume p n))
    | .incomplete => .next s
  else .next s

/-- An event at the block's boundary. -/
def runEvent (e : Event) (s : State) : Result :=
  match e with
  | .write p w => .next (s.hostWrite p w)
  | .take p => .next (s.hostTake p)
  | .resetLow => .next (s.blockReset false)
  | .resetHigh => .next (s.blockReset true)
  | .grant p => runPort p s

/-- One step: the next event, or, when none is given, a grant of the block's own; with no port ready nothing changes
(log entries 8 and 14). -/
def runNext (s : State) : Result :=
  match s.events with
  | e :: rest => runEvent e { s with events := rest }
  | [] =>
    match s.arbiter with
    | some p => runPort p s
    | none => .next s

/-- The port a command word is placed on by `withFetchWord`: the first its opcode is allowed on, P1 for a reserved opcode
(log entry 9). -/
def homePort (h : Word) : Port :=
  match Opcode.ofCode (headerOpc h) with
  | some op => (allowedPorts op).headD .p1
  | none => .p1

/-- A command's words written at the front of a port's stream, the port granted next (log entry 9). -/
def State.placeWords (s : State) (p : Port) (ws : List Word) : State :=
  { s.setPort p { s.port p with stream := ws ++ (s.port p).stream, rsp := [] } with
    rstN := true, events := .grant p :: s.events }

end Sys2Proof.Machine
end

