-- ==== Sys2Proof/Machine/Step.lean ====
section
/-! DEFINITION. The step function, and the placing of one command where the next step fetches. -/

namespace Sys2Proof.Machine

/-- One step of the FFTU and its surroundings: one whole command of one port, or one move of the host (20_memory.md R74, R78). -/
def step (s : State) : Host.Outcome State Fault Refusal := runNext s

/-- `s` with the command whose table bits are `w` written on the port its opcode is allowed on, out of reset, its earlier responses
taken and the port granted, so that the next step executes exactly that command (log entry 9). -/
def State.withFetchWord (s : State) (nbits w : Nat) : State :=
  s.placeWords (homePort ((tableWords nbits w).headD 0)) (tableWords nbits w)

end Sys2Proof.Machine
end

