-- ==== Sys2Proof/Machine/Assembler.lean ====
section
/-! DEFINITION. The assembler of 30_encoding.md sections 6 and 7: the written form of a command (R117, R118), the lines it refuses
(R119), and the expansion of the pseudo-instructions (R120 to R126). It is the host's tool, not the block's: no step calls it. What the
spec leaves open about lines is log entry 15. A line is a list of characters, so that it can be evaluated. -/

namespace Sys2Proof.Machine

/-- Why the assembler refuses a line (30_encoding.md R119); `badOperands` and `malformedWord` are lines that have not the written form
of R117, R118 (DESIGN CHOICE, log entry 15). -/
inductive AsmError where
  | unknownMnemonic | badSuffix | badOperands | operandTooLarge | offsetTooLarge | payloadCount | malformedWord
deriving DecidableEq, Repr

/-- What the assembler makes of a line. `commands`: the commands it writes, and the port they go to if the line settles it. `analysis`:
the sequence ANALYZE on a port, whose commands the host chooses as it goes, `analyzeAsk` and then `analyzeNext` (30_encoding.md R126).
`refusedLine`: no word is written (R119). -/
inductive Assembled where
  | commands (port : Option Port) (is : List Instr)
  | analysis (port : Port) (hop : BitVec 20) (useLatest : Bool)
  | refusedLine (e : AsmError)
deriving DecidableEq, Repr

/-! ### Characters and tokens -/

inductive Token where
  | word (cs : List Char) | comma | opening | closing
deriving DecidableEq, Repr

/-- A word read so far, as a token, in front of other tokens. -/
def flushWord (acc : List Char) (ts : List Token) : List Token :=
  if acc = [] then ts else .word acc.reverse :: ts

/-- A line as tokens; a semicolon starts a comment; 0x7B and 0x7D are the braces of a payload (30_encoding.md R117). -/
def tokens : List Char → List Char → List Token
  | [], acc => flushWord acc []
  | c :: cs, acc =>
    if c = ';' then flushWord acc []
    else if c = ' ' ∨ c = '\t' then flushWord acc (tokens cs [])
    else if c = ',' then flushWord acc (.comma :: tokens cs [])
    else if c = Char.ofNat 0x7B then flushWord acc (.opening :: tokens cs [])
    else if c = Char.ofNat 0x7D then flushWord acc (.closing :: tokens cs [])
    else tokens cs (c :: acc)

/-- A word cut at each occurrence of a character. -/
def splitAtChar (d : Char) : List Char → List Char → List (List Char)
  | [], acc => [acc.reverse]
  | c :: cs, acc => if c = d then acc.reverse :: splitAtChar d cs [] else splitAtChar d cs (c :: acc)

/-- The hexadecimal digits in both cases, each with its value. -/
def hexDigits : List (Char × Nat) := "0123456789ABCDEF".toList.zipIdx ++ "abcdef".toList.zipIdx 10

/-- The value of a hexadecimal digit, none for another character. -/
def hexDigit (ch : Char) : Option Nat := hexDigits.lookup ch

/-- A number in a base, most significant digit first. -/
def digits (base : Nat) : List Char → Nat → Option Nat
  | [], n => some n
  | ch :: rest, n =>
    match hexDigit ch with
    | some v => if v < base then digits base rest (base * n + v) else none
    | none => none

/-- A decimal or `0x` hexadecimal integer (30_encoding.md R117), with hexadecimal digits of either case and leading zeros accepted, `0X`
refused (DESIGN CHOICE, log entry 15). -/
def integer : List Char → Option Nat
  | [] => none
  | '0' :: 'x' :: c :: cs => digits 16 (c :: cs) 0
  | cs => digits 10 cs 0

/-- The binary32 encoding of ± num / 10^e, rounded to nearest, ties to even (30_encoding.md R117): the quotient in units of 2^-401
with a last bit for what is cut off. -/
def decimalWord (neg : Bool) (num e : Nat) : Word :=
  let scaled := num * 2 ^ 400
  fPack neg (roundMag (2 * (scaled / 10 ^ e) + (if scaled % 10 ^ e = 0 then 0 else 1)) 252)

/-- A decimal value: an optional minus sign, digits, and optionally a point and digits. R117 gives no grammar for it: a plus sign, an
exponent, and a point without digits on both sides are refused, and minus zero is -0.0 (DESIGN CHOICE, log entry 15). -/
def decimal (cs : List Char) : Option Word :=
  let neg := cs.head? = some '-'
  let body := if neg then cs.tail else cs
  match splitAtChar '.' body [] with
  | [whole] => if whole = [] then none else (digits 10 whole 0).map fun n => decimalWord neg n 0
  | [whole, frac] =>
    if whole = [] ∨ frac = [] then none
    else (digits 10 (whole ++ frac) 0).map fun n => decimalWord neg n frac.length
  | _ => none

/-- A payload word: an integer or `f:` and a decimal value (30_encoding.md R117). R117 does not bound the integer nor say whether it may be
negative: one from 0 to 2^32 - 1 is accepted, a minus sign is refused (DESIGN CHOICE, log entry 15). -/
def payloadWord : List Char → Option Word
  | 'f' :: ':' :: cs => decimal cs
  | cs => (integer cs).bind fun n => if n < 2 ^ 32 then some (BitVec.ofNat 32 n) else none

/-! ### The parts of a line -/

/-- Words separated by commas. -/
def commaList : List Token → Option (List (List Char))
  | [] => some []
  | [.word cs] => some [cs]
  | .word cs :: .comma :: t :: ts => (commaList (t :: ts)).map (cs :: ·)
  | _ => none

/-- The tokens before a payload and, between its braces, those of the payload. -/
def splitPayload : List Token → Option (List Token × Option (List Token))
  | [] => some ([], none)
  | .opening :: ts =>
    match ts.reverse with
    | .closing :: inner => some ([], some inner.reverse)
    | _ => none
  | t :: ts => (splitPayload ts).map fun r => (t :: r.1, r.2)

/-- The port a line names by `P0:`, `P1:` or `P2:` at the front of its first word, and what is left of that word (30_encoding.md R117).
The spec does not say whether a blank follows the colon: `P1:NOP` and `P1: NOP` are both accepted (DESIGN CHOICE, log entry 15). -/
def portPrefix : List Char → Option Port × List Char
  | 'P' :: '0' :: ':' :: cs => (some .p0, cs)
  | 'P' :: '1' :: ':' :: cs => (some .p1, cs)
  | 'P' :: '2' :: ':' :: cs => (some .p2, cs)
  | cs => (none, cs)

/-- The mnemonics of 30_encoding.md R107. -/
def Opcode.mnemonic : Opcode → String
  | .nop => "NOP" | .stat => "STAT" | .rbSetcap => "RB_SETCAP" | .rbPush => "RB_PUSH" | .rbPop => "RB_POP" | .rbPeek => "RB_PEEK"
  | .rbNum => "RB_NUM" | .rbRem => "RB_REM" | .rbSetnum => "RB_SETNUM" | .tbReset => "TB_RESET" | .tbStart => "TB_START"
  | .tbStop => "TB_STOP" | .tbLock => "TB_LOCK" | .tbUnlock => "TB_UNLOCK" | .tbRdout => "TB_RDOUT" | .fftCfg => "FFT_CFG"
  | .fftFwd => "FFT_FWD" | .fftInv => "FFT_INV" | .scrWr => "SCR_WR" | .scrRd => "SCR_RD" | .slotRd => "SLOT_RD"

/-- The opcode of a mnemonic; FFT and IFFT are other names of FFT_FWD and FFT_INV (30_encoding.md R122). -/
def mnemonicOpcode (cs : List Char) : Option Opcode :=
  if cs = "FFT".toList then some .fftFwd
  else if cs = "IFFT".toList then some .fftInv
  else Opcode.all.find? fun op => Opcode.mnemonic op |>.toList |> (· == cs)

/-- A part suffix, none for `.re` (30_encoding.md R117). -/
def partSuffix (cs : List Char) : Option (BitVec 1) :=
  if cs = "re".toList then some 0 else if cs = "im".toList then some 1 else none

/-- A slot suffix `.s0`, `.s1` or `.s2` (30_encoding.md R117). -/
def slotSuffix (cs : List Char) : Option (BitVec 2) :=
  if cs = "s0".toList then some 0 else if cs = "s1".toList then some 1 else if cs = "s2".toList then some 2 else none

/-- The field F the suffixes of a mnemonic set (30_encoding.md R117, R118). SLOT_RD is written with its slot suffix and then its part suffix,
if any, as the table of R118 has them. R119 does not say what becomes of SLOT_RD without a slot suffix, of its suffixes in the other
order (`SLOT_RD.im.s2`), or of a suffix written twice: they are refused as `badSuffix` (DESIGN CHOICE, log entry 15). -/
def suffixF (op : Opcode) (suffixes : List (List Char)) : Option (BitVec 4) :=
  match op, suffixes with
  | .slotRd, [k] => (slotSuffix k).map fun b => 0#1 ++ b ++ 0#1
  | .slotRd, [k, part] => (slotSuffix k).bind fun b => (partSuffix part).map fun q => 0#1 ++ b ++ q
  | .slotRd, _ => none
  | _, [] => some 0
  | .rbSetnum, [x] => if x = "old".toList then some 1 else none
  | .fftFwd, [x] => if x = "direct".toList then some 1 else none
  | .fftInv, [x] => if x = "direct".toList then some 1 else none
  | .tbRdout, [x] => (partSuffix x).map fun q => 0#3 ++ q
  | _, _ => none

/-- A list of optional values as an optional list. -/
def allSome {α : Type} : List (Option α) → Option (List α)
  | [] => some []
  | none :: _ => none
  | some a :: xs => (allSome xs).map (a :: ·)

/-- A command from its opcode, field F, operands and payload (30_encoding.md R118), or the refusal of R119. -/
def assembleCommand (op : Opcode) (f : BitVec 4) (operands : List Nat) (payload : List Word) : Except AsmError Instr :=
  let hasA := !op.reservedA
  if operands.length ≠ (if hasA then 1 else 0) + (if op.hasB then 1 else 0) then .error .badOperands
  else
    let a := if hasA then operands.headD 0 else 0
    let b := if hasA then operands.tail.headD 0 else operands.headD 0
    if 2 ^ 20 ≤ a then .error .operandTooLarge
    else if op.hasB ∧ 2 ^ 32 ≤ b then .error .offsetTooLarge
    else if payload.length ≠ (if op.hasPayload then a else 0) then .error .payloadCount
    else .ok (op.build f (BitVec.ofNat 20 a) ((if op.hasB then [BitVec.ofNat 32 b] else []) ++ payload))

/-! ### Pseudo-instructions -/

/-- The pseudo-instructions of 30_encoding.md R120 to R126. -/
inductive Pseudo where
  | rbClear
  | rbKeepNewest (n : BitVec 20)
  | rbKeepOldest (n : BitVec 20)
  | dft
  | idft
  | tbClaim
  | tbPublish
  | tbAcquire
  | tbRelease
  | readFrame (n : BitVec 20)
  | frameRoundtrip
  | analyze (hop : BitVec 20) (useLatest : Bool)
deriving DecidableEq, Repr

/-- The port each pseudo-instruction is issued on (30_encoding.md R120 to R126). -/
def Pseudo.port : Pseudo → Port
  | .tbAcquire | .tbRelease | .readFrame _ => .p2
  | .rbClear | .rbKeepNewest _ | .rbKeepOldest _ | .dft | .idft | .tbClaim | .tbPublish | .frameRoundtrip | .analyze _ _ => .p1

/-- ANALYZE step 1: the host asks for the occupancy (30_encoding.md R126). -/
def analyzeAsk : List Instr := [.rbNum]

/-- ANALYZE steps 2 to 7 with N = FFTN = `n` (30_encoding.md R126). Step 5 is the host's window: it reads the frame with SCR_RD and
writes `windowed` back with SCR_WR. -/
def analyzeGo (n hop : BitVec 20) (useLatest : Bool) (windowed : List Word) : List Instr :=
  (if useLatest then [.rbSetnum .newest n] else []) ++
    [.tbStart, .rbPop hop 0, .rbPeek (n - hop) (hop.setWidth 32), .scrRd n 0, .scrWr 0 windowed, .fftFwd .iterative, .tbStop]

/-- ANALYZE: what the host sends after step 1 answered `value`, with N = FFTN = `n` and the windowed frame of step 5 (30_encoding.md R126):
nothing more if VALUE < N, else steps 2 to 7. None where R126 gives no sequence: hop > N, or a frame that is not of N words. -/
def analyzeNext (value : Word) (n hop : BitVec 20) (useLatest : Bool) (windowed : List Word) : Option (List Instr) :=
  if n < hop then none
  else if value.toNat < n.toNat then some []
  else if windowed.length = n.toNat then some (analyzeGo n hop useLatest windowed)
  else none

/-- What the assembler writes for a pseudo-instruction on a port (30_encoding.md R120 to R126). -/
def Pseudo.expand (port : Port) : Pseudo → Assembled
  | .rbClear => .commands (some port) [.rbSetnum .newest 0]
  | .rbKeepNewest n => .commands (some port) [.rbSetnum .newest n]
  | .rbKeepOldest n => .commands (some port) [.rbSetnum .oldest n]
  | .dft => .commands (some port) [.fftFwd .direct]
  | .idft => .commands (some port) [.fftInv .direct]
  | .tbClaim => .commands (some port) [.tbStart]
  | .tbPublish => .commands (some port) [.tbStop]
  | .tbAcquire => .commands (some port) [.tbLock]
  | .tbRelease => .commands (some port) [.tbUnlock]
  | .readFrame n => .commands (some port) [.tbLock, .tbRdout .re n 0, .tbRdout .im n 0, .tbUnlock]
  | .frameRoundtrip => .commands (some port) [.fftFwd .iterative, .fftInv .iterative]
  | .analyze hop useLatest => .analysis port hop useLatest

/-- A pseudo-instruction on a line that names a port or none: with no port it goes to the port of its rule. The spec does not say what a
line with another port means: the expansion goes to the port the line names, where the block treats it as any commands, with ERR_PORT where
R107 does not allow them (DESIGN CHOICE, log entry 15). -/
def assemblePseudo (port : Option Port) (p : Pseudo) : Assembled := p.expand (port.getD p.port)

/-- A count operand of 20 bits (30_encoding.md R119). -/
def countOperand (n : Nat) : Except AsmError (BitVec 20) :=
  if n < 2 ^ 20 then .ok (BitVec.ofNat 20 n) else .error .operandTooLarge

/-- A pseudo-instruction without operands. -/
def pseudoPlain (p : Pseudo) : List Nat → Except AsmError Pseudo
  | [] => .ok p
  | _ => .error .badOperands

/-- A pseudo-instruction with one count. -/
def pseudoCount (p : BitVec 20 → Pseudo) : List Nat → Except AsmError Pseudo
  | [n] => (countOperand n).map p
  | _ => .error .badOperands

/-- `ANALYZE hop, useLatest`; useLatest is written 0 or 1, which the spec leaves open (DESIGN CHOICE, log entry 15). -/
def pseudoAnalyze : List Nat → Except AsmError Pseudo
  | [hop, 0] => (countOperand hop).map fun h => .analyze h false
  | [hop, 1] => (countOperand hop).map fun h => .analyze h true
  | _ => .error .badOperands

/-- The pseudo-instruction a mnemonic names, from its operands: none for another mnemonic (30_encoding.md R120 to R126). -/
def pseudoOf (cs : List Char) : Option (List Nat → Except AsmError Pseudo) :=
  if cs = "RB_CLEAR".toList then some (pseudoPlain .rbClear)
  else if cs = "RB_KEEP_NEWEST".toList then some (pseudoCount .rbKeepNewest)
  else if cs = "RB_KEEP_OLDEST".toList then some (pseudoCount .rbKeepOldest)
  else if cs = "DFT".toList then some (pseudoPlain .dft)
  else if cs = "IDFT".toList then some (pseudoPlain .idft)
  else if cs = "TB_CLAIM".toList then some (pseudoPlain .tbClaim)
  else if cs = "TB_PUBLISH".toList then some (pseudoPlain .tbPublish)
  else if cs = "TB_ACQUIRE".toList then some (pseudoPlain .tbAcquire)
  else if cs = "TB_RELEASE".toList then some (pseudoPlain .tbRelease)
  else if cs = "READ_FRAME".toList then some (pseudoCount .readFrame)
  else if cs = "FRAME_ROUNDTRIP".toList then some (pseudoPlain .frameRoundtrip)
  else if cs = "ANALYZE".toList then some pseudoAnalyze
  else none

/-! ### A line -/

/-- A line without its port: mnemonic and suffixes, operands, payload. The spec does not say what empty braces mean where there is no
payload: on a command they are a payload of no words, so `NOP` takes them, and a pseudo-instruction takes no braces at all, so
`RB_CLEAR` refuses them (DESIGN CHOICE, log entry 15). -/
def assembleTokens (port : Option Port) (name : List Char) (ts : List Token) : Assembled :=
  match splitPayload ts with
  | none => .refusedLine .badOperands
  | some (front, back) =>
    match (commaList front).bind fun l => allSome (l.map integer), (commaList (back.getD [])).map fun l => allSome (l.map payloadWord) with
    | some operands, some (some payload) =>
      match splitAtChar '.' name [] with
      | [] => .refusedLine .unknownMnemonic
      | mn :: suffixes =>
        match mnemonicOpcode mn with
        | some op =>
          match suffixF op suffixes with
          | some f =>
            match assembleCommand op f operands payload with
            | .ok i => .commands port [i]
            | .error e => .refusedLine e
          | none => .refusedLine .badSuffix
        | none =>
          match pseudoOf mn with
          | some make =>
            if suffixes ≠ [] then .refusedLine .badSuffix
            else if back.isSome then .refusedLine .payloadCount
            else
              match make operands with
              | .ok p => assemblePseudo port p
              | .error e => .refusedLine e
          | none => .refusedLine .unknownMnemonic
    | some _, some none => .refusedLine .malformedWord
    | _, _ => .refusedLine .badOperands

/-- One line of assembly (30_encoding.md R117 to R126); an empty line or a comment, with or without a port, writes nothing
(DESIGN CHOICE, log entry 15). -/
def assembleLine (line : List Char) : Assembled :=
  match tokens line [] with
  | [] => .commands none []
  | .word cs :: ts =>
    match portPrefix cs, ts with
    | (port, []), [] => .commands port []
    | (port, []), .word name :: rest => assembleTokens port name rest
    | (_, []), _ => .refusedLine .unknownMnemonic
    | (port, c :: name), ts => assembleTokens port (c :: name) ts
  | _ => .refusedLine .unknownMnemonic

end Sys2Proof.Machine
end

