-- ==== Sys2Proof/Safety.lean ====
section
/-! DEFINITION. What claims about the machine are stated in: the registers as one record, the words of the memories, the response of a
command, the invariants of 10_state.md R46 and of the memories, the queue the ring holds, and the end of a run
(70_reset_and_hazards.md R338). -/

namespace Sys2Proof.Machine

/-- The six registers (10_state.md R38). -/
structure Regs where
  cap : BitVec 21
  ridx : BitVec 20
  widx : BitVec 20
  tin : BitVec 2
  tout : BitVec 2
  fftn : BitVec 20
deriving DecidableEq, Repr

/-- The registers of a state. -/
def State.regs (s : State) : Regs :=
  { cap := s.cap, ridx := s.ridx, widx := s.widx, tin := s.tin, tout := s.tout, fftn := s.fftn }

/-- The word a command has written at an index of a space, none if none has since block reset (10_state.md R42). -/
def State.word? (s : State) (sp : Space) (a : Nat) : Option Word := Memory.read? (s.mem sp) a

/-- `t` is `s` after the executing port has produced the response words `ws`, registers and memories aside: the other ports, the command
stream of the executing port, the words the host has taken, the grant, `rst_n`, the events to come, the index of the free values and
the parameters are unchanged. -/
structure Answers (s t : State) (ws : List Word) : Prop where
  executing : t.port s.granted = { s.port s.granted with rsp := (s.port s.granted).rsp ++ ws }
  others : ∀ q, q ≠ s.granted → t.port q = s.port q
  granted : t.granted = s.granted
  rstN : t.rstN = s.rstN
  events : t.events = s.events
  draws : t.draws = s.draws
  params : t.params = s.params

/-- No word of any memory is changed. -/
def SameWords (s t : State) : Prop := ∀ sp a, t.word? sp a = s.word? sp a

/-- No word of any memory is changed but those `P` names. -/
def SameWordsBut (P : Space → Nat → Prop) (s t : State) : Prop := ∀ sp a, ¬ P sp a → t.word? sp a = s.word? sp a

/-- A command that raised an error: the given STATUS word, VALUE 0, and no other effect (60_exceptions.md R291). -/
def Raised (status : Word) (s : State) (r : Result) : Prop :=
  ∃ t, r = .next t ∧ Answers s t [status, 0x00000000#32] ∧ t.regs = s.regs ∧ SameWords s t

/-! ### Invariants -/

/-- CAP is 0 or 2 ≤ CAP ≤ RB_DEPTH (10_state.md R46 item 1). -/
def State.CapLegal (s : State) : Prop := s.cap = 0 ∨ (2 ≤ s.cap.toNat ∧ s.cap.toNat ≤ s.params.rbDepth.toNat)

/-- RIDX and WIDX are below CAP while CAP ≥ 2 (10_state.md R46 item 2). -/
def State.CursorsLegal (s : State) : Prop := 2 ≤ s.cap.toNat → s.ridx.toNat < s.cap.toNat ∧ s.widx.toNat < s.cap.toNat

/-- TIN and TOUT are 0, 1 or 2 and differ (10_state.md R46 item 3). -/
def State.IndicesLegal (s : State) : Prop := s.tin ≠ 3 ∧ s.tout ≠ 3 ∧ s.tin ≠ s.tout

/-- FFTN is 0 or a power of two up to NMAX (10_state.md R46 item 4). -/
def State.SizeLegal (s : State) : Prop := s.fftn = 0 ∨ ∃ k, k ≤ s.params.log2Nmax.toNat ∧ s.fftn.toNat = 2 ^ k

/-- Every memory is in canonical form and lists no index outside its space (20_memory.md R70). -/
def State.MemoriesLegal (s : State) : Prop :=
  ∀ sp, Memory.wf (s.mem sp) = true ∧ Memory.within (spaceSize s.params sp) (s.mem sp) = true

/-- While `rst_n` is low every port is as block reset leaves it (70_reset_and_hazards.md R320). -/
def State.ResetQuiet (s : State) : Prop := s.rstN = false → ∀ p, s.port p = PortState.reset

/-- The invariant of every reachable state (10_state.md R46, 20_memory.md R70, 70_reset_and_hazards.md R320). -/
structure State.Inv (s : State) : Prop where
  params : s.params.legal = true
  cap : s.CapLegal
  cursors : s.CursorsLegal
  indices : s.IndicesLegal
  size : s.SizeLegal
  memories : s.MemoriesLegal
  quiet : s.ResetQuiet

/-- The words the ring holds, oldest first, each as what is written in its slot (40_ring_buffer.md R142). -/
def State.queue (s : State) : List (Option Word) :=
  (List.range s.num).map fun i => s.word? .ring (s.oldestIndex i)

/-- Every stored ring word has been written (40_ring_buffer.md R147, R154; 93_implementation_defined.md I16). -/
def State.QueueWritten (s : State) : Prop := s.cap ≠ 0 → ∀ w ∈ s.queue, w ≠ none

/-! ### Runs -/

/-- The event the next step makes is one that keeps the block out of reset. -/
def State.noReset (s : State) : Prop := s.events.head? ≠ some .resetLow ∧ s.events.head? ≠ some .resetHigh

/-- A port with nothing left to do: every word taken and every response word taken by the host (70_reset_and_hazards.md R338). -/
def State.portDone (s : State) (p : Port) : Prop := (s.port p).stream = [] ∧ (s.port p).rsp = []

/-- The run has ended: nothing left on any port and no move of the host to come (70_reset_and_hazards.md R338). R338 says nothing of a host
that asserts `rst_n` during the run: this predicate does not look at `rst_n` or at resets that have happened, so such a run ends too,
with the words a reset discarded counted as done (DESIGN CHOICE, log entry 14). -/
def State.finished (s : State) : Prop := s.events = [] ∧ ∀ p, s.portDone p

/-- A stuck port: a command whose last words the host never writes, or responses it never takes
(70_reset_and_hazards.md R335, R336). -/
def State.portStuck (s : State) (p : Port) : Prop :=
  s.events = [] ∧ ¬ s.portDone p ∧ ((s.port p).rsp ≠ [] ∨ s.fetch p = .incomplete)

/-- The observation at the end of a run (70_reset_and_hazards.md R338): the registers, the memories and the three response sequences, since
the last block reset if the host made one (DESIGN CHOICE, log entries 13 and 14). -/
structure Observation where
  regs : Regs
  mems : List Memory
  responses : List (List Word)
deriving DecidableEq, Repr

def State.observe (s : State) : Observation :=
  { regs := s.regs
    mems := [s.ring, s.scr, s.slot0re, s.slot0im, s.slot1re, s.slot1im, s.slot2re, s.slot2im]
    responses := [s.p0.got, s.p1.got, s.p2.got] }

end Sys2Proof.Machine
end

