-- ==== Sys2Proof/Certificates/Slice0/Obligations.lean ====
section
/-! DEFINITION. The statements about the FFTU model, one per obligation, from the numbered rules of the spec. `s` is the state a command
executes in: `s.granted` is the port it was issued on. -/

open Sys2Proof Sys2Proof.Machine

/-! ### Encoding -/

/-- 30_encoding.md R102 to R106, R108, R118: decoding the words of any well-formed command, whatever follows them in the stream, gives
the command back with its number of words. -/
def Obligations.DecodeInvertsEncode : Prop :=
  ∀ (i : Instr) (rest : List Word), i.wellFormed = true →
    decode (encode i ++ rest) = .command i (encode i).length

/-- 30_encoding.md R106, R116: a stream that decodes to a command begins with exactly the words of that command, their number is the one
the header gives, and the command is well-formed: each word has one meaning. -/
def Obligations.DecodedWordsAreTheEncoding : Prop :=
  ∀ (ws : List Word) (i : Instr) (n : Nat), decode ws = .command i n →
    i.wellFormed = true ∧ ws.take n = encode i ∧ n = (encode i).length ∧ n = commandLength (ws.headD 0)

/-- Sanity: some header words written out from 30_encoding.md R118 decode to what they stand for. -/
def Obligations.SpecWordsDecode : Prop :=
  decode [0x01000003#32] = .command (.stat 3) 1 ∧
  decode [0x11000002#32, 0xA0#32, 0xA1#32] = .command (.rbPush [0xA0, 0xA1]) 3 ∧
  decode [0x16100001#32] = .command (.rbSetnum .oldest 1) 1 ∧
  decode [0x25100002#32, 0#32] = .command (.tbRdout .im 2 0) 2 ∧
  decode [0x31100000#32] = .command (.fftFwd .direct) 1 ∧
  decode [0x3A500001#32, 0xFFF#32] = .command (.slotRd 2 .im 1 0xFFF) 2

/-- 30_encoding.md R113: exactly the listed ranges of OPC are reserved; a header with a reserved OPC takes one word and is answered
ERR_ILLEGAL with the header as VALUE, on any port and in any state, without any other effect. -/
def Obligations.ReservedOpcodeTakesOneWord : Prop :=
  ∀ (h : Word),
    (Opcode.ofCode (headerOpc h) = none ↔
      ((0x02 ≤ (headerOpc h).toNat ∧ (headerOpc h).toNat ≤ 0x0F) ∨ (0x17 ≤ (headerOpc h).toNat ∧ (headerOpc h).toNat ≤ 0x1F) ∨
        (0x26 ≤ (headerOpc h).toNat ∧ (headerOpc h).toNat ≤ 0x2F) ∨ (0x33 ≤ (headerOpc h).toNat ∧ (headerOpc h).toNat ≤ 0x37) ∨
        0x3B ≤ (headerOpc h).toNat)) ∧
    (Opcode.ofCode (headerOpc h) = none → ∀ (s : State) (p : Port) (rest : List Word),
      s.rstN = true → (s.port p).rsp = [] → (s.port p).stream = h :: rest →
        ∃ t, runPort p s = .next t ∧
          t.port p = { s.port p with
            pos := (s.port p).pos + 1, stream := rest, rsp := [(headerOpc h) ++ 0#16 ++ 1#8, h] } ∧
          (∀ q, q ≠ p → t.port q = s.port q) ∧ t.regs = s.regs ∧ SameWords s t)

/-- 30_encoding.md R114: a listed OPC with a reserved F bit or a reserved A that is not 0 takes the command's full length and is answered
ERR_ILLEGAL with the header as VALUE, without any other effect. -/
def Obligations.ReservedFieldTakesWholeCommand : Prop :=
  ∀ (s : State) (p : Port) (h : Word) (body : List Word) (op : Opcode),
    s.rstN = true → (s.port p).rsp = [] → (s.port p).stream = h :: body →
    Opcode.ofCode (headerOpc h) = some op → op.bodyLength (headerA h) ≤ body.length →
    (headerF h &&& ~~~ op.usedF ≠ 0 ∨ (op.reservedA = true ∧ headerA h ≠ 0)) →
      ∃ t, runPort p s = .next t ∧
        t.port p = { s.port p with
          pos := (s.port p).pos + commandLength h, stream := (h :: body).drop (commandLength h),
          rsp := [(headerOpc h) ++ 0#16 ++ 1#8, h] } ∧
        (∀ q, q ≠ p → t.port q = s.port q) ∧ t.regs = s.regs ∧ SameWords s t

/-! ### Steps, streams and responses -/

/-- 20_memory.md R74, R78: when the next event grants a port that is out of reset with its responses taken and whose stream decodes to a
command, the step is `exec` of that command in the state in which the port has taken the command's words, its position has advanced
by as many, the port is the executing port and the free values have a new index; the same when the block grants the port of its own
accord. The event list and the index of the free values are the model's (log entries 8 and 3). -/
def Obligations.StepRunsTheDecodedCommand : Prop :=
  ∀ (s : State) (p : Port) (i : Instr) (n : Nat),
    s.rstN = true → (s.port p).rsp = [] → decode (s.port p).stream = .command i n →
    (∀ rest, s.events = .grant p :: rest →
      step s = exec i (({ s with events := rest, granted := p, draws := s.draws + 1 } : State).setPort p
        { s.port p with pos := (s.port p).pos + n, stream := (s.port p).stream.drop n })) ∧
    (s.events = [] → s.arbiter = some p →
      step s = exec i (({ s with granted := p, draws := s.draws + 1 } : State).setPort p
        { s.port p with pos := (s.port p).pos + n, stream := (s.port p).stream.drop n }))

/-- 70_reset_and_hazards.md R335: a port waits until every word of its command has been written, and only so long: with its responses
taken and out of reset it is ready exactly when its stream holds a header and the words the header announces. The second clause is the
model's choice: a grant of a port that is not ready changes nothing (DESIGN CHOICE, log entry 8), so the words of an incomplete command,
its header among them, stay in the stream until the last has been written (DEDUCED, log entry 18). -/
def Obligations.PortWaitsForItsWords : Prop :=
  ∀ (s : State) (p : Port),
    (s.rstN = true → (s.port p).rsp = [] →
      (s.ready p = true ↔ ∃ h body, (s.port p).stream = h :: body ∧ commandLength h ≤ (h :: body).length)) ∧
    (s.ready p = false → runPort p s = .next s)

/-- 30_encoding.md R101, 70_reset_and_hazards.md R336: while response words of a port are not taken, no step takes a command word of that
port, unless the block is reset. -/
def Obligations.UntakenResponsesHoldThePort : Prop :=
  ∀ (s t : State) (p : Port), (s.port p).rsp ≠ [] → s.noReset → step s = .next t →
    (t.port p).pos = (s.port p).pos ∧ (s.port p).stream <+: (t.port p).stream

/-- 10_state.md R41, 60_exceptions.md R292: in every step but a reset, a port's position advances by exactly the number of words taken
from the front of its stream, which is 0 or the length its header gives; nothing is taken from the other ports; the words behind stay
in order, and nothing is added behind them but the word of a host write on that port out of reset, if the step makes one. -/
def Obligations.StreamsAreTakenInOrder : Prop :=
  ∀ (s t : State), s.noReset → step s = .next t → ∀ p,
    ∃ n, (t.port p).pos = (s.port p).pos + n ∧ n ≤ (s.port p).stream.length ∧
      (t.port p).stream = (s.port p).stream.drop n ++ (match s.events with
        | .write q w :: _ => if q = p ∧ s.rstN = true then [w] else []
        | _ => []) ∧
      (n = 0 ∨ (n = commandLength ((s.port p).stream.headD 0) ∧ t.granted = p))

/-- 30_encoding.md R101, 70_reset_and_hazards.md R339: a host write appends its word to the port's command stream, a host take moves the
oldest response word to what the host has taken; nothing else changes but the event used up. The event list and the record of what
the host has taken are the model's (log entries 8 and 13). -/
def Obligations.HostMovesAreStreamMoves : Prop :=
  ∀ (s : State) (p : Port) (rest : List Event),
    (∀ w, s.events = .write p w :: rest → s.rstN = true →
      step s = .next (({ s with events := rest } : State).setPort p { s.port p with stream := (s.port p).stream ++ [w] })) ∧
    (∀ r rs, s.events = .take p :: rest → (s.port p).rsp = r :: rs →
      step s = .next (({ s with events := rest } : State).setPort p { s.port p with rsp := rs, got := (s.port p).got ++ [r] })) ∧
    (s.events = .take p :: rest → (s.port p).rsp = [] → step s = .next { s with events := rest })

/-- 30_encoding.md R110, R111: a command produces its STATUS word (its OPC, sixteen zero bits, a code of at most 5), its VALUE word and,
if and only if it is TB_RDOUT, SCR_RD or SLOT_RD and its STATUS is OK, as many data words as it asks for; VALUE is 0 on an error; it
changes nothing of the ports but the response stream of the port that issued it. -/
def Obligations.ResponseLayout : Prop :=
  ∀ (i : Instr) (s t : State), exec i s = .next t →
    ∃ (code : BitVec 8) (value : Word) (data : List Word),
      Answers s t ((i.opcode.code ++ 0#16 ++ code) :: value :: data) ∧ code.toNat ≤ 5 ∧ code ≠ 1 ∧
      (code ≠ 0 → value = 0) ∧
      data.length = (match i with
        | .tbRdout _ count _ => if code = 0 then count.toNat else 0
        | .scrRd count _ => if code = 0 then count.toNat else 0
        | .slotRd _ _ count _ => if code = 0 then count.toNat else 0
        | _ => 0)

/-- 60_exceptions.md R291, R292: when a granted port answers with an error, no register and no memory word has changed; the port has
produced STATUS and VALUE and nothing else, and has taken exactly the words its header gives (one for an unlisted opcode), so that the
next word is the next header; the other ports are as they were. -/
def Obligations.ErrorsHaveNoEffect : Prop :=
  ∀ (s t : State) (p : Port) (h status value : Word) (body data : List Word),
    s.ready p = true → (s.port p).stream = h :: body → runPort p s = .next t → (t.port p).rsp = status :: value :: data →
    status.extractLsb' 0 8 ≠ 0 →
      t.regs = s.regs ∧ SameWords s t ∧
      t.port p = { s.port p with
        pos := (s.port p).pos + commandLength h, stream := (h :: body).drop (commandLength h), rsp := [status, value] } ∧
      (∀ q, q ≠ p → t.port q = s.port q)

/-- 20_memory.md R77, 30_encoding.md R107, 60_exceptions.md R293 item 3: a command on a port not in its list is answered ERR_PORT (code 2,
30_encoding.md R112), whatever the state and its operands, without effect. The lists are those of R107. -/
def Obligations.WrongPortIsRefused : Prop :=
  ∀ (i : Instr) (s : State),
    s.granted ∉ (match i with
      | .nop | .stat _ => [Port.p0, Port.p1, Port.p2]
      | .rbPush _ => [Port.p0]
      | .rbNum | .rbRem => [Port.p0, Port.p1]
      | .tbLock | .tbUnlock | .tbRdout _ _ _ => [Port.p2]
      | .rbSetcap _ | .rbPop _ _ | .rbPeek _ _ | .rbSetnum _ _ | .tbReset | .tbStart | .tbStop
      | .fftCfg _ | .fftFwd _ | .fftInv _ | .scrWr _ _ | .scrRd _ _ | .slotRd _ _ _ _ => [Port.p1]) →
    Raised (i.opcode.code ++ 0#16 ++ 2#8) s (exec i s)

/-- 40_ring_buffer.md R146, 60_exceptions.md R293 item 4: with CAP = 0 the ring commands other than RB_SETCAP raise ERR_UNCONFIG on their
ports, whatever their operands (before any range check), without effect; RB_SETCAP never does. The same with FFTN = 0 for the two
transforms on P1 in either mode (41_fft.md R191, R197). -/
def Obligations.UnconfiguredUnitsAreRefused : Prop :=
  ∀ (s : State),
    (s.cap = 0 →
      (s.granted = .p0 → ∀ data, Raised 0x11000003#32 s (exec (.rbPush data) s)) ∧
      (s.granted = .p1 → ∀ count off, Raised 0x12000003#32 s (exec (.rbPop count off) s)) ∧
      (s.granted = .p1 → ∀ count off, Raised 0x13000003#32 s (exec (.rbPeek count off) s)) ∧
      (s.granted = .p0 ∨ s.granted = .p1 → Raised 0x14000003#32 s (exec .rbNum s)) ∧
      (s.granted = .p0 ∨ s.granted = .p1 → Raised 0x15000003#32 s (exec .rbRem s)) ∧
      (s.granted = .p1 → ∀ retain n, Raised 0x16000003#32 s (exec (.rbSetnum retain n) s)) ∧
      (∀ n, ¬ Raised 0x10000003#32 s (exec (.rbSetcap n) s))) ∧
    (s.fftn = 0 → s.granted = .p1 →
      ∀ mode, Raised 0x31000003#32 s (exec (.fftFwd mode) s) ∧ Raised 0x32000003#32 s (exec (.fftInv mode) s))

/-- 60_exceptions.md R290, 30_encoding.md R104: a frame access whose offset and count, added as mathematical integers, pass NMAX raises
ERR_RANGE on its port (RB_POP and RB_PEEK once the ring is configured). -/
def Obligations.FrameRangeIsRefused : Prop :=
  ∀ (s : State) (count : BitVec 20) (off : Word),
    (s.params.nmax < off.toNat + count.toNat →
      (s.granted = .p1 → s.cap ≠ 0 → Raised 0x12000004#32 s (exec (.rbPop count off) s)) ∧
      (s.granted = .p1 → s.cap ≠ 0 → Raised 0x13000004#32 s (exec (.rbPeek count off) s)) ∧
      (s.granted = .p2 → ∀ part, Raised 0x25000004#32 s (exec (.tbRdout part count off) s)) ∧
      (s.granted = .p1 → Raised 0x39000004#32 s (exec (.scrRd count off) s)) ∧
      (s.granted = .p1 → ∀ slot part, Raised 0x3A000004#32 s (exec (.slotRd slot part count off) s))) ∧
    (∀ data : List Word, s.params.nmax < off.toNat + data.length → s.granted = .p1 →
      Raised 0x38000004#32 s (exec (.scrWr off data) s))

/-! ### Reset -/

/-- 70_reset_and_hazards.md R320, R322: either edge of `rst_n`, from any state, leaves the block in the reset state: the registers at
their reset values, the memories unwritten, every stream and position empty (whatever command or response was in progress is
abandoned), the parameters kept (10_state.md R45), `rst_n` at its new level. The event list is the model's (log entry 8); a falling
edge resets the block at once, between commands (DEDUCED, log entry 19). -/
def Obligations.BlockResetLeavesTheResetState : Prop :=
  ∀ (s : State) (rest : List Event) (level : Bool),
    s.events = (if level then Event.resetHigh else Event.resetLow) :: rest →
    ∃ t, step s = .next t ∧ t.rstN = level ∧ t.events = rest ∧ t.params = s.params ∧
      t.regs = { cap := 0, ridx := 0, widx := 0, tin := 1, tout := 0, fftn := 0 } ∧
      (∀ sp a, t.word? sp a = none) ∧
      (∀ p, (t.port p).stream = [] ∧ (t.port p).rsp = [] ∧ (t.port p).pos = 0)

/-- 70_reset_and_hazards.md R320, 30_encoding.md R100: while `rst_n` is low the block takes no command word and produces no response word,
and words the host writes are discarded: no port, register or memory changes in a step that does not move `rst_n`. -/
def Obligations.NothingMovesInReset : Prop :=
  ∀ (s t : State), s.rstN = false → s.ResetQuiet → s.noReset → step s = .next t →
    (∀ p, t.port p = s.port p) ∧ t.regs = s.regs ∧ SameWords s t ∧ t.rstN = false

/-! ### System and access commands -/

/-- 43_access_system.md R260: NOP on every port answers two zero words and changes no state. -/
def Obligations.NopOnlyAnswers : Prop :=
  ∀ s : State, ∃ t, exec .nop s = .next t ∧ Answers s t [0x00000000#32, 0x00000000#32] ∧ t.regs = s.regs ∧ SameWords s t

/-- 43_access_system.md R261: STAT on every port answers the register or parameter its selector names, zero-extended, and raises ERR_RANGE
for a selector above 7; it changes no state. -/
def Obligations.StatReadsTheSelectedRegister : Prop :=
  ∀ (s : State) (sel : BitVec 20),
    (∀ v : Nat, ([s.cap.toNat, s.ridx.toNat, s.widx.toNat, s.tin.toNat, s.tout.toNat, s.fftn.toNat, s.params.log2Nmax.toNat,
        s.params.rbDepth.toNat] : List Nat)[sel.toNat]? = some v →
      ∃ t, exec (.stat sel) s = .next t ∧ Answers s t [0x01000000#32, BitVec.ofNat 32 v] ∧ t.regs = s.regs ∧ SameWords s t) ∧
    (7 < sel.toNat → Raised 0x01000004#32 s (exec (.stat sel) s))

/-- 43_access_system.md R262: SCR_WR on P1 within NMAX stores its payload words unchanged at the offset and answers their number. -/
def Obligations.ScrWrStoresThePayload : Prop :=
  ∀ (s : State) (off : Word) (data : List Word), s.granted = .p1 → off.toNat + data.length ≤ s.params.nmax →
    ∃ t, exec (.scrWr off data) s = .next t ∧ Answers s t [0x38000000#32, BitVec.ofNat 32 data.length] ∧ t.regs = s.regs ∧
      (∀ i (h : i < data.length), t.word? .scr (off.toNat + i) = some data[i]) ∧
      SameWordsBut (fun sp a => sp = .scr ∧ off.toNat ≤ a ∧ a < off.toNat + data.length) s t

/-- 43_access_system.md R263, 10_state.md R42: SCR_RD on P1 within NMAX answers the words of SCR in increasing index order, a word no
command has written as a free value of its own (log entry 2); it changes no state. -/
def Obligations.ScrRdAnswersTheWords : Prop :=
  ∀ (s : State) (count : BitVec 20) (off : Word), s.granted = .p1 → off.toNat + count.toNat ≤ s.params.nmax →
    ∃ t, exec (.scrRd count off) s = .next t ∧
      Answers s t (0x39000000#32 :: count.setWidth 32 :: (List.range count.toNat).map fun i =>
        (s.word? .scr (off.toNat + i)).getD (Config.freeWord s.draws .scr (off.toNat + i))) ∧
      t.regs = s.regs ∧ SameWords s t

/-- 43_access_system.md R264, 10_state.md R42: SLOT_RD on P1 within NMAX answers the words of the slot and part it names, for slot numbers
0, 1 and 2, and raises ERR_RANGE for slot number 3; it changes no state. -/
def Obligations.SlotRdAnswersTheWords : Prop :=
  ∀ (s : State) (slot : BitVec 2) (part : Part) (count : BitVec 20) (off : Word),
    s.granted = .p1 → off.toNat + count.toNat ≤ s.params.nmax →
    (∀ k, (slot, k) ∈ [(0#2, Slot.s0), (1#2, Slot.s1), (2#2, Slot.s2)] →
      ∃ t, exec (.slotRd slot part count off) s = .next t ∧
        Answers s t (0x3A000000#32 :: count.setWidth 32 :: (List.range count.toNat).map fun i =>
          (s.word? (.slot k part) (off.toNat + i)).getD (Config.freeWord s.draws (.slot k part) (off.toNat + i))) ∧
        t.regs = s.regs ∧ SameWords s t) ∧
    (slot = 3 → Raised 0x3A000004#32 s (exec (.slotRd slot part count off) s))

/-! ### Ring buffer -/

/-- 40_ring_buffer.md R141: the occupancy and the free space, and their sum CAP - 1 in every state with CAP ≥ 2. -/
def Obligations.NumPlusRemIsCapMinusOne : Prop :=
  ∀ s : State, 2 ≤ s.cap.toNat →
    (s.num : Int) = ((s.widx.toNat : Int) - s.ridx.toNat - 1) % s.cap.toNat ∧
    (s.rem : Int) = ((s.ridx.toNat : Int) - s.widx.toNat) % s.cap.toNat ∧
    s.num + s.rem = s.cap.toNat - 1

/-- 40_ring_buffer.md R147: RB_SETCAP n on P1 with 1 ≤ n ≤ RB_DEPTH - 1, in any ring state, sets CAP = n + 1, RIDX = 0, WIDX = 1, answers
the new CAP and leaves an empty ring with room for n words; any other n raises ERR_RANGE. -/
def Obligations.RbSetcapEmptiesTheRing : Prop :=
  ∀ (s : State) (n : BitVec 20), s.granted = .p1 →
    (1 ≤ n.toNat ∧ n.toNat + 1 ≤ s.params.rbDepth.toNat →
      ∃ t, exec (.rbSetcap n) s = .next t ∧ Answers s t [0x10000000#32, BitVec.ofNat 32 (n.toNat + 1)] ∧
        t.regs = { s.regs with cap := BitVec.ofNat 21 (n.toNat + 1), ridx := 0, widx := 1 } ∧ SameWords s t ∧
        t.num = 0 ∧ t.rem = n.toNat) ∧
    (n.toNat = 0 ∨ s.params.rbDepth.toNat ≤ n.toNat → Raised 0x10000004#32 s (exec (.rbSetcap n) s))

/-- 40_ring_buffer.md R142, R143, R148: RB_PUSH on P0 with a configured ring stores the first min(count, Rem) payload words at the push
indices, advances WIDX by as many, discards the others, and answers Rem - count as a signed word. -/
def Obligations.RbPushStoresWhatFits : Prop :=
  ∀ (s : State) (data : List Word), s.granted = .p0 → s.cap ≠ 0 → s.CapLegal →
    ∃ t, exec (.rbPush data) s = .next t ∧
      Answers s t [0x11000000#32, BitVec.ofInt 32 ((s.rem : Int) - data.length)] ∧
      t.regs = { s.regs with widx := BitVec.ofNat 20 ((s.widx.toNat + min data.length s.rem) % s.cap.toNat) } ∧
      (∀ i (h : i < data.length), i < s.rem → t.word? .ring (s.pushIndex i) = some data[i]) ∧
      SameWordsBut (fun sp a => sp = .ring ∧ ∃ i, i < min data.length s.rem ∧ a = s.pushIndex i) s t

/-- 40_ring_buffer.md R142, R143, R149: RB_POP on P1 with a configured ring and a range within NMAX copies the min(count, Num) oldest words
to SCR from the offset on, advances RIDX by as many, and answers Num - count as a signed word. -/
def Obligations.RbPopTakesTheOldest : Prop :=
  ∀ (s : State) (count : BitVec 20) (off : Word), s.granted = .p1 → s.cap ≠ 0 → s.CapLegal →
    off.toNat + count.toNat ≤ s.params.nmax →
    ∃ t, exec (.rbPop count off) s = .next t ∧
      Answers s t [0x12000000#32, BitVec.ofInt 32 ((s.num : Int) - count.toNat)] ∧
      t.regs = { s.regs with ridx := BitVec.ofNat 20 ((s.ridx.toNat + min count.toNat s.num) % s.cap.toNat) } ∧
      (∀ i, i < min count.toNat s.num → t.word? .scr (off.toNat + i) = some (s.readWord .ring (s.oldestIndex i))) ∧
      SameWordsBut (fun sp a => sp = .scr ∧ off.toNat ≤ a ∧ a < off.toNat + min count.toNat s.num) s t

/-- 40_ring_buffer.md R142, R143, R150: RB_PEEK is RB_POP without the advance: no register changes. -/
def Obligations.RbPeekCopiesTheOldest : Prop :=
  ∀ (s : State) (count : BitVec 20) (off : Word), s.granted = .p1 → s.cap ≠ 0 → s.CapLegal →
    off.toNat + count.toNat ≤ s.params.nmax →
    ∃ t, exec (.rbPeek count off) s = .next t ∧
      Answers s t [0x13000000#32, BitVec.ofInt 32 ((s.num : Int) - count.toNat)] ∧ t.regs = s.regs ∧
      (∀ i, i < min count.toNat s.num → t.word? .scr (off.toNat + i) = some (s.readWord .ring (s.oldestIndex i))) ∧
      SameWordsBut (fun sp a => sp = .scr ∧ off.toNat ≤ a ∧ a < off.toNat + min count.toNat s.num) s t

/-- 40_ring_buffer.md R151, R152: RB_NUM and RB_REM on P0 or P1 with a configured ring answer Num and Rem and change no state. -/
def Obligations.RbNumAndRbRemAnswerTheCounts : Prop :=
  ∀ s : State, s.granted = .p0 ∨ s.granted = .p1 → s.cap ≠ 0 →
    (∃ t, exec .rbNum s = .next t ∧ Answers s t [0x14000000#32, BitVec.ofNat 32 s.num] ∧ t.regs = s.regs ∧ SameWords s t) ∧
    (∃ t, exec .rbRem s = .next t ∧ Answers s t [0x15000000#32, BitVec.ofNat 32 s.rem] ∧ t.regs = s.regs ∧ SameWords s t)

/-- 40_ring_buffer.md R153: RB_SETNUM on P1 with a configured ring answers min(n, Num) and leaves min(n, Num) words: it moves RIDX forward
(keep the newest) or WIDX back (keep the oldest) by Num - n slots if n < Num, and changes nothing otherwise. -/
def Obligations.RbSetnumTruncates : Prop :=
  ∀ (s : State) (retain : Retain) (n : BitVec 20), s.granted = .p1 → s.cap ≠ 0 → s.params.legal = true → s.CapLegal →
    s.CursorsLegal →
    ∃ t, exec (.rbSetnum retain n) s = .next t ∧
      Answers s t [0x16000000#32, BitVec.ofNat 32 (min n.toNat s.num)] ∧ SameWords s t ∧ t.num = min n.toNat s.num ∧
      t.regs = (if s.num ≤ n.toNat then s.regs else
        match retain with
        | .newest => { s.regs with ridx := BitVec.ofInt 20 (((s.ridx.toNat : Int) + (s.num - n.toNat)) % s.cap.toNat) }
        | .oldest => { s.regs with widx := BitVec.ofInt 20 (((s.widx.toNat : Int) - (s.num - n.toNat)) % s.cap.toNat) })

/-- 30_encoding.md R120: RB_CLEAR, that is RB_SETNUM 0, empties the ring by moving RIDX to (WIDX - 1) mod CAP. The rule names
P1; that the first clause gives the expansion on every port is the model's choice for a line that names another port (DESIGN CHOICE, log
entry 15). -/
def Obligations.RbClearMovesRidxBehindWidx : Prop :=
  (∀ port, Pseudo.expand port .rbClear = .commands (some port) [.rbSetnum .newest 0]) ∧ Pseudo.port .rbClear = .p1 ∧
  ∀ s : State, s.granted = .p1 → s.cap ≠ 0 → s.params.legal = true → s.CapLegal → s.CursorsLegal →
    ∃ t, exec (.rbSetnum .newest 0) s = .next t ∧ t.num = 0 ∧
      (t.ridx.toNat : Int) = ((s.widx.toNat : Int) - 1) % s.cap.toNat

/-- 40_ring_buffer.md R142, R154: the ring is a queue. With a configured ring in a legal state, RB_PUSH appends the payload words that fit
to the stored words, RB_POP removes the words it copies to SCR from the front, RB_PEEK, RB_NUM and RB_REM leave the stored words as they
are, RB_SETNUM keeps the newest or the oldest n, and RB_SETCAP leaves none. -/
def Obligations.RingRefinesAQueue : Prop :=
  ∀ (s t : State), s.cap ≠ 0 → s.params.legal = true → s.CapLegal → s.CursorsLegal →
    (∀ data, s.granted = .p0 → exec (.rbPush data) s = .next t → t.queue = s.queue ++ (data.take s.rem).map some) ∧
    (∀ count off, s.granted = .p1 → off.toNat + count.toNat ≤ s.params.nmax → exec (.rbPop count off) s = .next t →
      t.queue = s.queue.drop count.toNat) ∧
    (∀ count off, exec (.rbPeek count off) s = .next t → t.queue = s.queue) ∧
    (exec .rbNum s = .next t ∨ exec .rbRem s = .next t → t.queue = s.queue) ∧
    (∀ n, s.granted = .p1 → exec (.rbSetnum .newest n) s = .next t → t.queue = s.queue.drop (s.num - n.toNat)) ∧
    (∀ n, s.granted = .p1 → exec (.rbSetnum .oldest n) s = .next t → t.queue = s.queue.take n.toNat) ∧
    (∀ n, s.granted = .p1 → 1 ≤ n.toNat → n.toNat + 1 ≤ s.params.rbDepth.toNat → exec (.rbSetcap n) s = .next t → t.queue = [])

/-! ### Triple buffer -/

/-- 42_triple_buffer.md R231, R232, R236, R239: the advance function and its closed form, and the two rotations: TB_STOP on P1 moves TIN,
and TB_UNLOCK on P2 moves TOUT, to the slot that is neither TIN nor TOUT, 3 - TIN - TOUT, and answers it; nothing else changes. -/
def Obligations.RotationsTakeTheThirdSlot : Prop :=
  (∀ a b : BitVec 2, a ≠ 3 → b ≠ 3 →
    (nextSlot a b).toNat = (if (a.toNat + 1) % 3 ≠ b.toNat then (a.toNat + 1) % 3 else (a.toNat + 2) % 3) ∧
    (a ≠ b → (nextSlot a b).toNat = 3 - a.toNat - b.toNat)) ∧
  (∀ s : State, s.granted = .p1 → s.IndicesLegal →
    ∃ t, exec .tbStop s = .next t ∧
      Answers s t [0x22000000#32, BitVec.ofNat 32 (3 - s.tin.toNat - s.tout.toNat)] ∧
      t.regs = { s.regs with tin := BitVec.ofNat 2 (3 - s.tin.toNat - s.tout.toNat) } ∧ SameWords s t) ∧
  (∀ s : State, s.granted = .p2 → s.IndicesLegal →
    ∃ t, exec .tbUnlock s = .next t ∧
      Answers s t [0x24000000#32, BitVec.ofNat 32 (3 - s.tin.toNat - s.tout.toNat)] ∧
      t.regs = { s.regs with tout := BitVec.ofNat 2 (3 - s.tin.toNat - s.tout.toNat) } ∧ SameWords s t)

/-- 42_triple_buffer.md R235, R237: TB_START on P1 answers TIN and TB_LOCK on P2 answers TOUT; neither changes any state. -/
def Obligations.TbStartAndTbLockNameTheSlots : Prop :=
  ∀ s : State,
    (s.granted = .p1 →
      ∃ t, exec .tbStart s = .next t ∧ Answers s t [0x21000000#32, s.tin.setWidth 32] ∧ t.regs = s.regs ∧ SameWords s t) ∧
    (s.granted = .p2 →
      ∃ t, exec .tbLock s = .next t ∧ Answers s t [0x23000000#32, s.tout.setWidth 32] ∧ t.regs = s.regs ∧ SameWords s t)

/-- 42_triple_buffer.md R234: TB_RESET on P1 writes +0.0 to every word of every slot, sets TIN = 1 and TOUT = 0, and answers 0; RING and SCR
are unchanged. -/
def Obligations.TbResetClearsTheSlots : Prop :=
  ∀ s : State, s.granted = .p1 →
    ∃ t, exec .tbReset s = .next t ∧ Answers s t [0x20000000#32, 0x00000000#32] ∧
      t.regs = { s.regs with tin := 1, tout := 0 } ∧
      (∀ k part i, i < s.params.nmax → t.word? (.slot k part) i = some 0x00000000#32) ∧
      SameWordsBut (fun sp _ => ∃ k part, sp = .slot k part) s t

/-- 42_triple_buffer.md R240, 10_state.md R42: TB_RDOUT on P2 within NMAX answers the words of the part it names of slot TOUT; it changes no
state. -/
def Obligations.TbRdoutAnswersSlotTout : Prop :=
  ∀ (s : State) (part : Part) (count : BitVec 20) (off : Word) (k : Slot),
    s.granted = .p2 → off.toNat + count.toNat ≤ s.params.nmax →
    (s.tout, k) ∈ [(0#2, Slot.s0), (1#2, Slot.s1), (2#2, Slot.s2)] →
      ∃ t, exec (.tbRdout part count off) s = .next t ∧
        Answers s t (0x25000000#32 :: count.setWidth 32 :: (List.range count.toNat).map fun i =>
          (s.word? (.slot k part) (off.toNat + i)).getD (Config.freeWord s.draws (.slot k part) (off.toNat + i))) ∧
        t.regs = s.regs ∧ SameWords s t

/-- 42_triple_buffer.md R242: from a legal state, a TB_UNLOCK right after one or two TB_STOPs takes the slot the last TB_STOP published; a
second TB_UNLOCK with no TB_STOP between goes back to the slot the first released. -/
def Obligations.ConsumerTakesThePublishedSlot : Prop :=
  ∀ (s a b c d : State), s.IndicesLegal → s.granted = .p1 →
    exec .tbStop s = .next a →
    exec .tbStop a = .next b →
    (exec .tbUnlock { a with granted := .p2 } = .next c → c.tout = s.tin) ∧
    (exec .tbUnlock { b with granted := .p2 } = .next c → c.tout = a.tin) ∧
    (exec .tbUnlock { a with granted := .p2 } = .next c → exec .tbUnlock c = .next d → d.tout = s.tout)

/-- 42_triple_buffer.md R238: TIN ≠ TOUT, both 0, 1 or 2: it holds after reset and after TB_RESET, which sets 1 and 0, and every step of the
machine keeps it, whatever the other state; no command but TB_RESET, TB_STOP and TB_UNLOCK writes either index. -/
def Obligations.IndicesStayApart : Prop :=
  (∀ p, (State.resetOf p).IndicesLegal) ∧
  (∀ s t : State, s.IndicesLegal → step s = .next t → t.IndicesLegal) ∧
  (∀ s t : State, s.granted = .p1 → exec .tbReset s = .next t → t.tin = 1 ∧ t.tout = 0) ∧
  (∀ (i : Instr) (s t : State), exec i s = .next t → t.tin ≠ s.tin ∨ t.tout ≠ s.tout → i = .tbReset ∨ i = .tbStop ∨ i = .tbUnlock)

/-- 20_memory.md R86, 42_triple_buffer.md R243: no command but TB_RESET changes a word of slot TOUT, no command of P2 changes any slot word,
and only TB_UNLOCK and TB_RESET change TOUT, from every state with legal indices. -/
def Obligations.ConsumerSlotIsStable : Prop :=
  ∀ (i : Instr) (s t : State), s.IndicesLegal → exec i s = .next t → i ≠ .tbReset →
    (∀ k part a, (s.tout, k) ∈ [(0#2, Slot.s0), (1#2, Slot.s1), (2#2, Slot.s2)] →
      t.word? (.slot k part) a = s.word? (.slot k part) a) ∧
    (s.granted = .p2 → ∀ k part a, t.word? (.slot k part) a = s.word? (.slot k part) a) ∧
    (t.tout ≠ s.tout → i = .tbUnlock ∧ s.granted = .p2)

/-- 20_memory.md R86 item 3: the only slot words P2 can see are those of slot TOUT: in two states with the same registers, parameters,
port P2 and words of slot TOUT, and the same index of the free values, a command of P2 answers the same words and leaves the same
registers, whatever the other slots and memories hold. -/
def Obligations.ReaderSeesOnlySlotTout : Prop :=
  ∀ (i : Instr) (s s' t t' : State), s.granted = .p2 → s'.granted = .p2 → s.regs = s'.regs → s.params = s'.params →
    s.draws = s'.draws → s.p2 = s'.p2 →
    (∀ k part a, slotOf s.tout = some k → s.word? (.slot k part) a = s'.word? (.slot k part) a) →
    exec i s = .next t → exec i s' = .next t' → t.p2 = t'.p2 ∧ t.regs = t'.regs

/-! ### Who writes what -/

/-- 10_state.md R32 to R38: each register is written only by the commands named for it, on their ports. -/
def Obligations.RegistersHaveTheirWriters : Prop :=
  ∀ (i : Instr) (s t : State), exec i s = .next t →
    (t.cap ≠ s.cap → i.opcode = .rbSetcap ∧ s.granted = .p1) ∧
    (t.ridx ≠ s.ridx → (i.opcode = .rbPop ∨ i.opcode = .rbSetcap ∨ ∃ n, i = .rbSetnum .newest n) ∧ s.granted = .p1) ∧
    (t.widx ≠ s.widx → (i.opcode = .rbPush ∧ s.granted = .p0) ∨
      ((i.opcode = .rbSetcap ∨ ∃ n, i = .rbSetnum .oldest n) ∧ s.granted = .p1)) ∧
    (t.tin ≠ s.tin → (i = .tbStop ∨ i = .tbReset) ∧ s.granted = .p1) ∧
    (t.tout ≠ s.tout → (i = .tbUnlock ∧ s.granted = .p2) ∨ (i = .tbReset ∧ s.granted = .p1)) ∧
    (t.fftn ≠ s.fftn → i.opcode = .fftCfg ∧ s.granted = .p1)

/-- 20_memory.md R71, 10_state.md R39: each memory is written only by the commands named for it; FFT_FWD writes slot TIN only. -/
def Obligations.MemoriesHaveTheirWriters : Prop :=
  ∀ (i : Instr) (s t : State), exec i s = .next t →
    (∀ a, t.word? .ring a ≠ s.word? .ring a → i.opcode = .rbPush) ∧
    (∀ a, t.word? .scr a ≠ s.word? .scr a →
      i.opcode = .rbPop ∨ i.opcode = .rbPeek ∨ i.opcode = .scrWr ∨ i.opcode = .fftInv) ∧
    (∀ k part a, t.word? (.slot k part) a ≠ s.word? (.slot k part) a →
      i = .tbReset ∨ (i.opcode = .fftFwd ∧ (s.tin, k) ∈ [(0#2, Slot.s0), (1#2, Slot.s1), (2#2, Slot.s2)]))

/-! ### FFT unit -/

/-- 41_fft.md R190: FFT_CFG on P1 accepts every power of two up to NMAX, sets FFTN to it and answers it, and raises ERR_SIZE for every other
N. -/
def Obligations.FftCfgAcceptsPowersOfTwo : Prop :=
  ∀ (s : State) (n : BitVec 20), s.granted = .p1 →
    ((∃ k, k ≤ s.params.log2Nmax.toNat ∧ n.toNat = 2 ^ k) →
      ∃ t, exec (.fftCfg n) s = .next t ∧ Answers s t [0x30000000#32, n.setWidth 32] ∧
        t.regs = { s.regs with fftn := n } ∧ SameWords s t) ∧
    ((¬ ∃ k, k ≤ s.params.log2Nmax.toNat ∧ n.toNat = 2 ^ k) → Raised 0x30000005#32 s (exec (.fftCfg n) s))

/-- 41_fft.md R191, R201, 10_state.md R42: FFT_FWD on P1 with FFTN = 2^L and TIN legal transforms the words SCR[0..N-1], a word no command has
written being a free value, into slot TIN, and answers TIN; the words of the slot from N on, SCR and every other memory are unchanged. What the
transform computes is the statement ForwardTransformsFollowTheirRules. -/
def Obligations.FftFwdFillsSlotTin : Prop :=
  ∀ (s : State) (mode : Mode) (L : Nat) (k : Slot), s.granted = .p1 → s.fftn.toNat = 2 ^ L → L ≤ s.params.log2Nmax.toNat →
    (s.tin, k) ∈ [(0#2, Slot.s0), (1#2, Slot.s1), (2#2, Slot.s2)] →
    ∃ t y, exec (.fftFwd mode) s = .next t ∧
      y = forwardTransform s.nanSource s.params mode L ((List.range (2 ^ L)).map fun i =>
        (s.word? .scr i).getD (Config.freeWord s.draws .scr i)) ∧ y.length = 2 ^ L ∧
      Answers s t [0x31000000#32, s.tin.setWidth 32] ∧ t.regs = s.regs ∧
      (∀ i (h : i < y.length), t.word? (.slot k .re) i = some y[i].1 ∧ t.word? (.slot k .im) i = some y[i].2) ∧
      SameWordsBut (fun sp a => (sp = .slot k .re ∨ sp = .slot k .im) ∧ a < 2 ^ L) s t

/-- 41_fft.md R197, R201, 10_state.md R42: FFT_INV on P1 with FFTN = 2^L and TIN legal inverts the words 0..N-1 of slot TIN into SCR[0..N-1], and
answers TIN; the slot, SCR from N on and every other memory are unchanged. What the transform computes is the statement
InverseTransformsFollowTheirRules. -/
def Obligations.FftInvFillsScratch : Prop :=
  ∀ (s : State) (mode : Mode) (L : Nat) (k : Slot), s.granted = .p1 → s.fftn.toNat = 2 ^ L → L ≤ s.params.log2Nmax.toNat →
    (s.tin, k) ∈ [(0#2, Slot.s0), (1#2, Slot.s1), (2#2, Slot.s2)] →
    ∃ t y, exec (.fftInv mode) s = .next t ∧
      y = inverseTransform s.nanSource s.params mode L ((List.range (2 ^ L)).map fun i =>
        ((s.word? (.slot k .re) i).getD (Config.freeWord s.draws (.slot k .re) i),
         (s.word? (.slot k .im) i).getD (Config.freeWord s.draws (.slot k .im) i))) ∧ y.length = 2 ^ L ∧
      Answers s t [0x32000000#32, s.tin.setWidth 32] ∧ t.regs = s.regs ∧
      (∀ i (h : i < y.length), t.word? .scr i = some y[i]) ∧
      SameWordsBut (fun sp a => sp = .scr ∧ a < 2 ^ L) s t

/-- 00_scope.md R15: bit b of bitrev_L(i) is bit L - 1 - b of i, and bitrev_L is its own inverse below 2^L. -/
def Obligations.BitrevReversesTheBits : Prop :=
  ∀ (L i : Nat), i < 2 ^ L →
    bitrev L i < 2 ^ L ∧ (∀ b, b < L → (bitrev L i).testBit b = i.testBit (L - 1 - b)) ∧ bitrev L (bitrev L i) = i

/-- 41_fft.md R186: the permuted array holds x[i] at index bitrev_L(i), each word unchanged; for N = 1 the permutation is the identity. -/
def Obligations.PermuteIsBitReversal : Prop :=
  ∀ (L : Nat) (x : List Cx), x.length = 2 ^ L →
    (permute L x).length = 2 ^ L ∧ (∀ i, i < 2 ^ L → (permute L x)[bitrev L i]? = x[i]?) ∧ (L = 0 → permute L x = x)

/-- 41_fft.md R187, R188, R189, R194: stage s of the network, whose twiddles are w_0 = (1.0, +0.0), w_(j+1) = cmul(w_j, ω_M) with
ω_M = tw(NMAX / M), computes each word from the two words of its butterfly only: at an upper index k = g·M + j the sums, at the lower
index k + M/2 the differences, of u = a[k] and t = cmul(w_j, a[k + M/2]). Both products are written out. The first argument of each
operation is the word it delivers should its result be a NaN, by the place of the operation (DESIGN CHOICE, log entry 4). -/
def Obligations.StageIsButterfliesOnDisjointPairs : Prop :=
  ∀ (nu : NanSource) (p : Params) (L s : Nat) (a : List Cx) (w : Nat → Cx) (o : Cx),
    1 ≤ s → s ≤ L → a.length = 2 ^ L → o = tw p (p.nmax / 2 ^ s) →
    w 0 = (0x3F800000#32, 0x00000000#32) →
    (∀ j, w (j + 1) =
      (fsub (nu [4, j, s]) (fmul (nu [0, j, s]) (w j).1 o.1) (fmul (nu [1, j, s]) (w j).2 o.2),
       fadd (nu [5, j, s]) (fmul (nu [2, j, s]) (w j).1 o.2) (fmul (nu [3, j, s]) (w j).2 o.1))) →
    (networkStage nu p L s a).length = 2 ^ L ∧
    ∀ g j, j < 2 ^ (s - 1) → g < 2 ^ L / 2 ^ s → ∀ (k : Nat) (u z t : Cx), k = j + g * 2 ^ s →
      a[k]? = some u → a[k + 2 ^ (s - 1)]? = some z →
      t = (fsub (nu [4, k, j, s]) (fmul (nu [0, k, j, s]) (w j).1 z.1) (fmul (nu [1, k, j, s]) (w j).2 z.2),
           fadd (nu [5, k, j, s]) (fmul (nu [2, k, j, s]) (w j).1 z.2) (fmul (nu [3, k, j, s]) (w j).2 z.1)) →
      (networkStage nu p L s a)[k]? =
        some (fadd (nu [6, k, j, s]) u.1 t.1, fadd (nu [7, k, j, s]) u.2 t.2) ∧
      (networkStage nu p L s a)[k + 2 ^ (s - 1)]? =
        some (fsub (nu [8, k, j, s]) u.1 t.1, fsub (nu [9, k, j, s]) u.2 t.2)

/-- 41_fft.md R192, R193: the forward transforms of N = 2^L words. ITERATIVE: the words (x[i], +0.0) stored at index bitrev_L(i), then the
stages 1 to L of the network in this order. DIRECT: for each k the sums, from (+0.0, +0.0) on and in increasing n, of the products of
x[n] with the two parts of tw(((k·n) mod N)·(NMAX/N)). The first argument of each operation is its NaN word (DESIGN CHOICE, log
entry 4). -/
def Obligations.ForwardTransformsFollowTheirRules : Prop :=
  ∀ (nu : NanSource) (p : Params) (L : Nat) (x : List Word), x.length = 2 ^ L →
    (∀ a : Nat → List Cx, (a 0).length = 2 ^ L →
      (∀ i (h : i < x.length), (a 0)[bitrev L i]? = some (x[i], 0x00000000#32)) →
      (∀ s, s < L → a (s + 1) = networkStage nu p L (s + 1) (a s)) →
      forwardTransform nu p .iterative L x = a L) ∧
    (forwardTransform nu p .direct L x).length = 2 ^ L ∧
    (∀ k (acc : Nat → Cx), k < 2 ^ L → acc 0 = (0x00000000#32, 0x00000000#32) →
      (∀ n (h : n < x.length) (c : Cx), c = tw p ((k * n) % 2 ^ L * (p.nmax / 2 ^ L)) →
        acc (n + 1) = (fadd (nu [2, n, k]) (acc n).1 (fmul (nu [0, n, k]) x[n] c.1),
          fadd (nu [3, n, k]) (acc n).2 (fmul (nu [1, n, k]) x[n] c.2))) →
      (forwardTransform nu p .direct L x)[k]? = some (acc (2 ^ L)))

/-- 41_fft.md R198, R199: the inverse transforms of N = 2^L words. ITERATIVE: the words (Xr[i], fneg(Xi[i])) stored at index bitrev_L(i), the
stages 1 to L of the network in this order, then the real parts times 2^-L. DIRECT: for each n the sum, from +0.0 on and in increasing
k, of Xr[k]·c + Xi[k]·sn with (c, sn) = tw(((k·n) mod N)·(NMAX/N)), times 2^-L. fneg inverts bit 31; 2^-L is the word of exponent
127 - L. The first argument of each operation is its NaN word (DESIGN CHOICE, log entry 4). -/
def Obligations.InverseTransformsFollowTheirRules : Prop :=
  ∀ (nu : NanSource) (p : Params) (L : Nat) (x : List Cx) (scale : Word), x.length = 2 ^ L →
    scale = BitVec.ofNat 32 ((127 - L) * 2 ^ 23) →
    (∀ mode, (inverseTransform nu p mode L x).length = 2 ^ L) ∧
    (∀ a : Nat → List Cx, (a 0).length = 2 ^ L →
      (∀ i (h : i < x.length), (a 0)[bitrev L i]? = some (x[i].1, x[i].2 ^^^ 0x80000000#32)) →
      (∀ s, s < L → a (s + 1) = networkStage nu p L (s + 1) (a s)) →
      ∀ i (h : i < (a L).length), (inverseTransform nu p .iterative L x)[i]? = some (fmul (nu [i]) (a L)[i].1 scale)) ∧
    (∀ n (acc : Nat → Word), n < 2 ^ L → acc 0 = 0x00000000#32 →
      (∀ k (h : k < x.length) (c : Cx), c = tw p ((k * n) % 2 ^ L * (p.nmax / 2 ^ L)) →
        acc (k + 1) = fadd (nu [3, k, n]) (acc k)
          (fadd (nu [2, k, n]) (fmul (nu [0, k, n]) x[k].1 c.1) (fmul (nu [1, k, n]) x[k].2 c.2))) →
      (inverseTransform nu p .direct L x)[n]? = some (fmul (nu [n]) (acc (2 ^ L)) scale))

/-- 41_fft.md R195 items 1 and 2, R198, R199: the transforms of one word. Forward: ITERATIVE copies its bits; DIRECT turns -0.0 into +0.0,
keeps every other word that is no NaN, gives an imaginary part of +0.0 for a finite word, and NaN results where 41_fft.md R183 says.
Inverse: ITERATIVE keeps a real part that is no NaN; DIRECT, with a finite imaginary part, turns -0.0 into +0.0 and keeps every other
real part that is no NaN; a NaN real part, and in DIRECT mode an infinite or NaN imaginary part, gives the NaN of the last product. -/
def Obligations.OnePointTransforms : Prop :=
  (∀ (nu : NanSource) (p : Params) (x : Word), p.legal = true →
    forwardIterative nu p 0 [x] = [(x, 0x00000000#32)] ∧
    (isNaN x = false → ∃ im, forwardDirect nu p 0 [x] = [(if x = 0x80000000#32 then 0x00000000#32 else x, im)] ∧
      (isInf x = false → im = 0x00000000#32) ∧ (isInf x = true → isNaN (nu [1, 0, 0]) = true → im = nu [3, 0, 0])) ∧
    (isNaN x = true → isNaN (nu [0, 0, 0]) = true → isNaN (nu [1, 0, 0]) = true →
      forwardDirect nu p 0 [x] = [(nu [2, 0, 0], nu [3, 0, 0])])) ∧
  (∀ (nu : NanSource) (p : Params) (re im : Word), p.legal = true →
    (isNaN re = false → inverseIterative nu p 0 [(re, im)] = [re]) ∧
    (isNaN re = true → inverseIterative nu p 0 [(re, im)] = [nu [0]]) ∧
    (isNaN re = false → fExp im ≠ 255 →
      inverseDirect nu p 0 [(re, im)] = [if re = 0x80000000#32 then 0x00000000#32 else re]) ∧
    (isNaN re = true ∨ fExp im = 255 → (∀ site, isNaN (nu site) = true) → inverseDirect nu p 0 [(re, im)] = [nu [0]]))

/-! ### Arithmetic and tables -/

/-- 41_fft.md R181, 00_scope.md R14: the sum of two finite words is rounded once to nearest, ties to even: no finite word is nearer to the
exact sum, an equally near word of another value has an odd fraction beside the even one delivered, infinity is delivered exactly from
(2^24 - 1/2) · 2^104 on, with the sign of the sum. Values are integers in units of 2^-149. -/
def Obligations.FaddRoundsToNearestEven : Prop :=
  ∀ (nan a b : Word), fExp a ≠ 255 → fExp b ≠ 255 →
    isNaN (fadd nan a b) = false ∧
    (isInf (fadd nan a b) = true ↔ (2 ^ 25 - 1) * 2 ^ 252 ≤ (fInt a + fInt b).natAbs) ∧
    (isInf (fadd nan a b) = true → (fSign (fadd nan a b) = true ↔ fInt a + fInt b < 0)) ∧
    (isInf (fadd nan a b) = false → ∀ c : Word, fExp c ≠ 255 →
      (fInt (fadd nan a b) - (fInt a + fInt b)).natAbs ≤ (fInt c - (fInt a + fInt b)).natAbs ∧
      ((fInt (fadd nan a b) - (fInt a + fInt b)).natAbs = (fInt c - (fInt a + fInt b)).natAbs →
        fInt c ≠ fInt (fadd nan a b) → fFrac (fadd nan a b) % 2 = 0))

/-- 41_fft.md R181, 00_scope.md R14: the product of two finite words is rounded once to nearest, ties to even, subnormals included, with the
sign of the product, infinity from (2^24 - 1/2) · 2^104 on. The exact product is an integer in units of 2^-298. -/
def Obligations.FmulRoundsToNearestEven : Prop :=
  ∀ (nan a b : Word), fExp a ≠ 255 → fExp b ≠ 255 →
    isNaN (fmul nan a b) = false ∧ fSign (fmul nan a b) = (fSign a != fSign b) ∧
    (isInf (fmul nan a b) = true ↔ (2 ^ 25 - 1) * 2 ^ 252 * 2 ^ 149 ≤ (fInt a * fInt b).natAbs) ∧
    (isInf (fmul nan a b) = false → ∀ c : Word, fExp c ≠ 255 →
      (fInt (fmul nan a b) * 2 ^ 149 - fInt a * fInt b).natAbs ≤ (fInt c * 2 ^ 149 - fInt a * fInt b).natAbs ∧
      ((fInt (fmul nan a b) * 2 ^ 149 - fInt a * fInt b).natAbs = (fInt c * 2 ^ 149 - fInt a * fInt b).natAbs →
        fInt c ≠ fInt (fmul nan a b) → fFrac (fmul nan a b) % 2 = 0))

/-- 41_fft.md R181, R183: the NaN results: a NaN operand, ∞ - ∞ and 0 × ∞ deliver the NaN word, nothing else does (if that word is a NaN);
the canonical NaN with NAN_MODE = CANONICAL, some NaN with ANY. Infinities and zero sums as IEEE 754 has them. -/
def Obligations.SpecialValuesFollowIeee : Prop :=
  (∀ (nan a b : Word), isNaN nan = true →
    (isNaN (fadd nan a b) = true ↔
      (isNaN a = true ∨ isNaN b = true ∨ (isInf a = true ∧ isInf b = true ∧ fSign a ≠ fSign b))) ∧
    (isNaN (fmul nan a b) = true ↔
      (isNaN a = true ∨ isNaN b = true ∨ (isInf a = true ∧ fInt b = 0 ∧ fExp b ≠ 255) ∨ (fInt a = 0 ∧ fExp a ≠ 255 ∧ isInf b = true))) ∧
    (isNaN (fadd nan a b) = true → fadd nan a b = nan) ∧ (isNaN (fmul nan a b) = true → fmul nan a b = nan) ∧
    (isInf a = true → fExp b ≠ 255 → fadd nan a b = a) ∧ (fExp a ≠ 255 → isInf b = true → fadd nan a b = b) ∧
    (isInf a = true → isInf b = true → fSign a = fSign b → fadd nan a b = a) ∧
    (isInf a = true ∨ isInf b = true → isNaN (fmul nan a b) = false →
      fmul nan a b = (if fSign a = fSign b then 0x7F800000#32 else 0xFF800000#32))) ∧
  (∀ (nan a b : Word), fExp a ≠ 255 → fExp b ≠ 255 → fInt a + fInt b = 0 →
    fadd nan a b = (if fSign a = true ∧ fSign b = true then 0x80000000#32 else 0x00000000#32)) ∧
  (∀ (nan a b : Word), fsub nan a b = fadd nan a (b ^^^ 0x80000000#32)) ∧
  (∀ (s : State) (site : List Nat), isNaN (s.nanSource site) = true ∧
    (s.params.nanMode = .canonical → s.nanSource site = 0x7FC00000#32))

/-- 41_fft.md R184, R185: the quarter points of the twiddle tables of every legal size are exact, and so are the entries of every table at
the angles the next smaller one has: an entry depends on its angle only. The twiddle tw(m) is (ROMC[m], ROMS[m]) of the table of NMAX
words with TWIDDLE_SIGN = +1, and with -1 the same with the sign bit of ROMS[m] inverted. -/
def Obligations.RomEntriesDependOnTheAngle : Prop :=
  (∀ l, 12 ≤ l → l ≤ 19 →
    (romCosAt l 0, romSinAt l 0) = (0x3F800000#32, 0x00000000#32) ∧
    (romCosAt l (2 ^ l / 4), romSinAt l (2 ^ l / 4)) = (0x00000000#32, 0x3F800000#32) ∧
    (romCosAt l (2 ^ l / 2), romSinAt l (2 ^ l / 2)) = (0xBF800000#32, 0x00000000#32) ∧
    (romCosAt l (3 * (2 ^ l / 4)), romSinAt l (3 * (2 ^ l / 4))) = (0x00000000#32, 0xBF800000#32)) ∧
  (∀ l m, 2 ≤ l → romCosAt (l + 1) (2 * m) = romCosAt l m ∧ romSinAt (l + 1) (2 * m) = romSinAt l m) ∧
  (∀ (p : Params) (l m : Nat), p.nmax = 2 ^ l →
    (p.twiddleSign = .plus → tw p m = (romCosAt l m, romSinAt l m)) ∧
    (p.twiddleSign = .minus → tw p m = (romCosAt l m, romSinAt l m ^^^ 0x80000000#32)))

/-- 41_fft.md R184, at the reference NMAX = 4096: every entry of ROMC and ROMS is finite and no finite binary32 value is nearer to the cosine
or sine of 2πm/4096. Values are in units of 2^-149. -/
def Obligations.ReferenceRomIsCorrectlyRounded : Prop :=
  ∀ m : Nat, m < 4096 →
    fExp (romCosAt 12 m) ≠ 255 ∧ fExp (romSinAt 12 m) ≠ 255 ∧
    ∀ c : Word, fExp c ≠ 255 →
      |(fInt (romCosAt 12 m) : ℝ) / 2 ^ 149 - Real.cos (2 * Real.pi * m / 4096)| ≤
        |(fInt c : ℝ) / 2 ^ 149 - Real.cos (2 * Real.pi * m / 4096)| ∧
      |(fInt (romSinAt 12 m) : ℝ) / 2 ^ 149 - Real.sin (2 * Real.pi * m / 4096)| ≤
        |(fInt c : ℝ) / 2 ^ 149 - Real.sin (2 * Real.pi * m / 4096)|

/-! ### Whole machine -/

/-- 10_state.md R46, 70_reset_and_hazards.md R320: the invariant holds right after block reset, for every legal choice of parameters. -/
def Obligations.ResetMeetsTheInvariant : Prop :=
  ∀ p : Params, p.legal = true → (State.resetOf p).Inv

/-- 10_state.md R46, R32 to R37, 20_memory.md R70, 60_exceptions.md R295: from every state that meets the invariant the step answers a
next state, no fault and no refusal, and every next state it answers meets the invariant. -/
def Obligations.EveryStepKeepsTheInvariant : Prop :=
  ∀ s : State, s.Inv → (∃ t, step s = .next t) ∧ ∀ t, step s = .next t → t.Inv

/-- 40_ring_buffer.md R147, R154, 93_implementation_defined.md I16: that every word the ring holds has been written is kept by every step. -/
def Obligations.StoredRingWordsAreWritten : Prop :=
  ∀ s t : State, s.Inv → s.QueueWritten → step s = .next t → t.QueueWritten

/-- 20_memory.md R83, 70_reset_and_hazards.md R334: with no host move to come, every port that has a whole command written and its responses
taken has that command executed within three steps, whichever ports the block grants first (a step is a grant: log entries 6 and 8). -/
def Obligations.ReadyPortsAreServed : Prop :=
  ∀ (s : State) (p : Port), s.Inv → s.events = [] → s.ready p = true →
    ∃ k t, k ≤ 3 ∧ Sys2Proof.core.run k s = .next t ∧
      (t.port p).pos = (s.port p).pos + commandLength ((s.port p).stream.headD 0) ∧ 2 ≤ (t.port p).rsp.length

/-- 30_encoding.md R118, R119: from a mnemonic, its suffix bits F, its operands and its payload the assembler makes a command exactly when
they have the form of R118: an operand A below 2^20 unless A is reserved, then an operand B below 2^32 if the command has one, and as
many payload words as A says if it has a payload, none otherwise. R119 lists the bounds of A and B and the number of payload words among
the refusals; that another number of operands, or a payload of a command that has none, is refused too is the model's choice (DESIGN
CHOICE, log entry 15). That command is well-formed and of that mnemonic, and, with no
reserved bit in F, its words are the header of the opcode, F and A, then B, then the payload. -/
def Obligations.AssembledCommandsHaveTheirOperands : Prop :=
  ∀ (op : Opcode) (f : BitVec 4) (operands : List Nat) (payload : List Word),
    ((∃ i, assembleCommand op f operands payload = .ok i) ↔
      ∃ a b, operands = (if op.reservedA then [] else [a]) ++ (if op.hasB then [b] else []) ∧ a < 2 ^ 20 ∧ b < 2 ^ 32 ∧
        payload.length = (if op.hasPayload then a else 0)) ∧
    (∀ i a b, assembleCommand op f operands payload = .ok i →
      operands = (if op.reservedA then [] else [a]) ++ (if op.hasB then [b] else []) → (op.reservedA = true → a = 0) →
      i.wellFormed = true ∧ i.opcode = op ∧
      (f &&& ~~~ op.usedF = 0 →
        encode i = (op.code ++ f ++ BitVec.ofNat 20 a) :: (if op.hasB then [BitVec.ofNat 32 b] else []) ++ payload))
end

