-- ==== Sys2Proof/Laws/State.lean ====
section
/-! SUPPORT. One lemma per field per update of the state, so that no later proof unfolds a record update; what reading a memory space
or a port gives after an update; the registers after an update. -/

namespace Sys2Proof.Machine

/-! ### `State.setMem` -/

@[simp] theorem setMem_params (s : State) (sp : Space) (m : Memory) : (s.setMem sp m).params = s.params := by
  cases sp with
  | slot k part => cases k <;> cases part <;> rfl
  | _ => rfl
@[simp] theorem setMem_cap (s : State) (sp : Space) (m : Memory) : (s.setMem sp m).cap = s.cap := by
  cases sp with
  | slot k part => cases k <;> cases part <;> rfl
  | _ => rfl
@[simp] theorem setMem_ridx (s : State) (sp : Space) (m : Memory) : (s.setMem sp m).ridx = s.ridx := by
  cases sp with
  | slot k part => cases k <;> cases part <;> rfl
  | _ => rfl
@[simp] theorem setMem_widx (s : State) (sp : Space) (m : Memory) : (s.setMem sp m).widx = s.widx := by
  cases sp with
  | slot k part => cases k <;> cases part <;> rfl
  | _ => rfl
@[simp] theorem setMem_tin (s : State) (sp : Space) (m : Memory) : (s.setMem sp m).tin = s.tin := by
  cases sp with
  | slot k part => cases k <;> cases part <;> rfl
  | _ => rfl
@[simp] theorem setMem_tout (s : State) (sp : Space) (m : Memory) : (s.setMem sp m).tout = s.tout := by
  cases sp with
  | slot k part => cases k <;> cases part <;> rfl
  | _ => rfl
@[simp] theorem setMem_fftn (s : State) (sp : Space) (m : Memory) : (s.setMem sp m).fftn = s.fftn := by
  cases sp with
  | slot k part => cases k <;> cases part <;> rfl
  | _ => rfl
@[simp] theorem setMem_p0 (s : State) (sp : Space) (m : Memory) : (s.setMem sp m).p0 = s.p0 := by
  cases sp with
  | slot k part => cases k <;> cases part <;> rfl
  | _ => rfl
@[simp] theorem setMem_p1 (s : State) (sp : Space) (m : Memory) : (s.setMem sp m).p1 = s.p1 := by
  cases sp with
  | slot k part => cases k <;> cases part <;> rfl
  | _ => rfl
@[simp] theorem setMem_p2 (s : State) (sp : Space) (m : Memory) : (s.setMem sp m).p2 = s.p2 := by
  cases sp with
  | slot k part => cases k <;> cases part <;> rfl
  | _ => rfl
@[simp] theorem setMem_granted (s : State) (sp : Space) (m : Memory) : (s.setMem sp m).granted = s.granted := by
  cases sp with
  | slot k part => cases k <;> cases part <;> rfl
  | _ => rfl
@[simp] theorem setMem_rstN (s : State) (sp : Space) (m : Memory) : (s.setMem sp m).rstN = s.rstN := by
  cases sp with
  | slot k part => cases k <;> cases part <;> rfl
  | _ => rfl
@[simp] theorem setMem_events (s : State) (sp : Space) (m : Memory) : (s.setMem sp m).events = s.events := by
  cases sp with
  | slot k part => cases k <;> cases part <;> rfl
  | _ => rfl
@[simp] theorem setMem_draws (s : State) (sp : Space) (m : Memory) : (s.setMem sp m).draws = s.draws := by
  cases sp with
  | slot k part => cases k <;> cases part <;> rfl
  | _ => rfl
@[simp] theorem setMem_regs (s : State) (sp : Space) (m : Memory) : (s.setMem sp m).regs = s.regs := by simp [State.regs]
@[simp] theorem setMem_port (s : State) (sp : Space) (m : Memory) (p : Port) : (s.setMem sp m).port p = s.port p := by
  cases p <;> simp [State.port]
@[simp] theorem setMem_mem_same (s : State) (sp : Space) (m : Memory) : (s.setMem sp m).mem sp = m := by
  cases sp with
  | slot k part => cases k <;> cases part <;> rfl
  | _ => rfl
theorem setMem_mem (s : State) (sp sq : Space) (m : Memory) : (s.setMem sp m).mem sq = if sq = sp then m else s.mem sq := by
  rcases sp with _ | _ | ⟨_ | _ | _, _ | _⟩ <;> rcases sq with _ | _ | ⟨_ | _ | _, _ | _⟩ <;> rfl
@[simp] theorem setMem_mem_other (s : State) {sp sq : Space} (m : Memory) (h : sq ≠ sp) : (s.setMem sp m).mem sq = s.mem sq := by
  rw [setMem_mem, if_neg h]

/-! ### `State.setPort` -/

@[simp] theorem setPort_params (s : State) (p : Port) (ps : PortState) : (s.setPort p ps).params = s.params := by cases p <;> rfl
@[simp] theorem setPort_cap (s : State) (p : Port) (ps : PortState) : (s.setPort p ps).cap = s.cap := by cases p <;> rfl
@[simp] theorem setPort_ridx (s : State) (p : Port) (ps : PortState) : (s.setPort p ps).ridx = s.ridx := by cases p <;> rfl
@[simp] theorem setPort_widx (s : State) (p : Port) (ps : PortState) : (s.setPort p ps).widx = s.widx := by cases p <;> rfl
@[simp] theorem setPort_tin (s : State) (p : Port) (ps : PortState) : (s.setPort p ps).tin = s.tin := by cases p <;> rfl
@[simp] theorem setPort_tout (s : State) (p : Port) (ps : PortState) : (s.setPort p ps).tout = s.tout := by cases p <;> rfl
@[simp] theorem setPort_fftn (s : State) (p : Port) (ps : PortState) : (s.setPort p ps).fftn = s.fftn := by cases p <;> rfl
@[simp] theorem setPort_ring (s : State) (p : Port) (ps : PortState) : (s.setPort p ps).ring = s.ring := by cases p <;> rfl
@[simp] theorem setPort_scr (s : State) (p : Port) (ps : PortState) : (s.setPort p ps).scr = s.scr := by cases p <;> rfl
@[simp] theorem setPort_slot0re (s : State) (p : Port) (ps : PortState) : (s.setPort p ps).slot0re = s.slot0re := by cases p <;> rfl
@[simp] theorem setPort_slot0im (s : State) (p : Port) (ps : PortState) : (s.setPort p ps).slot0im = s.slot0im := by cases p <;> rfl
@[simp] theorem setPort_slot1re (s : State) (p : Port) (ps : PortState) : (s.setPort p ps).slot1re = s.slot1re := by cases p <;> rfl
@[simp] theorem setPort_slot1im (s : State) (p : Port) (ps : PortState) : (s.setPort p ps).slot1im = s.slot1im := by cases p <;> rfl
@[simp] theorem setPort_slot2re (s : State) (p : Port) (ps : PortState) : (s.setPort p ps).slot2re = s.slot2re := by cases p <;> rfl
@[simp] theorem setPort_slot2im (s : State) (p : Port) (ps : PortState) : (s.setPort p ps).slot2im = s.slot2im := by cases p <;> rfl
@[simp] theorem setPort_granted (s : State) (p : Port) (ps : PortState) : (s.setPort p ps).granted = s.granted := by cases p <;> rfl
@[simp] theorem setPort_rstN (s : State) (p : Port) (ps : PortState) : (s.setPort p ps).rstN = s.rstN := by cases p <;> rfl
@[simp] theorem setPort_events (s : State) (p : Port) (ps : PortState) : (s.setPort p ps).events = s.events := by cases p <;> rfl
@[simp] theorem setPort_draws (s : State) (p : Port) (ps : PortState) : (s.setPort p ps).draws = s.draws := by cases p <;> rfl
@[simp] theorem setPort_regs (s : State) (p : Port) (ps : PortState) : (s.setPort p ps).regs = s.regs := by simp [State.regs]
@[simp] theorem setPort_mem (s : State) (p : Port) (ps : PortState) (sp : Space) : (s.setPort p ps).mem sp = s.mem sp := by
  cases p <;> rcases sp with _ | _ | ⟨_ | _ | _, _ | _⟩ <;> rfl
@[simp] theorem setPort_port_same (s : State) (p : Port) (ps : PortState) : (s.setPort p ps).port p = ps := by cases p <;> rfl
theorem setPort_port (s : State) (p q : Port) (ps : PortState) : (s.setPort p ps).port q = if q = p then ps else s.port q := by
  cases p <;> cases q <;> rfl
@[simp] theorem setPort_port_other (s : State) {p q : Port} (ps : PortState) (h : q ≠ p) : (s.setPort p ps).port q = s.port q := by
  rw [setPort_port, if_neg h]

/-! ### `State.respond`, `reply`, `raise`, `raiseIllegal` -/

@[simp] theorem respond_params (s : State) (ws : List Word) : (s.respond ws).params = s.params := by simp [State.respond]
@[simp] theorem respond_cap (s : State) (ws : List Word) : (s.respond ws).cap = s.cap := by simp [State.respond]
@[simp] theorem respond_ridx (s : State) (ws : List Word) : (s.respond ws).ridx = s.ridx := by simp [State.respond]
@[simp] theorem respond_widx (s : State) (ws : List Word) : (s.respond ws).widx = s.widx := by simp [State.respond]
@[simp] theorem respond_tin (s : State) (ws : List Word) : (s.respond ws).tin = s.tin := by simp [State.respond]
@[simp] theorem respond_tout (s : State) (ws : List Word) : (s.respond ws).tout = s.tout := by simp [State.respond]
@[simp] theorem respond_fftn (s : State) (ws : List Word) : (s.respond ws).fftn = s.fftn := by simp [State.respond]
@[simp] theorem respond_ring (s : State) (ws : List Word) : (s.respond ws).ring = s.ring := by simp [State.respond]
@[simp] theorem respond_scr (s : State) (ws : List Word) : (s.respond ws).scr = s.scr := by simp [State.respond]
@[simp] theorem respond_slot0re (s : State) (ws : List Word) : (s.respond ws).slot0re = s.slot0re := by simp [State.respond]
@[simp] theorem respond_slot0im (s : State) (ws : List Word) : (s.respond ws).slot0im = s.slot0im := by simp [State.respond]
@[simp] theorem respond_slot1re (s : State) (ws : List Word) : (s.respond ws).slot1re = s.slot1re := by simp [State.respond]
@[simp] theorem respond_slot1im (s : State) (ws : List Word) : (s.respond ws).slot1im = s.slot1im := by simp [State.respond]
@[simp] theorem respond_slot2re (s : State) (ws : List Word) : (s.respond ws).slot2re = s.slot2re := by simp [State.respond]
@[simp] theorem respond_slot2im (s : State) (ws : List Word) : (s.respond ws).slot2im = s.slot2im := by simp [State.respond]
@[simp] theorem respond_granted (s : State) (ws : List Word) : (s.respond ws).granted = s.granted := by simp [State.respond]
@[simp] theorem respond_rstN (s : State) (ws : List Word) : (s.respond ws).rstN = s.rstN := by simp [State.respond]
@[simp] theorem respond_events (s : State) (ws : List Word) : (s.respond ws).events = s.events := by simp [State.respond]
@[simp] theorem respond_draws (s : State) (ws : List Word) : (s.respond ws).draws = s.draws := by simp [State.respond]
@[simp] theorem respond_regs (s : State) (ws : List Word) : (s.respond ws).regs = s.regs := by simp [State.respond]
@[simp] theorem respond_mem (s : State) (ws : List Word) (sp : Space) : (s.respond ws).mem sp = s.mem sp := by simp [State.respond]
@[simp] theorem respond_port_granted (s : State) (ws : List Word) :
    (s.respond ws).port s.granted = { s.port s.granted with rsp := (s.port s.granted).rsp ++ ws } := by simp [State.respond]
@[simp] theorem respond_port_other (s : State) (ws : List Word) {q : Port} (h : q ≠ s.granted) :
    (s.respond ws).port q = s.port q := by simp [State.respond, h]
/-- Everything `respond` can do. -/
theorem respond_answers (s : State) (ws : List Word) : Answers s (s.respond ws) ws :=
  ⟨by simp, fun q h => by simp [h], by simp, by simp, by simp, by simp, by simp⟩

/-! ### `State.consume` -/

@[simp] theorem consume_params (s : State) (p : Port) (n : Nat) : (s.consume p n).params = s.params := by simp [State.consume]
@[simp] theorem consume_cap (s : State) (p : Port) (n : Nat) : (s.consume p n).cap = s.cap := by simp [State.consume]
@[simp] theorem consume_ridx (s : State) (p : Port) (n : Nat) : (s.consume p n).ridx = s.ridx := by simp [State.consume]
@[simp] theorem consume_widx (s : State) (p : Port) (n : Nat) : (s.consume p n).widx = s.widx := by simp [State.consume]
@[simp] theorem consume_tin (s : State) (p : Port) (n : Nat) : (s.consume p n).tin = s.tin := by simp [State.consume]
@[simp] theorem consume_tout (s : State) (p : Port) (n : Nat) : (s.consume p n).tout = s.tout := by simp [State.consume]
@[simp] theorem consume_fftn (s : State) (p : Port) (n : Nat) : (s.consume p n).fftn = s.fftn := by simp [State.consume]
@[simp] theorem consume_ring (s : State) (p : Port) (n : Nat) : (s.consume p n).ring = s.ring := by simp [State.consume]
@[simp] theorem consume_scr (s : State) (p : Port) (n : Nat) : (s.consume p n).scr = s.scr := by simp [State.consume]
@[simp] theorem consume_slot0re (s : State) (p : Port) (n : Nat) : (s.consume p n).slot0re = s.slot0re := by simp [State.consume]
@[simp] theorem consume_slot0im (s : State) (p : Port) (n : Nat) : (s.consume p n).slot0im = s.slot0im := by simp [State.consume]
@[simp] theorem consume_slot1re (s : State) (p : Port) (n : Nat) : (s.consume p n).slot1re = s.slot1re := by simp [State.consume]
@[simp] theorem consume_slot1im (s : State) (p : Port) (n : Nat) : (s.consume p n).slot1im = s.slot1im := by simp [State.consume]
@[simp] theorem consume_slot2re (s : State) (p : Port) (n : Nat) : (s.consume p n).slot2re = s.slot2re := by simp [State.consume]
@[simp] theorem consume_slot2im (s : State) (p : Port) (n : Nat) : (s.consume p n).slot2im = s.slot2im := by simp [State.consume]
@[simp] theorem consume_rstN (s : State) (p : Port) (n : Nat) : (s.consume p n).rstN = s.rstN := by simp [State.consume]
@[simp] theorem consume_events (s : State) (p : Port) (n : Nat) : (s.consume p n).events = s.events := by simp [State.consume]
@[simp] theorem consume_granted (s : State) (p : Port) (n : Nat) : (s.consume p n).granted = p := rfl
@[simp] theorem consume_draws (s : State) (p : Port) (n : Nat) : (s.consume p n).draws = s.draws + 1 := rfl
@[simp] theorem consume_regs (s : State) (p : Port) (n : Nat) : (s.consume p n).regs = s.regs := by simp [State.regs]
@[simp] theorem consume_mem (s : State) (p : Port) (n : Nat) (sp : Space) : (s.consume p n).mem sp = s.mem sp := by
  cases p <;> rcases sp with _ | _ | ⟨_ | _ | _, _ | _⟩ <;> rfl
@[simp] theorem consume_port_same (s : State) (p : Port) (n : Nat) :
    (s.consume p n).port p = { s.port p with pos := (s.port p).pos + n, stream := (s.port p).stream.drop n } := by cases p <;> rfl
@[simp] theorem consume_port_other (s : State) {p q : Port} (n : Nat) (h : q ≠ p) : (s.consume p n).port q = s.port q := by
  cases p <;> cases q <;> first | rfl | exact absurd rfl h

/-! ### `State.writeWords` -/

@[simp] theorem writeWords_params (s : State) (sp : Space) (a : Nat) (ws : List Word) : (s.writeWords sp a ws).params = s.params := by simp [State.writeWords]
@[simp] theorem writeWords_cap (s : State) (sp : Space) (a : Nat) (ws : List Word) : (s.writeWords sp a ws).cap = s.cap := by simp [State.writeWords]
@[simp] theorem writeWords_ridx (s : State) (sp : Space) (a : Nat) (ws : List Word) : (s.writeWords sp a ws).ridx = s.ridx := by simp [State.writeWords]
@[simp] theorem writeWords_widx (s : State) (sp : Space) (a : Nat) (ws : List Word) : (s.writeWords sp a ws).widx = s.widx := by simp [State.writeWords]
@[simp] theorem writeWords_tin (s : State) (sp : Space) (a : Nat) (ws : List Word) : (s.writeWords sp a ws).tin = s.tin := by simp [State.writeWords]
@[simp] theorem writeWords_tout (s : State) (sp : Space) (a : Nat) (ws : List Word) : (s.writeWords sp a ws).tout = s.tout := by simp [State.writeWords]
@[simp] theorem writeWords_fftn (s : State) (sp : Space) (a : Nat) (ws : List Word) : (s.writeWords sp a ws).fftn = s.fftn := by simp [State.writeWords]
@[simp] theorem writeWords_p0 (s : State) (sp : Space) (a : Nat) (ws : List Word) : (s.writeWords sp a ws).p0 = s.p0 := by simp [State.writeWords]
@[simp] theorem writeWords_p1 (s : State) (sp : Space) (a : Nat) (ws : List Word) : (s.writeWords sp a ws).p1 = s.p1 := by simp [State.writeWords]
@[simp] theorem writeWords_p2 (s : State) (sp : Space) (a : Nat) (ws : List Word) : (s.writeWords sp a ws).p2 = s.p2 := by simp [State.writeWords]
@[simp] theorem writeWords_granted (s : State) (sp : Space) (a : Nat) (ws : List Word) : (s.writeWords sp a ws).granted = s.granted := by simp [State.writeWords]
@[simp] theorem writeWords_rstN (s : State) (sp : Space) (a : Nat) (ws : List Word) : (s.writeWords sp a ws).rstN = s.rstN := by simp [State.writeWords]
@[simp] theorem writeWords_events (s : State) (sp : Space) (a : Nat) (ws : List Word) : (s.writeWords sp a ws).events = s.events := by simp [State.writeWords]
@[simp] theorem writeWords_draws (s : State) (sp : Space) (a : Nat) (ws : List Word) : (s.writeWords sp a ws).draws = s.draws := by simp [State.writeWords]
@[simp] theorem writeWords_regs (s : State) (sp : Space) (a : Nat) (ws : List Word) : (s.writeWords sp a ws).regs = s.regs := by
  simp [State.writeWords]
@[simp] theorem writeWords_port (s : State) (sp : Space) (a : Nat) (ws : List Word) (p : Port) :
    (s.writeWords sp a ws).port p = s.port p := by simp [State.writeWords]
@[simp] theorem writeWords_mem_same (s : State) (sp : Space) (a : Nat) (ws : List Word) :
    (s.writeWords sp a ws).mem sp = Memory.writeWords (s.mem sp) a ws := by simp [State.writeWords]
@[simp] theorem writeWords_mem_other (s : State) {sp sq : Space} (a : Nat) (ws : List Word) (h : sq ≠ sp) :
    (s.writeWords sp a ws).mem sq = s.mem sq := by simp [State.writeWords, h]

/-! ### `State.advanceRidx` and `State.moveWidx` -/

@[simp] theorem advanceRidx_params (s : State) (k : Nat) : (s.advanceRidx k).params = s.params := rfl
@[simp] theorem advanceRidx_cap (s : State) (k : Nat) : (s.advanceRidx k).cap = s.cap := rfl
@[simp] theorem advanceRidx_widx (s : State) (k : Nat) : (s.advanceRidx k).widx = s.widx := rfl
@[simp] theorem advanceRidx_tin (s : State) (k : Nat) : (s.advanceRidx k).tin = s.tin := rfl
@[simp] theorem advanceRidx_tout (s : State) (k : Nat) : (s.advanceRidx k).tout = s.tout := rfl
@[simp] theorem advanceRidx_fftn (s : State) (k : Nat) : (s.advanceRidx k).fftn = s.fftn := rfl
@[simp] theorem advanceRidx_ring (s : State) (k : Nat) : (s.advanceRidx k).ring = s.ring := rfl
@[simp] theorem advanceRidx_scr (s : State) (k : Nat) : (s.advanceRidx k).scr = s.scr := rfl
@[simp] theorem advanceRidx_slot0re (s : State) (k : Nat) : (s.advanceRidx k).slot0re = s.slot0re := rfl
@[simp] theorem advanceRidx_slot0im (s : State) (k : Nat) : (s.advanceRidx k).slot0im = s.slot0im := rfl
@[simp] theorem advanceRidx_slot1re (s : State) (k : Nat) : (s.advanceRidx k).slot1re = s.slot1re := rfl
@[simp] theorem advanceRidx_slot1im (s : State) (k : Nat) : (s.advanceRidx k).slot1im = s.slot1im := rfl
@[simp] theorem advanceRidx_slot2re (s : State) (k : Nat) : (s.advanceRidx k).slot2re = s.slot2re := rfl
@[simp] theorem advanceRidx_slot2im (s : State) (k : Nat) : (s.advanceRidx k).slot2im = s.slot2im := rfl
@[simp] theorem advanceRidx_p0 (s : State) (k : Nat) : (s.advanceRidx k).p0 = s.p0 := rfl
@[simp] theorem advanceRidx_p1 (s : State) (k : Nat) : (s.advanceRidx k).p1 = s.p1 := rfl
@[simp] theorem advanceRidx_p2 (s : State) (k : Nat) : (s.advanceRidx k).p2 = s.p2 := rfl
@[simp] theorem advanceRidx_granted (s : State) (k : Nat) : (s.advanceRidx k).granted = s.granted := rfl
@[simp] theorem advanceRidx_rstN (s : State) (k : Nat) : (s.advanceRidx k).rstN = s.rstN := rfl
@[simp] theorem advanceRidx_events (s : State) (k : Nat) : (s.advanceRidx k).events = s.events := rfl
@[simp] theorem advanceRidx_draws (s : State) (k : Nat) : (s.advanceRidx k).draws = s.draws := rfl
@[simp] theorem advanceRidx_port (s : State) (k : Nat) (p : Port) : (s.advanceRidx k).port p = s.port p := by cases p <;> rfl
@[simp] theorem advanceRidx_mem (s : State) (k : Nat) (sp : Space) : (s.advanceRidx k).mem sp = s.mem sp := by
  rcases sp with _ | _ | ⟨_ | _ | _, _ | _⟩ <;> rfl
@[simp] theorem moveWidx_params (s : State) (d : Int) : (s.moveWidx d).params = s.params := rfl
@[simp] theorem moveWidx_cap (s : State) (d : Int) : (s.moveWidx d).cap = s.cap := rfl
@[simp] theorem moveWidx_ridx (s : State) (d : Int) : (s.moveWidx d).ridx = s.ridx := rfl
@[simp] theorem moveWidx_tin (s : State) (d : Int) : (s.moveWidx d).tin = s.tin := rfl
@[simp] theorem moveWidx_tout (s : State) (d : Int) : (s.moveWidx d).tout = s.tout := rfl
@[simp] theorem moveWidx_fftn (s : State) (d : Int) : (s.moveWidx d).fftn = s.fftn := rfl
@[simp] theorem moveWidx_ring (s : State) (d : Int) : (s.moveWidx d).ring = s.ring := rfl
@[simp] theorem moveWidx_scr (s : State) (d : Int) : (s.moveWidx d).scr = s.scr := rfl
@[simp] theorem moveWidx_slot0re (s : State) (d : Int) : (s.moveWidx d).slot0re = s.slot0re := rfl
@[simp] theorem moveWidx_slot0im (s : State) (d : Int) : (s.moveWidx d).slot0im = s.slot0im := rfl
@[simp] theorem moveWidx_slot1re (s : State) (d : Int) : (s.moveWidx d).slot1re = s.slot1re := rfl
@[simp] theorem moveWidx_slot1im (s : State) (d : Int) : (s.moveWidx d).slot1im = s.slot1im := rfl
@[simp] theorem moveWidx_slot2re (s : State) (d : Int) : (s.moveWidx d).slot2re = s.slot2re := rfl
@[simp] theorem moveWidx_slot2im (s : State) (d : Int) : (s.moveWidx d).slot2im = s.slot2im := rfl
@[simp] theorem moveWidx_p0 (s : State) (d : Int) : (s.moveWidx d).p0 = s.p0 := rfl
@[simp] theorem moveWidx_p1 (s : State) (d : Int) : (s.moveWidx d).p1 = s.p1 := rfl
@[simp] theorem moveWidx_p2 (s : State) (d : Int) : (s.moveWidx d).p2 = s.p2 := rfl
@[simp] theorem moveWidx_granted (s : State) (d : Int) : (s.moveWidx d).granted = s.granted := rfl
@[simp] theorem moveWidx_rstN (s : State) (d : Int) : (s.moveWidx d).rstN = s.rstN := rfl
@[simp] theorem moveWidx_events (s : State) (d : Int) : (s.moveWidx d).events = s.events := rfl
@[simp] theorem moveWidx_draws (s : State) (d : Int) : (s.moveWidx d).draws = s.draws := rfl
@[simp] theorem moveWidx_port (s : State) (d : Int) (p : Port) : (s.moveWidx d).port p = s.port p := by cases p <;> rfl
@[simp] theorem moveWidx_mem (s : State) (d : Int) (sp : Space) : (s.moveWidx d).mem sp = s.mem sp := by
  rcases sp with _ | _ | ⟨_ | _ | _, _ | _⟩ <;> rfl

end Sys2Proof.Machine
end

