-- ==== Sys2Proof/Laws/Memory.lean ====
section
/-! SUPPORT. The word memories: a read after a write, and that every memory operation keeps the canonical form and the bounds of the
space. -/

namespace Sys2Proof.Machine

@[simp] theorem read?_nil (a : Nat) : Memory.read? [] a = none := rfl

@[simp] theorem read?_write_same (m : Memory) (a : Nat) (v : Word) : Memory.read? (Memory.write m a v) a = some v := by
  induction m with
  | nil => simp [Memory.write, Memory.read?]
  | cons c m ih =>
    obtain ⟨b, w⟩ := c
    unfold Memory.write
    split
    · simp [Memory.read?]
    · split
      · simp [Memory.read?]
      · simp [Memory.read?, *]

@[simp] theorem read?_write_other (m : Memory) {a c : Nat} (v : Word) (h : c ≠ a) :
    Memory.read? (Memory.write m a v) c = Memory.read? m c := by
  induction m with
  | nil => simp [Memory.write, Memory.read?, h]
  | cons d m ih =>
    obtain ⟨b, w⟩ := d
    unfold Memory.write
    split
    · simp [Memory.read?, h]
    · split
      · next h' => subst h'; simp [Memory.read?, h]
      · simp [Memory.read?, ih]

/-- What a read gives after a write. -/
theorem read?_write (m : Memory) (a c : Nat) (v : Word) :
    Memory.read? (Memory.write m a v) c = if c = a then some v else Memory.read? m c := by
  split
  · next h => subst h; simp
  · next h => simp [h]

/-- A memory with a head in canonical form: the head lies below everything after it. -/
theorem wf_cons_iff (a : Nat) (w : Word) (m : Memory) :
    Memory.wf ((a, w) :: m) = true ↔ Memory.wf m = true ∧ ∀ c ∈ m, a < c.1 := by
  induction m generalizing a w with
  | nil => simp [Memory.wf]
  | cons d m ih =>
    obtain ⟨b, x⟩ := d
    rw [Memory.wf, Bool.and_eq_true, decide_eq_true_eq]
    constructor
    · rintro ⟨hab, hw⟩
      refine ⟨hw, fun c hc => ?_⟩
      rcases List.mem_cons.1 hc with rfl | hc
      · exact hab
      · exact Nat.lt_trans hab ((ih b x).1 hw |>.2 c hc)
    · rintro ⟨hw, h⟩
      exact ⟨h (b, x) (by simp), hw⟩

theorem mem_write {m : Memory} {a : Nat} {v : Word} {c : Nat × Word} (h : c ∈ Memory.write m a v) : c = (a, v) ∨ c ∈ m := by
  induction m with
  | nil => exact Or.inl (by simpa [Memory.write] using h)
  | cons d m ih =>
    obtain ⟨b, w⟩ := d
    unfold Memory.write at h
    split at h
    · simpa using h
    · split at h
      · rcases List.mem_cons.1 h with h | h
        · exact Or.inl h
        · exact Or.inr (List.mem_cons_of_mem _ h)
      · rcases List.mem_cons.1 h with h | h
        · exact Or.inr (by simp [h])
        · exact (ih h).imp id (List.mem_cons_of_mem _)

/-- A write keeps the canonical form. -/
theorem wf_write (m : Memory) (a : Nat) (v : Word) (h : Memory.wf m = true) : Memory.wf (Memory.write m a v) = true := by
  induction m with
  | nil => rfl
  | cons d m ih =>
    obtain ⟨b, w⟩ := d
    have hb := (wf_cons_iff b w m).1 h
    unfold Memory.write
    split
    · next hab =>
      refine (wf_cons_iff a v _).2 ⟨h, fun c hc => ?_⟩
      rcases List.mem_cons.1 hc with rfl | hc
      · exact hab
      · exact Nat.lt_trans hab (hb.2 c hc)
    · split
      · next hab => subst hab; exact (wf_cons_iff a v m).2 hb
      · next h1 h2 =>
        refine (wf_cons_iff b w _).2 ⟨ih hb.1, fun c hc => ?_⟩
        rcases mem_write hc with rfl | hc
        · simp only; omega
        · exact hb.2 c hc

theorem within_iff (size : Nat) (m : Memory) : Memory.within size m = true ↔ ∀ c ∈ m, c.1 < size := by
  simp [Memory.within, List.all_eq_true]

/-- A write at an index of the space keeps the memory inside the space. -/
theorem within_write {size : Nat} (m : Memory) {a : Nat} (v : Word) (h : Memory.within size m = true) (ha : a < size) :
    Memory.within size (Memory.write m a v) = true := by
  rw [within_iff] at *
  intro c hc
  rcases mem_write hc with rfl | hc
  · exact ha
  · exact h c hc

/-- What a read gives after consecutive words were written from `a` on. -/
theorem read?_writeWords (ws : List Word) (m : Memory) (a c : Nat) :
    Memory.read? (Memory.writeWords m a ws) c =
      if a ≤ c ∧ c < a + ws.length then ws[c - a]? else Memory.read? m c := by
  induction ws generalizing m a with
  | nil => simp [Memory.writeWords]
  | cons v ws ih =>
    rw [Memory.writeWords, ih, read?_write, List.length_cons]
    by_cases h1 : a + 1 ≤ c ∧ c < a + 1 + ws.length
    · rw [if_pos h1, if_pos (by omega)]
      have : c - a = (c - (a + 1)) + 1 := by omega
      simp [this]
    · rw [if_neg h1]
      by_cases h2 : c = a
      · subst h2; simp
      · rw [if_neg h2, if_neg (by omega)]

theorem wf_writeWords (ws : List Word) (m : Memory) (a : Nat) (h : Memory.wf m = true) :
    Memory.wf (Memory.writeWords m a ws) = true := by
  induction ws generalizing m a with
  | nil => exact h
  | cons v ws ih => exact ih _ _ (wf_write m a v h)

theorem within_writeWords {size : Nat} (ws : List Word) (m : Memory) (a : Nat) (h : Memory.within size m = true)
    (ha : a + ws.length ≤ size) : Memory.within size (Memory.writeWords m a ws) = true := by
  induction ws generalizing m a with
  | nil => exact h
  | cons v ws ih =>
    rw [List.length_cons] at ha
    exact ih _ _ (within_write m v h (by omega)) (by omega)

/-- What a read gives in a stretch of equal words. -/
theorem read?_fill (v : Word) (n a c : Nat) :
    Memory.read? (Memory.fill v a n) c = if a ≤ c ∧ c < a + n then some v else none := by
  induction n generalizing a with
  | zero => rw [if_neg (by omega)]; rfl
  | succ n ih =>
    rw [Memory.fill, Memory.read?, ih]
    split
    · next h => subst h; rw [if_pos (by omega)]
    · next h => split <;> split <;> first | rfl | omega

theorem mem_fill {v : Word} {n a : Nat} {c : Nat × Word} (h : c ∈ Memory.fill v a n) : a ≤ c.1 ∧ c.1 < a + n := by
  induction n generalizing a with
  | zero => simp [Memory.fill] at h
  | succ n ih =>
    rcases List.mem_cons.1 h with rfl | h
    · simp
    · have := ih h; omega

theorem wf_fill (v : Word) (n a : Nat) : Memory.wf (Memory.fill v a n) = true := by
  induction n generalizing a with
  | zero => rfl
  | succ n ih => exact (wf_cons_iff a v _).2 ⟨ih (a + 1), fun c hc => (mem_fill hc).1⟩

theorem within_fill (v : Word) (n a : Nat) {size : Nat} (h : a + n ≤ size) : Memory.within size (Memory.fill v a n) = true :=
  (within_iff _ _).2 fun _ hc => Nat.lt_of_lt_of_le (mem_fill hc).2 h

/-- A memory in canonical form is determined by what its words read as. -/
theorem memory_ext {m n : Memory} (hm : Memory.wf m = true) (hn : Memory.wf n = true)
    (h : ∀ a, Memory.read? m a = Memory.read? n a) : m = n := by
  have absent : ∀ (l : Memory) (a : Nat), (∀ c ∈ l, a < c.1) → Memory.read? l a = none := by
    intro l a hl
    induction l with
    | nil => rfl
    | cons d l ih =>
      have := hl d (by simp)
      rw [Memory.read?, if_neg (by omega)]
      exact ih fun c hc => hl c (List.mem_cons_of_mem _ hc)
  induction m generalizing n with
  | nil =>
    cases n with
    | nil => rfl
    | cons d n => have := h d.1; simp [Memory.read?] at this
  | cons c m ih =>
    obtain ⟨a, v⟩ := c
    cases n with
    | nil => have := h a; simp [Memory.read?] at this
    | cons d n =>
      obtain ⟨b, w⟩ := d
      have hm' := (wf_cons_iff a v m).1 hm
      have hn' := (wf_cons_iff b w n).1 hn
      have ha := h a
      have hb := h b
      simp only [Memory.read?, if_true] at ha hb
      have hab : a = b := by
        by_contra hne
        rw [if_neg hne] at ha
        rw [if_neg (Ne.symm hne)] at hb
        rcases Nat.lt_or_gt_of_ne hne with hlt | hlt
        · rw [absent n a fun c hc => Nat.lt_trans hlt (hn'.2 c hc)] at ha
          simp at ha
        · rw [absent m b fun c hc => Nat.lt_trans hlt (hm'.2 c hc)] at hb
          simp at hb
      subst hab
      rw [if_pos rfl] at ha
      rw [Option.some.inj ha]
      congr 1
      refine ih hm'.1 hn'.1 fun x => ?_
      by_cases hx : x = a
      · subst hx; rw [absent m x hm'.2, absent n x hn'.2]
      · have := h x
        simpa [Memory.read?, hx] using this

/-! ### Words of a state -/

/-- A written word reads as itself. -/
theorem readWord_of_word? {s : State} {sp : Space} {a : Nat} {w : Word} (h : s.word? sp a = some w) : s.readWord sp a = w := by
  unfold State.readWord
  rw [show Memory.read? (s.mem sp) a = some w from h]

/-- An unwritten word reads as its free value (10_state.md R42). -/
theorem readWord_of_unwritten {s : State} {sp : Space} {a : Nat} (h : s.word? sp a = none) :
    s.readWord sp a = Config.freeWord s.draws sp a := by
  unfold State.readWord
  rw [show Memory.read? (s.mem sp) a = none from h]

/-- What a read gives, in one term. -/
theorem readWord_eq (s : State) (sp : Space) (a : Nat) : s.readWord sp a = (s.word? sp a).getD (Config.freeWord s.draws sp a) := by
  unfold State.readWord State.word?
  cases Memory.read? (s.mem sp) a <;> rfl

@[simp] theorem readWords_length (s : State) (sp : Space) (a n : Nat) : (s.readWords sp a n).length = n := by
  simp [State.readWords]

@[simp] theorem setMem_word?_same (s : State) (sp : Space) (m : Memory) (a : Nat) :
    (s.setMem sp m).word? sp a = Memory.read? m a := by simp [State.word?]

@[simp] theorem setMem_word?_other (s : State) {sp sq : Space} (m : Memory) (a : Nat) (h : sq ≠ sp) :
    (s.setMem sp m).word? sq a = s.word? sq a := by simp [State.word?, h]

@[simp] theorem setPort_word? (s : State) (p : Port) (ps : PortState) (sp : Space) (a : Nat) :
    (s.setPort p ps).word? sp a = s.word? sp a := by simp [State.word?]

@[simp] theorem respond_word? (s : State) (ws : List Word) (sp : Space) (a : Nat) :
    (s.respond ws).word? sp a = s.word? sp a := by simp [State.word?]

@[simp] theorem consume_word? (s : State) (p : Port) (n : Nat) (sp : Space) (a : Nat) :
    (s.consume p n).word? sp a = s.word? sp a := by simp [State.word?]

@[simp] theorem advanceRidx_word? (s : State) (k : Nat) (sp : Space) (a : Nat) :
    (s.advanceRidx k).word? sp a = s.word? sp a := by simp [State.word?]

@[simp] theorem moveWidx_word? (s : State) (d : Int) (sp : Space) (a : Nat) :
    (s.moveWidx d).word? sp a = s.word? sp a := by simp [State.word?]

/-- What a word of a space is after consecutive words were written to a space. -/
theorem writeWords_word? (s : State) (sp sq : Space) (a c : Nat) (ws : List Word) :
    (s.writeWords sp a ws).word? sq c =
      if sq = sp ∧ a ≤ c ∧ c < a + ws.length then ws[c - a]? else s.word? sq c := by
  by_cases h : sq = sp
  · subst h
    simp [State.word?, read?_writeWords]
  · simp [State.word?, h]

/-- Two states with the same memory fields have the same memory spaces. -/
theorem mem_congr {s t : State} (hr : t.ring = s.ring) (hs : t.scr = s.scr) (h0 : t.slot0re = s.slot0re)
    (h1 : t.slot0im = s.slot0im) (h2 : t.slot1re = s.slot1re) (h3 : t.slot1im = s.slot1im) (h4 : t.slot2re = s.slot2re)
    (h5 : t.slot2im = s.slot2im) (sp : Space) : t.mem sp = s.mem sp := by
  rcases sp with _ | _ | ⟨_ | _ | _, _ | _⟩ <;> assumption

/-- Two states with the same ports. -/
theorem port_congr {s t : State} (h0 : t.p0 = s.p0) (h1 : t.p1 = s.p1) (h2 : t.p2 = s.p2) (p : Port) : t.port p = s.port p := by
  cases p <;> assumption

end Sys2Proof.Machine
end

