-- ==== Sys2Proof/Laws/Exec.lean ====
section
/-! SUPPORT. The shared checks of the commands, once each: what each can answer. The provers cite these instead of unfolding the checks
in every proof. -/

namespace Sys2Proof.Machine

/-- The port check answers ERR_PORT, or goes on (60_exceptions.md R293 item 3). -/
theorem onItsPorts_eq (op : Opcode) (s : State) (k : Result) :
    (s.granted ∈ allowedPorts op ∧ onItsPorts op s k = k) ∨
      (s.granted ∉ allowedPorts op ∧ onItsPorts op s k = .next (raise op .port s)) := by
  unfold onItsPorts
  split
  · next h => exact Or.inl ⟨h, rfl⟩
  · next h => exact Or.inr ⟨h, rfl⟩

theorem onItsPorts_pos {op : Opcode} {s : State} (k : Result) (h : s.granted ∈ allowedPorts op) : onItsPorts op s k = k :=
  if_pos h

theorem onItsPorts_neg {op : Opcode} {s : State} (k : Result) (h : s.granted ∉ allowedPorts op) :
    onItsPorts op s k = .next (raise op .port s) := if_neg h

theorem ringConfigured_pos {op : Opcode} {s : State} (k : Result) (h : s.cap ≠ 0) : ringConfigured op s k = k := if_neg h

theorem ringConfigured_neg {op : Opcode} {s : State} (k : Result) (h : s.cap = 0) :
    ringConfigured op s k = .next (raise op .unconfig s) := if_pos h

theorem fftConfigured_pos {op : Opcode} {s : State} (k : Result) (h : s.fftn ≠ 0) : fftConfigured op s k = k := if_neg h

theorem fftConfigured_neg {op : Opcode} {s : State} (k : Result) (h : s.fftn = 0) :
    fftConfigured op s k = .next (raise op .unconfig s) := if_pos h

theorem frameRange_pos {op : Opcode} {count : Nat} {off : Word} {s : State} (k : Result)
    (h : off.toNat + count ≤ s.params.nmax) : frameRange op count off s k = k := if_neg (by omega)

theorem frameRange_neg {op : Opcode} {count : Nat} {off : Word} {s : State} (k : Result)
    (h : s.params.nmax < off.toNat + count) : frameRange op count off s k = .next (raise op .range s) := if_pos h

theorem ringInMemory_pos {s : State} (k : Result) (h : s.cap.toNat ≤ s.params.rbDepth.toNat) : ringInMemory s k = k :=
  if_neg (by omega)

/-- A legal slot index names a slot. -/
theorem withSlot_of_legal {b : BitVec 2} (k : Slot → Result) (h : b ≠ 3) : ∃ i, slotOf b = some i ∧ withSlot b k = k i := by
  unfold withSlot slotOf
  revert h
  revert b
  intro b
  by_cases h0 : b = 0
  · subst h0; exact fun _ => ⟨.s0, rfl, rfl⟩
  · by_cases h1 : b = 1
    · subst h1; exact fun _ => ⟨.s1, rfl, rfl⟩
    · by_cases h2 : b = 2
      · subst h2; exact fun _ => ⟨.s2, rfl, rfl⟩
      · intro h3
        exfalso
        revert h0 h1 h2 h3
        revert b
        decide

theorem withSlot_some {b : BitVec 2} {i : Slot} (k : Slot → Result) (h : slotOf b = some i) : withSlot b k = k i := by
  unfold withSlot; rw [h]

theorem withSlot_none {b : BitVec 2} (k : Slot → Result) (h : slotOf b = none) : withSlot b k = .fault .noSuchSlot := by
  unfold withSlot; rw [h]

/-- FFT_CFG's check is: a power of two that is at most NMAX (41_fft.md R190). -/
theorem isFftSize_iff (p : Params) (n : Nat) : isFftSize p n = true ↔ ∃ k, k ≤ p.log2Nmax.toNat ∧ n = 2 ^ k := by
  unfold isFftSize Params.nmax
  simp only [Bool.and_eq_true, decide_eq_true_eq]
  constructor
  · rintro ⟨⟨h0, h1⟩, h2⟩
    obtain ⟨k, rfl⟩ := (Nat.and_sub_one_eq_zero_iff_isPowerOfTwo h0).1 h1
    exact ⟨k, (Nat.pow_le_pow_iff_right (by omega)).1 h2, rfl⟩
  · rintro ⟨k, hk, rfl⟩
    have h0 : 2 ^ k ≠ 0 := (Nat.two_pow_pos k).ne'
    exact ⟨⟨h0, (Nat.and_sub_one_eq_zero_iff_isPowerOfTwo h0).2 ⟨k, rfl⟩⟩, Nat.pow_le_pow_right (by omega) hk⟩

theorem withFftSize_pos {s : State} (k : Nat → Result) (h : isFftSize s.params s.fftn.toNat = true) :
    withFftSize s k = k s.fftn.toNat := if_pos h

/-- `reply` answers OK with its value and data and changes nothing else. -/
theorem reply_answers (op : Opcode) (v : Word) (data : List Word) (s : State) :
    Answers s (reply op v data s) (statusWord op.code .ok :: v :: data) := respond_answers s _

/-- `raise` is an error without effect (60_exceptions.md R291). -/
theorem raise_raised (op : Opcode) (st : Status) (s : State) :
    Raised (statusWord op.code st) s (.next (raise op st s)) :=
  ⟨_, rfl, respond_answers s _, respond_regs s _, fun sp a => respond_word? s _ sp a⟩

/-- Changing registers or memories before the response leaves what `Answers` speaks of alone. -/
theorem Answers.of_update {s u t : State} {ws : List Word} (h : Answers u t ws) (hp : ∀ q, u.port q = s.port q)
    (hg : u.granted = s.granted) (hr : u.rstN = s.rstN) (he : u.events = s.events) (hd : u.draws = s.draws)
    (hq : u.params = s.params) : Answers s t ws := by
  obtain ⟨h1, h2, h3, h4, h5, h6, h7⟩ := h
  refine ⟨?_, ?_, by rw [h3, hg], by rw [h4, hr], by rw [h5, he], by rw [h6, hd], by rw [h7, hq]⟩
  · rw [hg, hp] at h1; exact h1
  · intro q hq'; rw [h2 q (by rw [hg]; exact hq'), hp]

/-- The executing port runs its command as `exec` of the decoded instruction on the state after the fetch. -/
theorem runPort_command {s : State} {p : Port} {i : Instr} {n : Nat} (hr : s.ready p = true) (hf : s.fetch p = .command i n) :
    runPort p s = exec i (s.consume p n) := by
  unfold runPort
  rw [if_pos hr, hf]

/-- An illegal header is answered with ERR_ILLEGAL after its words are taken. -/
theorem runPort_illegal {s : State} {p : Port} {why : Illegal} {h : Word} {n : Nat} (hr : s.ready p = true)
    (hf : s.fetch p = .illegal why h n) : runPort p s = .next (raiseIllegal h (s.consume p n)) := by
  unfold runPort
  rw [if_pos hr, hf]

/-- A port that is not ready does nothing when granted. -/
theorem runPort_not_ready {s : State} {p : Port} (hr : s.ready p = false) : runPort p s = .next s := by
  unfold runPort
  rw [hr]
  rfl

/-- Everything a granted port can do. -/
theorem runPort_cases (p : Port) (s : State) :
    (s.ready p = false ∧ runPort p s = .next s) ∨
    (∃ i n, s.ready p = true ∧ s.fetch p = .command i n ∧ runPort p s = exec i (s.consume p n)) ∨
    (∃ why h n, s.ready p = true ∧ s.fetch p = .illegal why h n ∧ runPort p s = .next (raiseIllegal h (s.consume p n))) := by
  cases hr : s.ready p with
  | false => exact Or.inl ⟨rfl, runPort_not_ready hr⟩
  | true =>
    cases hf : s.fetch p with
    | command i n => exact Or.inr (Or.inl ⟨i, n, rfl, rfl, runPort_command hr hf⟩)
    | illegal why h n => exact Or.inr (Or.inr ⟨why, h, n, rfl, rfl, runPort_illegal hr hf⟩)
    | incomplete => simp [State.ready, hf] at hr

/-- Everything a step can do: the host's move or the grant its first event names, or a grant of the block's own. -/
theorem step_cases (s : State) :
    (∃ p w rest, s.events = .write p w :: rest ∧ step s = .next (State.hostWrite { s with events := rest } p w)) ∨
    (∃ p rest, s.events = .take p :: rest ∧ step s = .next (State.hostTake { s with events := rest } p)) ∨
    (∃ rest, s.events = .resetLow :: rest ∧ step s = .next (State.blockReset { s with events := rest } false)) ∨
    (∃ rest, s.events = .resetHigh :: rest ∧ step s = .next (State.blockReset { s with events := rest } true)) ∨
    (∃ p rest, s.events = .grant p :: rest ∧ step s = runPort p { s with events := rest }) ∨
    (s.events = [] ∧ s.arbiter = none ∧ step s = .next s) ∨
    (∃ p, s.events = [] ∧ s.arbiter = some p ∧ step s = runPort p s) := by
  unfold step runNext
  cases he : s.events with
  | cons e rest =>
    cases e with
    | write p w => exact Or.inl ⟨p, w, rest, rfl, rfl⟩
    | take p => exact Or.inr (Or.inl ⟨p, rest, rfl, rfl⟩)
    | resetLow => exact Or.inr (Or.inr (Or.inl ⟨rest, rfl, rfl⟩))
    | resetHigh => exact Or.inr (Or.inr (Or.inr (Or.inl ⟨rest, rfl, rfl⟩)))
    | grant p => exact Or.inr (Or.inr (Or.inr (Or.inr (Or.inl ⟨p, rest, rfl, rfl⟩))))
  | nil =>
    cases ha : s.arbiter with
    | none => exact Or.inr (Or.inr (Or.inr (Or.inr (Or.inr (Or.inl ⟨rfl, rfl, rfl⟩)))))
    | some p => exact Or.inr (Or.inr (Or.inr (Or.inr (Or.inr (Or.inr ⟨p, rfl, rfl, rfl⟩)))))

/-- The block's own grant goes to a ready port (20_memory.md R83). -/
theorem arbiter_ready {s : State} {p : Port} (h : s.arbiter = some p) : s.ready p = true := by
  have key : p ∈ s.readyPorts := by
    unfold State.arbiter at h
    split at h
    · simp at h
    · next q hq => rw [hq]; simpa using h.symm
    · next q r rest hq =>
      rw [hq]
      have hlt : Config.arbChoice s.draws % (q :: r :: rest).length < (q :: r :: rest).length :=
        Nat.mod_lt _ (by simp)
      rw [List.getD_eq_getElem _ _ hlt] at h
      rw [← Option.some.inj h]
      exact List.getElem_mem hlt
  simpa [State.readyPorts] using (List.mem_filter.1 key).2

end Sys2Proof.Machine
end

