-- ==== Sys2Proof/Laws/Fft.lean ====
section
/-! SUPPORT. The transforms keep the length of a frame: N = 2^L words in, N words out (41_fft.md R186 to R199). -/

namespace Sys2Proof.Machine

/-- A fold whose steps keep the length keeps the length. -/
theorem foldl_length {α β : Type} (f : List α → β → List α) (hf : ∀ a b, (f a b).length = a.length) (l : List β) (a : List α) :
    (l.foldl f a).length = a.length := by
  induction l generalizing a with
  | nil => rfl
  | cons b l ih => rw [List.foldl_cons, ih, hf]

/-- A fold over 0, 1, …, n - 1 is any sequence that starts where it starts and makes its steps. -/
theorem foldl_range_eq {α : Type} (f : α → Nat → α) (acc : Nat → α) (n : Nat) (h : ∀ i, i < n → acc (i + 1) = f (acc i) i) :
    (List.range n).foldl f (acc 0) = acc n := by
  induction n with
  | zero => rfl
  | succ n ih => rw [List.range_succ, List.foldl_append, ih fun i hi => h i (by omega), List.foldl_cons, List.foldl_nil, h n (by omega)]

@[simp] theorem permute_length (L : Nat) (x : List Cx) : (permute L x).length = 2 ^ L := by
  unfold permute
  rw [foldl_length _ (fun a b => by simp)]
  simp

@[simp] theorem butterfly_length (nu : NanSource) (site : List Nat) (w : Cx) (k k2 : Nat) (a : List Cx) :
    (butterfly nu site w k k2 a).length = a.length := by simp [butterfly]

@[simp] theorem groupLoop_length (nu : NanSource) (s j G : Nat) (w : Cx) (a : List Cx) :
    (groupLoop nu s j G w a).length = a.length := foldl_length _ (fun _ _ => butterfly_length ..) _ _

@[simp] theorem positionLoop_length (nu : NanSource) (s G : Nat) (omega : Cx) (H j : Nat) (w : Cx) (a : List Cx) :
    (positionLoop nu s G omega H j w a).length = a.length := by
  induction H generalizing j w a with
  | zero => rfl
  | succ H ih => rw [positionLoop, ih, groupLoop_length]

@[simp] theorem networkStage_length (nu : NanSource) (p : Params) (L s : Nat) (a : List Cx) :
    (networkStage nu p L s a).length = a.length := positionLoop_length ..

@[simp] theorem butterflyNetwork_length (nu : NanSource) (p : Params) (L : Nat) (a : List Cx) :
    (butterflyNetwork nu p L a).length = a.length := foldl_length _ (fun _ _ => networkStage_length ..) _ _

@[simp] theorem forwardTransform_length (nu : NanSource) (p : Params) (mode : Mode) (L : Nat) (x : List Word) :
    (forwardTransform nu p mode L x).length = 2 ^ L := by
  cases mode <;> simp [forwardTransform, forwardIterative, forwardDirect]

@[simp] theorem inverseTransform_length (nu : NanSource) (p : Params) (mode : Mode) (L : Nat) (x : List Cx) :
    (inverseTransform nu p mode L x).length = 2 ^ L := by
  cases mode <;> simp [inverseTransform, inverseIterative, inverseDirect]

theorem bitrev_lt (L i : Nat) : bitrev L i < 2 ^ L := by
  induction L generalizing i with
  | zero => simp [bitrev]
  | succ L ih =>
    have h1 := ih (i / 2)
    have h2 : i % 2 ≤ 1 := by omega
    have h3 : i % 2 * 2 ^ L ≤ 1 * 2 ^ L := Nat.mul_le_mul_right _ h2
    rw [bitrev, Nat.pow_succ]
    omega

end Sys2Proof.Machine
end

