-- ==== Sys2Proof/Laws/Ring.lean ====
section
/-! SUPPORT. The ring's index arithmetic (40_ring_buffer.md R141, R142): bounds, distinct indices, and what RING holds after a push. -/

namespace Sys2Proof.Machine

theorem modCap_lt (s : State) (v : Int) (h : s.cap ≠ 0) : s.modCap v < s.cap.toNat := by
  have hc : 0 < s.cap.toNat := by
    rcases Nat.eq_zero_or_pos s.cap.toNat with h0 | h0
    · exact absurd (BitVec.eq_of_toNat_eq (by simpa using h0)) h
    · exact h0
  unfold State.modCap
  have h1 := Int.emod_lt_of_pos v (show (0 : Int) < (s.cap.toNat : Int) by exact_mod_cast hc)
  have h2 := Int.emod_nonneg v (show (s.cap.toNat : Int) ≠ 0 by exact_mod_cast hc.ne')
  omega

theorem num_lt (s : State) (h : s.cap ≠ 0) : s.num < s.cap.toNat := modCap_lt s _ h

theorem rem_lt (s : State) (h : s.cap ≠ 0) : s.rem < s.cap.toNat := modCap_lt s _ h

theorem pushIndex_lt (s : State) (i : Nat) (h : 0 < s.cap.toNat) : s.pushIndex i < s.cap.toNat := Nat.mod_lt _ h

theorem oldestIndex_lt (s : State) (i : Nat) (h : 0 < s.cap.toNat) : s.oldestIndex i < s.cap.toNat := Nat.mod_lt _ h

/-- Adding two numbers below `c` to one base gives the same remainder only if they are equal. -/
theorem add_mod_inj {c b i j : Nat} (hi : i < c) (hj : j < c) (h : (b + i) % c = (b + j) % c) : i = j := by
  have key : i % c = j % c := Nat.ModEq.add_left_cancel' b h
  rwa [Nat.mod_eq_of_lt hi, Nat.mod_eq_of_lt hj] at key

theorem pushIndex_inj (s : State) {i j : Nat} (hi : i < s.cap.toNat) (hj : j < s.cap.toNat)
    (h : s.pushIndex i = s.pushIndex j) : i = j := add_mod_inj hi hj h

theorem oldestIndex_inj (s : State) {i j : Nat} (hi : i < s.cap.toNat) (hj : j < s.cap.toNat)
    (h : s.oldestIndex i = s.oldestIndex j) : i = j := add_mod_inj hi hj h

/-- A word pushed reads back at its push index. -/
theorem ringStored_read (s : State) (ws : List Word) (m : Memory) (i j : Nat) (hj : j < ws.length)
    (h : i + ws.length ≤ s.cap.toNat) :
    Memory.read? (s.ringStored m i ws) (s.pushIndex (i + j)) = some ws[j] := by
  induction ws generalizing m i j with
  | nil => simp at hj
  | cons w ws ih =>
    rw [List.length_cons] at hj h
    rw [State.ringStored]
    cases j with
    | zero =>
      have other : ∀ (ws : List Word) (m : Memory) (k : Nat), i < k → k + ws.length ≤ s.cap.toNat →
          Memory.read? (s.ringStored m k ws) (s.pushIndex i) = Memory.read? m (s.pushIndex i) := by
        intro ws
        induction ws with
        | nil => intros; rfl
        | cons v ws ihw =>
          intro m k hk hl
          rw [List.length_cons] at hl
          rw [State.ringStored, ihw _ _ (by omega) (by omega), read?_write_other]
          intro he
          have := pushIndex_inj s (by omega) (by omega) he
          omega
      have h0 := other ws (Memory.write m (s.pushIndex i) w) (i + 1) (by omega) (by omega)
      rw [read?_write_same] at h0
      exact h0
    | succ j =>
      have := ih (Memory.write m (s.pushIndex i) w) (i + 1) j (by omega) (by omega)
      rw [show i + (j + 1) = i + 1 + j by omega, this]
      simp

/-- A push changes no word at an index it does not use. -/
theorem ringStored_other (s : State) (ws : List Word) (m : Memory) (i c : Nat)
    (h : ∀ j, j < ws.length → s.pushIndex (i + j) ≠ c) :
    Memory.read? (s.ringStored m i ws) c = Memory.read? m c := by
  induction ws generalizing m i with
  | nil => rfl
  | cons w ws ih =>
    rw [State.ringStored, ih, read?_write_other]
    · have := h 0 (by simp)
      rw [Nat.add_zero] at this
      exact this.symm
    · intro j hj
      have := h (j + 1) (by rw [List.length_cons]; omega)
      rwa [show i + (j + 1) = i + 1 + j by omega] at this

theorem ringStored_wf (s : State) (ws : List Word) (m : Memory) (i : Nat) (h : Memory.wf m = true) :
    Memory.wf (s.ringStored m i ws) = true := by
  induction ws generalizing m i with
  | nil => exact h
  | cons w ws ih => exact ih _ _ (wf_write _ _ _ h)

theorem ringStored_within (s : State) {size : Nat} (ws : List Word) (m : Memory) (i : Nat) (h : Memory.within size m = true)
    (h0 : 0 < s.cap.toNat) (hs : s.cap.toNat ≤ size) : Memory.within size (s.ringStored m i ws) = true := by
  induction ws generalizing m i with
  | nil => exact h
  | cons w ws ih => exact ih _ _ (within_write _ _ h (Nat.lt_of_lt_of_le (pushIndex_lt s i h0) hs))

end Sys2Proof.Machine
end

