-- ==== Sys2Proof/Laws/Commands.lean ====
section
/-! SUPPORT. Everything a command can do, said once: it raises one of four errors, or it succeeds and answers OK, its value and its data
words after `effect`, or it stops in a state the spec says is never held. A proof over all commands cites `exec_cases` and the lemmas
about `effect` and need not unfold a meaning. -/

namespace Sys2Proof.Machine

/-- The slot TIN names, `s0` for the encoding never held. -/
def State.tinSlot (s : State) : Slot := (slotOf s.tin).getD .s0

/-- What a command that succeeds does to registers and memories. -/
def effect (i : Instr) (s : State) : State :=
  match i with
  | .nop | .stat _ | .rbNum | .rbRem | .tbStart | .tbLock | .tbRdout _ _ _ | .scrRd _ _ | .slotRd _ _ _ _ => s
  | .rbSetcap n => { s with cap := BitVec.ofNat 21 (n.toNat + 1), ridx := 0, widx := 1 }
  | .rbPush data =>
    (s.setMem .ring (s.ringStored s.ring 0 (data.take (min data.length s.rem)))).moveWidx ((min data.length s.rem : Nat) : Int)
  | .rbPop count off =>
    (s.writeWords .scr off.toNat (s.oldestWords (min count.toNat s.num))).advanceRidx (min count.toNat s.num)
  | .rbPeek count off => s.writeWords .scr off.toNat (s.oldestWords (min count.toNat s.num))
  | .rbSetnum retain n => s.truncate retain n.toNat
  | .tbReset => { s.clearSlots with tin := 1, tout := 0 }
  | .tbStop => { s with tin := nextSlot s.tin s.tout }
  | .tbUnlock => { s with tout := nextSlot s.tout s.tin }
  | .fftCfg n => { s with fftn := n }
  | .fftFwd mode =>
    let y := forwardTransform s.nanSource s.params mode (Nat.log2 s.fftn.toNat) (s.readWords .scr 0 s.fftn.toNat)
    (s.writeWords (.slot s.tinSlot .re) 0 (y.map Prod.fst)).writeWords (.slot s.tinSlot .im) 0 (y.map Prod.snd)
  | .fftInv mode =>
    let x := (s.readWords (.slot s.tinSlot .re) 0 s.fftn.toNat).zip (s.readWords (.slot s.tinSlot .im) 0 s.fftn.toNat)
    s.writeWords .scr 0 (inverseTransform s.nanSource s.params mode (Nat.log2 s.fftn.toNat) x)
  | .scrWr off data => s.writeWords .scr off.toNat data

/-- How many data words a command that succeeds answers. -/
def dataLength : Instr → Nat
  | .tbRdout _ count _ => count.toNat
  | .scrRd count _ => count.toNat
  | .slotRd _ _ count _ => count.toNat
  | .nop | .stat _ | .rbSetcap _ | .rbPush _ | .rbPop _ _ | .rbPeek _ _ | .rbNum | .rbRem | .rbSetnum _ _ | .tbReset | .tbStart
  | .tbStop | .tbLock | .tbUnlock | .fftCfg _ | .fftFwd _ | .fftInv _ | .scrWr _ _ => 0

/-- What the checks of a command that succeeded established. -/
def passed (i : Instr) (s : State) : Prop :=
  match i with
  | .rbSetcap n => 1 ≤ n.toNat ∧ n.toNat + 1 ≤ s.params.rbDepth.toNat
  | .rbPush _ => s.cap ≠ 0 ∧ s.cap.toNat ≤ s.params.rbDepth.toNat
  | .rbPop count off => s.cap ≠ 0 ∧ s.cap.toNat ≤ s.params.rbDepth.toNat ∧ off.toNat + count.toNat ≤ s.params.nmax
  | .rbPeek count off => s.cap ≠ 0 ∧ s.cap.toNat ≤ s.params.rbDepth.toNat ∧ off.toNat + count.toNat ≤ s.params.nmax
  | .rbNum | .rbRem | .rbSetnum _ _ => s.cap ≠ 0
  | .tbRdout _ count off => off.toNat + count.toNat ≤ s.params.nmax
  | .scrRd count off => off.toNat + count.toNat ≤ s.params.nmax
  | .slotRd _ _ count off => off.toNat + count.toNat ≤ s.params.nmax
  | .scrWr off data => off.toNat + data.length ≤ s.params.nmax
  | .fftCfg n => ∃ k, k ≤ s.params.log2Nmax.toNat ∧ n.toNat = 2 ^ k
  | .fftFwd _ | .fftInv _ => (∃ k, k ≤ s.params.log2Nmax.toNat ∧ s.fftn.toNat = 2 ^ k) ∧ slotOf s.tin = some s.tinSlot
  | .nop | .stat _ | .tbReset | .tbStart | .tbStop | .tbLock | .tbUnlock => True

/-- A result is one of the three things a command can do. -/
def Shape (i : Instr) (s : State) (r : Result) : Prop :=
  (∃ st, st ≠ .ok ∧ st ≠ .illegal ∧ r = .next (raise i.opcode st s)) ∨
  (s.granted ∈ allowedPorts i.opcode ∧ passed i s ∧
    ∃ v data, data.length = dataLength i ∧ r = .next (reply i.opcode v data (effect i s))) ∨
  (∃ f, r = .fault f)

theorem shape_raise {i : Instr} {s : State} (st : Status) (h : st ≠ .ok) (h' : st ≠ .illegal) :
    Shape i s (.next (raise i.opcode st s)) := Or.inl ⟨st, h, h', rfl⟩

theorem shape_onItsPorts {i : Instr} {s : State} {k : Result} (h : s.granted ∈ allowedPorts i.opcode → Shape i s k) :
    Shape i s (onItsPorts i.opcode s k) := by
  unfold onItsPorts; split
  · next hg => exact h hg
  · exact shape_raise _ (by decide) (by decide)

theorem shape_ringConfigured {i : Instr} {s : State} {k : Result} (h : s.cap ≠ 0 → Shape i s k) :
    Shape i s (ringConfigured i.opcode s k) := by
  unfold ringConfigured; split
  · exact shape_raise _ (by decide) (by decide)
  · next hc => exact h hc

theorem shape_fftConfigured {i : Instr} {s : State} {k : Result} (h : s.fftn ≠ 0 → Shape i s k) :
    Shape i s (fftConfigured i.opcode s k) := by
  unfold fftConfigured; split
  · exact shape_raise _ (by decide) (by decide)
  · next hc => exact h hc

theorem shape_frameRange {i : Instr} {s : State} {count : Nat} {off : Word} {k : Result}
    (h : off.toNat + count ≤ s.params.nmax → Shape i s k) : Shape i s (frameRange i.opcode count off s k) := by
  unfold frameRange; split
  · exact shape_raise _ (by decide) (by decide)
  · next hc => exact h (by omega)

theorem shape_ringInMemory {i : Instr} {s : State} {k : Result} (h : s.cap.toNat ≤ s.params.rbDepth.toNat → Shape i s k) :
    Shape i s (ringInMemory s k) := by
  unfold ringInMemory; split
  · exact Or.inr (Or.inr ⟨_, rfl⟩)
  · next hc => exact h (by omega)

theorem shape_withSlot {i : Instr} {s : State} {b : BitVec 2} {k : Slot → Result} (h : ∀ j, slotOf b = some j → Shape i s (k j)) :
    Shape i s (withSlot b k) := by
  unfold withSlot; split
  · next j hj => exact h j hj
  · exact Or.inr (Or.inr ⟨_, rfl⟩)

theorem shape_withFftSize {i : Instr} {s : State} {k : Nat → Result}
    (h : (∃ k, k ≤ s.params.log2Nmax.toNat ∧ s.fftn.toNat = 2 ^ k) → Shape i s (k s.fftn.toNat)) :
    Shape i s (withFftSize s k) := by
  unfold withFftSize; split
  · next hs => exact h ((isFftSize_iff _ _).1 hs)
  · exact Or.inr (Or.inr ⟨_, rfl⟩)

theorem shape_reply {i : Instr} {s : State} (v : Word) (data : List Word) (hg : s.granted ∈ allowedPorts i.opcode)
    (hp : passed i s) (hd : data.length = dataLength i) : Shape i s (.next (reply i.opcode v data (effect i s))) :=
  Or.inr (Or.inl ⟨hg, hp, v, data, hd, rfl⟩)

/-- Everything a command can do. -/
theorem exec_cases (i : Instr) (s : State) : Shape i s (exec i s) := by
  cases i with
  | nop => exact shape_onItsPorts fun hg => shape_reply _ _ hg trivial rfl
  | stat sel =>
    refine shape_onItsPorts fun hg => ?_
    split
    · exact shape_reply _ _ hg trivial rfl
    · exact shape_raise _ (by decide) (by decide)
  | rbSetcap n =>
    refine shape_onItsPorts fun hg => ?_
    split
    · next h => exact shape_reply _ _ hg h rfl
    · exact shape_raise _ (by decide) (by decide)
  | rbPush data =>
    exact shape_onItsPorts fun hg => shape_ringConfigured fun hc => shape_ringInMemory fun hm =>
      shape_reply _ _ hg ⟨hc, hm⟩ rfl
  | rbPop count off =>
    exact shape_onItsPorts fun hg => shape_ringConfigured fun hc => shape_frameRange fun hr => shape_ringInMemory fun hm =>
      shape_reply _ _ hg ⟨hc, hm, hr⟩ rfl
  | rbPeek count off =>
    exact shape_onItsPorts fun hg => shape_ringConfigured fun hc => shape_frameRange fun hr => shape_ringInMemory fun hm =>
      shape_reply _ _ hg ⟨hc, hm, hr⟩ rfl
  | rbNum => exact shape_onItsPorts fun hg => shape_ringConfigured fun hc => shape_reply _ _ hg hc rfl
  | rbRem => exact shape_onItsPorts fun hg => shape_ringConfigured fun hc => shape_reply _ _ hg hc rfl
  | rbSetnum retain n => exact shape_onItsPorts fun hg => shape_ringConfigured fun hc => shape_reply _ _ hg hc rfl
  | tbReset => exact shape_onItsPorts fun hg => shape_reply _ _ hg trivial rfl
  | tbStart => exact shape_onItsPorts fun hg => shape_reply _ _ hg trivial rfl
  | tbStop => exact shape_onItsPorts fun hg => shape_reply _ _ hg trivial rfl
  | tbLock => exact shape_onItsPorts fun hg => shape_reply _ _ hg trivial rfl
  | tbUnlock => exact shape_onItsPorts fun hg => shape_reply _ _ hg trivial rfl
  | tbRdout part count off =>
    exact shape_onItsPorts fun hg => shape_frameRange fun hr => shape_withSlot fun j _ =>
      shape_reply _ _ hg hr (readWords_length ..)
  | fftCfg n =>
    refine shape_onItsPorts fun hg => ?_
    split
    · next h => exact shape_reply _ _ hg ((isFftSize_iff _ _).1 h) rfl
    · exact shape_raise _ (by decide) (by decide)
  | fftFwd mode =>
    refine shape_onItsPorts fun hg => shape_fftConfigured fun _ => shape_withFftSize fun hs => shape_withSlot fun j hj => ?_
    have e : j = s.tinSlot := by simp [State.tinSlot, hj]
    subst e
    exact shape_reply _ _ hg ⟨hs, hj⟩ rfl
  | fftInv mode =>
    refine shape_onItsPorts fun hg => shape_fftConfigured fun _ => shape_withFftSize fun hs => shape_withSlot fun j hj => ?_
    have e : j = s.tinSlot := by simp [State.tinSlot, hj]
    subst e
    exact shape_reply _ _ hg ⟨hs, hj⟩ rfl
  | scrWr off data => exact shape_onItsPorts fun hg => shape_frameRange fun hr => shape_reply _ _ hg hr rfl
  | scrRd count off =>
    exact shape_onItsPorts fun hg => shape_frameRange fun hr => shape_reply _ _ hg hr (readWords_length ..)
  | slotRd slot part count off =>
    refine shape_onItsPorts fun hg => shape_frameRange fun hr => ?_
    split
    · exact shape_reply _ _ hg hr (readWords_length ..)
    · exact shape_raise _ (by decide) (by decide)

/-! ### What a success leaves alone -/

@[simp] theorem truncate_params (s : State) (r : Retain) (n : Nat) : (s.truncate r n).params = s.params := by
  unfold State.truncate; split
  · cases r <;> rfl
  · rfl
@[simp] theorem truncate_granted (s : State) (r : Retain) (n : Nat) : (s.truncate r n).granted = s.granted := by
  unfold State.truncate; split
  · cases r <;> rfl
  · rfl
@[simp] theorem truncate_rstN (s : State) (r : Retain) (n : Nat) : (s.truncate r n).rstN = s.rstN := by
  unfold State.truncate; split
  · cases r <;> rfl
  · rfl
@[simp] theorem truncate_events (s : State) (r : Retain) (n : Nat) : (s.truncate r n).events = s.events := by
  unfold State.truncate; split
  · cases r <;> rfl
  · rfl
@[simp] theorem truncate_draws (s : State) (r : Retain) (n : Nat) : (s.truncate r n).draws = s.draws := by
  unfold State.truncate; split
  · cases r <;> rfl
  · rfl
@[simp] theorem truncate_port (s : State) (r : Retain) (n : Nat) (p : Port) : (s.truncate r n).port p = s.port p := by
  unfold State.truncate; split
  · cases r <;> cases p <;> rfl
  · rfl
@[simp] theorem truncate_mem (s : State) (r : Retain) (n : Nat) (sp : Space) : (s.truncate r n).mem sp = s.mem sp := by
  unfold State.truncate; split
  · cases r <;> exact mem_congr rfl rfl rfl rfl rfl rfl rfl rfl sp
  · rfl

@[simp] theorem effect_params (i : Instr) (s : State) : (effect i s).params = s.params := by cases i <;> simp [effect]; rfl
@[simp] theorem effect_granted (i : Instr) (s : State) : (effect i s).granted = s.granted := by cases i <;> simp [effect]; rfl
@[simp] theorem effect_rstN (i : Instr) (s : State) : (effect i s).rstN = s.rstN := by cases i <;> simp [effect]; rfl
@[simp] theorem effect_events (i : Instr) (s : State) : (effect i s).events = s.events := by cases i <;> simp [effect]; rfl
@[simp] theorem effect_draws (i : Instr) (s : State) : (effect i s).draws = s.draws := by cases i <;> simp [effect]; rfl
@[simp] theorem effect_port (i : Instr) (s : State) (p : Port) : (effect i s).port p = s.port p := by
  cases i <;> simp [effect] <;> cases p <;> rfl

@[simp] theorem reply_regs (op : Opcode) (v : Word) (data : List Word) (s : State) : (reply op v data s).regs = s.regs :=
  respond_regs ..
@[simp] theorem reply_word? (op : Opcode) (v : Word) (data : List Word) (s : State) (sp : Space) (a : Nat) :
    (reply op v data s).word? sp a = s.word? sp a := respond_word? ..
@[simp] theorem reply_mem (op : Opcode) (v : Word) (data : List Word) (s : State) (sp : Space) :
    (reply op v data s).mem sp = s.mem sp := respond_mem ..
@[simp] theorem raise_regs (op : Opcode) (st : Status) (s : State) : (raise op st s).regs = s.regs := respond_regs ..
@[simp] theorem raise_mem (op : Opcode) (st : Status) (s : State) (sp : Space) : (raise op st s).mem sp = s.mem sp :=
  respond_mem ..
@[simp] theorem raise_word? (op : Opcode) (st : Status) (s : State) (sp : Space) (a : Nat) :
    (raise op st s).word? sp a = s.word? sp a := respond_word? ..

/-- The answer of a success, seen from the state before it. -/
theorem success_answers (i : Instr) (v : Word) (data : List Word) (s : State) :
    Answers s (reply i.opcode v data (effect i s)) (statusWord i.opcode.code .ok :: v :: data) :=
  Answers.of_update (reply_answers ..) (effect_port i s) (effect_granted i s) (effect_rstN i s) (effect_events i s)
    (effect_draws i s) (effect_params i s)

end Sys2Proof.Machine
end

