-- ==== Sys2Proof/Laws/Float.lean ====
section
/-! SUPPORT. The fields of a binary32 word: a word is its sign, exponent and fraction; the classes of words in terms of the fields; what
`fPack` and `roundMag` deliver. -/

namespace Sys2Proof.Machine

/-- A word is its sign, exponent and fraction (00_scope.md R14). -/
theorem word_fields (w : Word) :
    w.toNat = (if fSign w = true then 2 ^ 31 else 0) + fExp w * 2 ^ 23 + fFrac w ∧ fFrac w < 2 ^ 23 ∧ fExp w < 256 := by
  have h := w.isLt
  have hs : fSign w = decide (2 ^ 31 ≤ w.toNat) := by
    unfold fSign
    rw [BitVec.getLsbD, Nat.testBit_eq_decide_div_mod_eq]
    simp only [decide_eq_decide]
    omega
  rw [hs]
  simp only [fExp, fFrac, BitVec.extractLsb'_toNat, Nat.shiftRight_eq_div_pow, decide_eq_true_eq]
  split <;> omega

/-- Words with the same fields are equal. -/
theorem word_ext {a b : Word} (hs : fSign a = fSign b) (he : fExp a = fExp b) (hf : fFrac a = fFrac b) : a = b := by
  apply BitVec.eq_of_toNat_eq
  rw [(word_fields a).1, (word_fields b).1, hs, he, hf]

theorem isNaN_iff (w : Word) : isNaN w = true ↔ fExp w = 255 ∧ fFrac w ≠ 0 := by simp [isNaN]

theorem isInf_iff (w : Word) : isInf w = true ↔ fExp w = 255 ∧ fFrac w = 0 := by simp [isInf]

theorem fMag_eq_zero_iff (w : Word) : fMag w = 0 ↔ fExp w = 0 ∧ fFrac w = 0 := by
  unfold fMag
  split
  · next h => simp [h]
  · next h => simp [h]

theorem fInt_eq_zero_iff (w : Word) : fInt w = 0 ↔ fMag w = 0 := by
  unfold fInt
  split <;> omega

theorem fInt_natAbs (w : Word) : (fInt w).natAbs = fMag w := by
  unfold fInt
  split <;> omega

/-- Rounding delivers at most the bits of infinity. -/
theorem roundMag_le (n k : Nat) : roundMag n k ≤ 0x7F800000 := Nat.min_le_right _ _

theorem fPack_toNat (neg : Bool) (bits : Nat) (h : bits < 2 ^ 31) :
    (fPack neg bits).toNat = (if neg = true then 2 ^ 31 else 0) + bits := by
  unfold fPack
  cases neg <;> simp <;> omega

/-- The fields of a packed word. -/
theorem fPack_fields (neg : Bool) (bits : Nat) (h : bits < 2 ^ 31) :
    fSign (fPack neg bits) = neg ∧ fExp (fPack neg bits) = bits / 2 ^ 23 ∧ fFrac (fPack neg bits) = bits % 2 ^ 23 := by
  have hp := fPack_toNat neg bits h
  obtain ⟨hw, hf, he⟩ := word_fields (fPack neg bits)
  rw [hp] at hw
  cases neg <;> cases hs : fSign (fPack _ bits) <;> rw [hs] at hw <;> simp only [if_true, Bool.false_eq_true, if_false] at hw
  · exact ⟨rfl, by omega, by omega⟩
  · omega
  · omega
  · exact ⟨rfl, by omega, by omega⟩

/-- A rounded word is no NaN. -/
theorem isNaN_fPack (neg : Bool) (bits : Nat) (h : bits ≤ 0x7F800000) : isNaN (fPack neg bits) = false := by
  obtain ⟨_, he, hf⟩ := fPack_fields neg bits (by omega)
  rw [Bool.eq_false_iff]
  intro hn
  rw [isNaN_iff, he, hf] at hn
  omega

/-- A rounded word is infinite exactly when its bits are those of infinity. -/
theorem isInf_fPack (neg : Bool) (bits : Nat) (h : bits ≤ 0x7F800000) : isInf (fPack neg bits) = true ↔ bits = 0x7F800000 := by
  obtain ⟨_, he, hf⟩ := fPack_fields neg bits (by omega)
  rw [isInf_iff, he, hf]
  omega

end Sys2Proof.Machine
end

