-- ==== Sys2Proof/Laws/PerInstr.lean ====
section
/-! SUPPORT. Facts about every instruction as written: the number of words of its encoding is the length its header alone gives
(30_encoding.md R106), and the number of payload words of a well-formed command is its field A (R105). -/

namespace Sys2Proof.Laws

theorem ofCode_code (op : Opcode) : Opcode.ofCode op.code = some op := by cases op <;> decide

theorem headerOpc_header (op : Opcode) (f : BitVec 4) (a : BitVec 20) : headerOpc (header op f a) = op.code := by
  unfold headerOpc header
  generalize op.code = c
  ext i hi
  simp only [BitVec.getElem_extractLsb', BitVec.getLsbD_append]
  rw [if_neg (by omega), if_neg (by omega), show 24 + i - 20 - 4 = i by omega, BitVec.getLsbD_eq_getElem hi]

theorem headerF_header (op : Opcode) (f : BitVec 4) (a : BitVec 20) : headerF (header op f a) = f := by
  unfold headerF header
  ext i hi
  simp only [BitVec.getElem_extractLsb', BitVec.getLsbD_append]
  rw [if_neg (by omega), if_pos (by omega), show 20 + i - 20 = i by omega, BitVec.getLsbD_eq_getElem hi]

theorem headerA_header (op : Opcode) (f : BitVec 4) (a : BitVec 20) : headerA (header op f a) = a := by
  unfold headerA header
  ext i hi
  simp only [BitVec.getElem_extractLsb', BitVec.getLsbD_append]
  rw [if_pos (by omega), show 0 + i = i by omega, BitVec.getLsbD_eq_getElem hi]

/-- The length of a command from a header written from its fields (30_encoding.md R106). -/
theorem commandLength_header (op : Opcode) (f : BitVec 4) (a : BitVec 20) :
    commandLength (header op f a) = 1 + op.bodyLength a := by
  unfold commandLength
  rw [headerOpc_header, ofCode_code, headerA_header]

end Sys2Proof.Laws

namespace Sys2Proof.Laws.HeaderGivesLength

/-- A well-formed command has as many words as its header says (30_encoding.md R106). -/
def Statement (i : Instr) : Prop :=
  i.wellFormed = true → ∃ h body, encode i = h :: body ∧ headerOpc h = i.opcode.code ∧ (encode i).length = commandLength h

theorem nop : Statement .nop := fun _ =>
  ⟨_, _, rfl, headerOpc_header .., by rw [commandLength_header]; rfl⟩
theorem stat (sel : BitVec 20) : Statement (.stat sel) := fun _ =>
  ⟨_, _, rfl, headerOpc_header .., by rw [commandLength_header]; rfl⟩
theorem rbSetcap (n : BitVec 20) : Statement (.rbSetcap n) := fun _ =>
  ⟨_, _, rfl, headerOpc_header .., by rw [commandLength_header]; rfl⟩
theorem rbPush (data : List Word) : Statement (.rbPush data) := fun h => by
  refine ⟨_, _, rfl, headerOpc_header .., ?_⟩
  have hl : data.length < 2 ^ 20 := by simpa [Instr.wellFormed, payloadFits] using h
  rw [commandLength_header]
  simp only [encode, List.length_cons, Opcode.bodyLength, Opcode.hasB, Opcode.hasPayload, BitVec.toNat_ofNat, Nat.mod_eq_of_lt hl]
  simp
  omega
theorem rbPop (count : BitVec 20) (off : Word) : Statement (.rbPop count off) := fun _ =>
  ⟨_, _, rfl, headerOpc_header .., by rw [commandLength_header]; rfl⟩
theorem rbPeek (count : BitVec 20) (off : Word) : Statement (.rbPeek count off) := fun _ =>
  ⟨_, _, rfl, headerOpc_header .., by rw [commandLength_header]; rfl⟩
theorem rbNum : Statement .rbNum := fun _ =>
  ⟨_, _, rfl, headerOpc_header .., by rw [commandLength_header]; rfl⟩
theorem rbRem : Statement .rbRem := fun _ =>
  ⟨_, _, rfl, headerOpc_header .., by rw [commandLength_header]; rfl⟩
theorem rbSetnum (retain : Retain) (n : BitVec 20) : Statement (.rbSetnum retain n) := fun _ =>
  ⟨_, _, rfl, headerOpc_header .., by rw [commandLength_header]; rfl⟩
theorem tbReset : Statement .tbReset := fun _ =>
  ⟨_, _, rfl, headerOpc_header .., by rw [commandLength_header]; rfl⟩
theorem tbStart : Statement .tbStart := fun _ =>
  ⟨_, _, rfl, headerOpc_header .., by rw [commandLength_header]; rfl⟩
theorem tbStop : Statement .tbStop := fun _ =>
  ⟨_, _, rfl, headerOpc_header .., by rw [commandLength_header]; rfl⟩
theorem tbLock : Statement .tbLock := fun _ =>
  ⟨_, _, rfl, headerOpc_header .., by rw [commandLength_header]; rfl⟩
theorem tbUnlock : Statement .tbUnlock := fun _ =>
  ⟨_, _, rfl, headerOpc_header .., by rw [commandLength_header]; rfl⟩
theorem tbRdout (part : Part) (count : BitVec 20) (off : Word) : Statement (.tbRdout part count off) := fun _ =>
  ⟨_, _, rfl, headerOpc_header .., by rw [commandLength_header]; rfl⟩
theorem fftCfg (n : BitVec 20) : Statement (.fftCfg n) := fun _ =>
  ⟨_, _, rfl, headerOpc_header .., by rw [commandLength_header]; rfl⟩
theorem fftFwd (mode : Mode) : Statement (.fftFwd mode) := fun _ =>
  ⟨_, _, rfl, headerOpc_header .., by rw [commandLength_header]; rfl⟩
theorem fftInv (mode : Mode) : Statement (.fftInv mode) := fun _ =>
  ⟨_, _, rfl, headerOpc_header .., by rw [commandLength_header]; rfl⟩
theorem scrWr (off : Word) (data : List Word) : Statement (.scrWr off data) := fun h => by
  refine ⟨_, _, rfl, headerOpc_header .., ?_⟩
  have hl : data.length < 2 ^ 20 := by simpa [Instr.wellFormed, payloadFits] using h
  rw [commandLength_header]
  simp only [encode, List.length_cons, Opcode.bodyLength, Opcode.hasB, Opcode.hasPayload, BitVec.toNat_ofNat, Nat.mod_eq_of_lt hl]
  simp
  omega
theorem scrRd (count : BitVec 20) (off : Word) : Statement (.scrRd count off) := fun _ =>
  ⟨_, _, rfl, headerOpc_header .., by rw [commandLength_header]; rfl⟩
theorem slotRd (slot : BitVec 2) (part : Part) (count : BitVec 20) (off : Word) : Statement (.slotRd slot part count off) :=
  fun _ => ⟨_, _, rfl, headerOpc_header .., by rw [commandLength_header]; rfl⟩

end Sys2Proof.Laws.HeaderGivesLength
end

