-- ==== Sys2Proof/Laws/Stream.lean ====
section
/-! SUPPORT. What the decoder and a granted port can do, said once: which words a command takes from the front of its stream
(30_encoding.md R106, R113, R114), and that a granted port takes them, answers, and touches no other port. -/

namespace Sys2Proof.Machine

theorem hasAtLeast_iff (n : Nat) (ws : List Word) : hasAtLeast n ws = true ↔ n ≤ ws.length := by
  induction n generalizing ws with
  | zero => simp [hasAtLeast]
  | succ n ih => cases ws with
    | nil => simp [hasAtLeast]
    | cons w ws => simp [hasAtLeast, ih]

/-- Everything the decoder can answer for a stream that has a header. -/
theorem decode_cons_cases (h : Word) (body : List Word) :
    (Opcode.ofCode (headerOpc h) = none ∧ decode (h :: body) = .illegal .unlistedOpcode h 1) ∨
    (∃ op, Opcode.ofCode (headerOpc h) = some op ∧ body.length < op.bodyLength (headerA h) ∧ decode (h :: body) = .incomplete) ∨
    (∃ op, Opcode.ofCode (headerOpc h) = some op ∧ op.bodyLength (headerA h) ≤ body.length ∧
      ((headerF h &&& ~~~ op.usedF ≠ 0 ∧ decode (h :: body) = .illegal .reservedF h (commandLength h)) ∨
       (headerF h &&& ~~~ op.usedF = 0 ∧ op.reservedA = true ∧ headerA h ≠ 0 ∧
          decode (h :: body) = .illegal .reservedA h (commandLength h)) ∨
       (headerF h &&& ~~~ op.usedF = 0 ∧ (op.reservedA = true → headerA h = 0) ∧
          decode (h :: body) = .command (op.build (headerF h) (headerA h) body) (commandLength h)))) := by
  cases ho : Opcode.ofCode (headerOpc h) with
  | none => exact Or.inl ⟨rfl, by simp [decode, ho]⟩
  | some op =>
    by_cases hl : op.bodyLength (headerA h) ≤ body.length
    · refine Or.inr (Or.inr ⟨op, rfl, hl, ?_⟩)
      have hl' := (hasAtLeast_iff _ _).2 hl
      by_cases hf : headerF h &&& ~~~ op.usedF = 0
      · by_cases ha : op.reservedA = true ∧ headerA h ≠ 0
        · refine Or.inr (Or.inl ⟨hf, ha.1, ha.2, ?_⟩)
          simp only [decode, ho]
          rw [if_pos hl', if_pos hf, if_pos (by simpa using ha)]
        · refine Or.inr (Or.inr ⟨hf, fun h1 => by by_contra h2; exact ha ⟨h1, h2⟩, ?_⟩)
          simp only [decode, ho]
          rw [if_pos hl', if_pos hf, if_neg (by simpa using ha)]
      · refine Or.inl ⟨hf, ?_⟩
        simp only [decode, ho]
        rw [if_pos hl', if_neg hf]
    · refine Or.inr (Or.inl ⟨op, rfl, by omega, ?_⟩)
      have hl' : hasAtLeast (op.bodyLength (headerA h)) body = false := by
        cases hh : hasAtLeast (op.bodyLength (headerA h)) body with
        | false => rfl
        | true => exact absurd ((hasAtLeast_iff _ _).1 hh) hl
      simp [decode, ho, hl']

/-- A command takes as many words as its header gives, and they are there. -/
theorem decode_command {ws : List Word} {i : Instr} {n : Nat} (h : decode ws = .command i n) :
    ∃ hd body, ws = hd :: body ∧ n = commandLength hd ∧ commandLength hd ≤ ws.length := by
  cases ws with
  | nil => simp [decode] at h
  | cons hd body =>
    refine ⟨hd, body, rfl, ?_⟩
    rcases decode_cons_cases hd body with ⟨_, e⟩ | ⟨op, _, _, e⟩ | ⟨op, ho, hl, ⟨_, e⟩ | ⟨_, _, _, e⟩ | ⟨_, _, e⟩⟩ <;> rw [e] at h
    · simp at h
    · simp at h
    · simp at h
    · simp at h
    · simp only [Decoded.command.injEq] at h
      refine ⟨h.2.symm, ?_⟩
      simp only [commandLength, ho, List.length_cons]
      omega

/-- An illegal header is the first word of its stream, and takes as many words as it gives. -/
theorem decode_illegal {ws : List Word} {why : Illegal} {hd : Word} {n : Nat} (h : decode ws = .illegal why hd n) :
    ∃ body, ws = hd :: body ∧ n = commandLength hd ∧ commandLength hd ≤ ws.length := by
  cases ws with
  | nil => simp [decode] at h
  | cons hd' body =>
    rcases decode_cons_cases hd' body with ⟨ho, e⟩ | ⟨op, _, _, e⟩ | ⟨op, ho, hl, ⟨_, e⟩ | ⟨_, _, _, e⟩ | ⟨_, _, e⟩⟩ <;> rw [e] at h
    · simp only [Decoded.illegal.injEq] at h
      obtain ⟨_, rfl, rfl⟩ := h
      exact ⟨body, rfl, by simp [commandLength, ho], by simp [commandLength, ho]⟩
    · simp at h
    · simp only [Decoded.illegal.injEq] at h
      obtain ⟨_, rfl, rfl⟩ := h
      refine ⟨body, rfl, rfl, ?_⟩
      simp only [commandLength, ho, List.length_cons]; omega
    · simp only [Decoded.illegal.injEq] at h
      obtain ⟨_, rfl, rfl⟩ := h
      refine ⟨body, rfl, rfl, ?_⟩
      simp only [commandLength, ho, List.length_cons]; omega
    · simp at h

/-- An opcode found by its number has that number. -/
theorem code_of_ofCode {c : BitVec 8} {op : Opcode} (h : Opcode.ofCode c = some op) : op.code = c := by
  have := List.find?_some h
  simpa using this

/-- A header is its three fields. -/
theorem header_fields (h : Word) : headerOpc h ++ headerF h ++ headerA h = h := by
  unfold headerOpc headerF headerA
  ext i hi
  simp only [BitVec.getElem_append, BitVec.getElem_extractLsb']
  split
  · rw [BitVec.getLsbD_eq_getElem (by omega)]; congr 1; omega
  · split
    · rw [← BitVec.getLsbD_eq_getElem]; congr 1; omega
    · rw [← BitVec.getLsbD_eq_getElem]; congr 1; omega

/-- A ready port has had every response word taken. -/
theorem rsp_of_ready {s : State} {p : Port} (h : s.ready p = true) : (s.port p).rsp = [] := by
  simp only [State.ready, Bool.and_eq_true, List.isEmpty_iff] at h
  exact h.1.2

/-- What a granted port does to the ports: nothing if it is not ready; otherwise it takes the words its header gives and answers. -/
theorem runPort_ports {p : Port} {s t : State} (h : runPort p s = .next t) :
    (s.ready p = false ∧ t = s) ∨
    (s.ready p = true ∧ ∃ hd body status value data, (s.port p).stream = hd :: body ∧ commandLength hd ≤ (hd :: body).length ∧
      Answers (s.consume p (commandLength hd)) t (status :: value :: data)) := by
  rcases runPort_cases p s with ⟨hr, e⟩ | ⟨i, n, hr, hf, e⟩ | ⟨why, hh, n, hr, hf, e⟩
  · rw [e] at h
    exact Or.inl ⟨hr, (Host.Outcome.next.inj h).symm⟩
  · obtain ⟨hd, body, e1, e2, e3⟩ := decode_command hf
    subst e2
    rw [e1] at e3
    rw [e] at h
    refine Or.inr ⟨hr, hd, body, ?_⟩
    rcases exec_cases i (s.consume p (commandLength hd)) with ⟨st, _, _, e⟩ | ⟨_, _, v, d, _, e⟩ | ⟨f, e⟩ <;> rw [e] at h
    · have := Host.Outcome.next.inj h
      subst this
      exact ⟨_, _, _, e1, e3, respond_answers _ _⟩
    · have := Host.Outcome.next.inj h
      subst this
      exact ⟨_, _, _, e1, e3, success_answers _ _ _ _⟩
    · simp at h
  · obtain ⟨body, e1, e2, e3⟩ := decode_illegal hf
    subst e2
    rw [e1] at e3
    rw [e] at h
    have := Host.Outcome.next.inj h
    subst this
    exact Or.inr ⟨hr, hh, body, _, _, _, e1, e3, respond_answers _ _⟩

end Sys2Proof.Machine
end

