-- ==== Sys2Proof/Tests/Slice0.lean ====
section
/-! SUPPORT. The model's own tests: the well-formedness check, one word per command written out from the encodings of 30_encoding.md R118,
single steps with the expected words of 95_test_vectors.md, and for each obligation with hypotheses a witness that meets them. -/

namespace Sys2Proof.Tests

-- One test after the other: tests that wait for the kernel side by side each hold a thread, and so the memory of its stack.
set_option Elab.async false

open Sys2Proof Sys2Proof.Machine

/-! ### Well-formedness -/

theorem payloadFits_replicate (n : Nat) : payloadFits (List.replicate n 0) = decide (n < 2 ^ 20) := by simp [payloadFits]

/-- A payload of 2^20 words has no encoding: field A has 20 bits (30_encoding.md R103, R105). -/
theorem test_wellFormed_refuses_long_push : (Instr.rbPush (List.replicate (2 ^ 20) 0)).wellFormed = false :=
  (payloadFits_replicate (2 ^ 20)).trans (by decide)

theorem test_wellFormed_refuses_long_scrWr : (Instr.scrWr 0 (List.replicate (2 ^ 20) 0)).wellFormed = false :=
  (payloadFits_replicate (2 ^ 20)).trans (by decide)

/-- The longest payload there is. -/
theorem test_wellFormed_accepts_longest : (Instr.rbPush (List.replicate (2 ^ 20 - 1) 0)).wellFormed = true :=
  (payloadFits_replicate (2 ^ 20 - 1)).trans (by decide)

/-! ### Decoding: words written out from 30_encoding.md R102, R107, R108, R118 -/

theorem test_decode_nop : decode [0x00000000#32] = .command .nop 1 := by decide
theorem test_decode_stat : decode [0x01000007#32] = .command (.stat 7) 1 := by decide
theorem test_decode_rbSetcap : decode [0x10007FFF#32] = .command (.rbSetcap 0x7FFF) 1 := by decide
theorem test_decode_rbPush : decode [0x11000003#32, 0xA0#32, 0xA1#32, 0xA2#32, 0x14000000#32] = .command (.rbPush [0xA0, 0xA1, 0xA2]) 4 := by
  decide
theorem test_decode_rbPop : decode [0x12000002#32, 0x00000005#32] = .command (.rbPop 2 5) 2 := by decide
theorem test_decode_rbPeek : decode [0x13000002#32, 0x80000002#32] = .command (.rbPeek 2 0x80000002) 2 := by decide
theorem test_decode_rbNum : decode [0x14000000#32] = .command .rbNum 1 := by decide
theorem test_decode_rbRem : decode [0x15000000#32] = .command .rbRem 1 := by decide
theorem test_decode_rbSetnum : decode [0x16100001#32] = .command (.rbSetnum .oldest 1) 1 := by decide
theorem test_decode_tbReset : decode [0x20000000#32] = .command .tbReset 1 := by decide
theorem test_decode_tbStart : decode [0x21000000#32] = .command .tbStart 1 := by decide
theorem test_decode_tbStop : decode [0x22000000#32] = .command .tbStop 1 := by decide
theorem test_decode_tbLock : decode [0x23000000#32] = .command .tbLock 1 := by decide
theorem test_decode_tbUnlock : decode [0x24000000#32] = .command .tbUnlock 1 := by decide
theorem test_decode_tbRdout : decode [0x25100002#32, 0x00000001#32] = .command (.tbRdout .im 2 1) 2 := by decide
theorem test_decode_fftCfg : decode [0x30000200#32] = .command (.fftCfg 512) 1 := by decide
theorem test_decode_fftFwd : decode [0x31000000#32] = .command (.fftFwd .iterative) 1 := by decide
theorem test_decode_fftInv : decode [0x32100000#32] = .command (.fftInv .direct) 1 := by decide
theorem test_decode_scrWr : decode [0x38000002#32, 0x00000003#32, 0x3F800000#32, 0x40000000#32] =
    .command (.scrWr 3 [0x3F800000, 0x40000000]) 4 := by decide
theorem test_decode_scrRd : decode [0x39000002#32, 0x00000000#32] = .command (.scrRd 2 0) 2 := by decide
theorem test_decode_slotRd : decode [0x3A500001#32, 0x00000FFF#32] = .command (.slotRd 2 .im 1 0xFFF) 2 := by decide
/-- A reserved F bit, a reserved A, an unlisted OPC, a missing argument word (30_encoding.md R113, R114; 70_reset_and_hazards.md R335). -/
theorem test_decode_refuses :
    decode [0x31200000#32] = .illegal .reservedF 0x31200000#32 1 ∧ decode [0x31000001#32] = .illegal .reservedA 0x31000001#32 1 ∧
    decode [0x02000000#32, 0#32] = .illegal .unlistedOpcode 0x02000000#32 1 ∧ decode [0x12000001#32] = .incomplete := by decide
/-- The numbering of the table: the second word of a command is bits 63..32. -/
theorem test_decodeTableWord : decodeTableWord 32 0x31200000 = none ∧
    decodeTableWord 64 0x00000007_39000002 = some (.scrRd 2 7) ∧ decodeTableWord 32 0x39000002 = some (.scrRd 2 0) := by decide

/-! ### Single steps: responses and effects of 95_test_vectors.md -/

/-- The response words of a port after a step, if the step answers a next state. -/
def answer (p : Port) (r : Result) : Option (List Word) :=
  match r with
  | .next t => some (t.port p).rsp
  | .fault _ => none
  | .refused _ => none

/-- What a step leaves of a state. -/
def left {α : Type} (f : State → α) (r : Result) : Option α :=
  match r with
  | .next t => some (f t)
  | .fault _ => none
  | .refused _ => none

/-- One step that executes the command of the given words on a port. -/
def issue (p : Port) (ws : List Word) (s : State) : Result := step (s.placeWords p ws)

/-- A ring with capacity 5. -/
def ringAt (ridx widx : BitVec 20) (m : Memory) : State := { State.reset with cap := 5, ridx := ridx, widx := widx, ring := m }

/-- CAP, RIDX, WIDX. -/
def cursors (s : State) : Nat × Nat × Nat := (s.cap.toNat, s.ridx.toNat, s.widx.toNat)

/-- The words a, b, c, d of the ring vectors, at the indices 1 to 4. -/
def abcd : Memory := [(1, 0xA0), (2, 0xA1), (3, 0xA2), (4, 0xA3)]

/-- V-SYS-1. -/
theorem test_nop : answer .p0 (issue .p0 [0x00000000#32] State.reset) = some [0, 0] := by decide +kernel
/-- V-SYS-2, V-SYS-3. -/
theorem test_stat :
    answer .p2 (issue .p2 [0x01000003#32] State.reset) = some [0x01000000, 1] ∧
    answer .p2 (issue .p2 [0x01000006#32] State.reset) = some [0x01000000, 12] ∧
    answer .p2 (issue .p2 [0x01000007#32] State.reset) = some [0x01000000, 0x8000] ∧
    answer .p2 (issue .p2 [0x01000008#32] State.reset) = some [0x01000004, 0] := by decide +kernel
/-- V-RB-1, V-RB-C2, V-RB-C3. -/
theorem test_rbSetcap :
    answer .p1 (issue .p1 [0x10000004#32] State.reset) = some [0x10000000, 5] ∧
    left cursors (issue .p1 [0x10000004#32] State.reset) = some (5, 0, 1) ∧
    answer .p1 (issue .p1 [0x10008000#32] State.reset) = some [0x10000004, 0] ∧
    answer .p1 (issue .p1 [0x10007FFF#32] State.reset) = some [0x10000000, 0x8000] := by decide +kernel
/-- V-RB-4: one word fits, two are discarded, WIDX wraps. -/
theorem test_rbPush_partial :
    answer .p0 (issue .p0 [0x11000003#32, 0xA3#32, 0xA4#32, 0xA5#32] (ringAt 0 4 (abcd.take 3))) = some [0x11000000, 0xFFFFFFFE] ∧
    left (fun t => (cursors t, t.ring)) (issue .p0 [0x11000003#32, 0xA3#32, 0xA4#32, 0xA5#32] (ringAt 0 4 (abcd.take 3))) =
      some ((5, 0, 0), abcd) := by decide +kernel
/-- V-RB-9: a push across the end of the ring. -/
theorem test_rbPush_wraps :
    left (fun t => (cursors t, t.ring)) (issue .p0 [0x11000002#32, 0xA6#32, 0xA7#32] (ringAt 2 0 abcd)) =
      some ((5, 2, 2), [(0, 0xA6), (1, 0xA7), (2, 0xA1), (3, 0xA2), (4, 0xA3)]) := by decide +kernel
/-- V-RB-7. -/
theorem test_rbPop :
    answer .p1 (issue .p1 [0x12000002#32, 0#32] (ringAt 0 0 abcd)) = some [0x12000000, 2] ∧
    left (fun t => (cursors t, t.scr)) (issue .p1 [0x12000002#32, 0#32] (ringAt 0 0 abcd)) =
      some ((5, 2, 0), [(0, 0xA0), (1, 0xA1)]) := by decide +kernel
/-- V-RB-16, V-RB-17. -/
theorem test_rbPop_range :
    answer .p1 (issue .p1 [0x12000001#32, 0x1000#32] (ringAt 1 2 [])) = some [0x12000004, 0] ∧
    answer .p1 (issue .p1 [0x12000000#32, 0x1000#32] (ringAt 1 2 [])) = some [0x12000000, 0] := by decide +kernel
/-- V-RB-8. -/
theorem test_rbPeek :
    answer .p1 (issue .p1 [0x13000002#32, 2#32] (ringAt 2 0 abcd)) = some [0x13000000, 0] ∧
    left (fun t => (cursors t, t.scr)) (issue .p1 [0x13000002#32, 2#32] (ringAt 2 0 abcd)) =
      some ((5, 2, 0), [(2, 0xA2), (3, 0xA3)]) := by decide +kernel
/-- V-RB-0 and 40_ring_buffer.md R151 example. -/
theorem test_rbNum :
    answer .p0 (issue .p0 [0x14000000#32] State.reset) = some [0x14000003, 0] ∧
    answer .p1 (issue .p1 [0x14000000#32] (ringAt 3 1 [])) = some [0x14000000, 2] := by decide +kernel
/-- 40_ring_buffer.md R152 example. -/
theorem test_rbRem : answer .p0 (issue .p0 [0x15000000#32] (ringAt 3 1 [])) = some [0x15000000, 2] := by decide +kernel
/-- V-RB-11. -/
theorem test_rbSetnum_newest :
    left cursors (issue .p1 [0x16000001#32] (ringAt 2 2 [])) = some (5, 0, 2) ∧
    answer .p1 (issue .p1 [0x16000001#32] (ringAt 2 2 [])) = some [0x16000000, 1] := by decide +kernel
/-- V-RB-12. -/
theorem test_rbSetnum_oldest :
    left cursors (issue .p1 [0x16100001#32] (ringAt 2 2 [])) = some (5, 2, 4) := by decide +kernel

/-- The state after reset with the slot indices given. -/
def slotsAt (tin tout : BitVec 2) : State := { State.reset with tin := tin, tout := tout }

/-- V-TB-8. -/
theorem test_tbReset :
    left (fun t => (t.tin, t.tout, t.word? (.slot .s2 .im) 0, t.word? (.slot .s0 .re) 4095, t.word? (.slot .s1 .re) 4096))
      (issue .p1 [0x20000000#32] (slotsAt 0 2)) = some (1, 0, some 0, some 0, none) := by decide +kernel
/-- V-TB-1, V-TB-2. -/
theorem test_tbStart : answer .p1 (issue .p1 [0x21000000#32] State.reset) = some [0x21000000, 1] := by decide +kernel
theorem test_tbLock : answer .p2 (issue .p2 [0x23000000#32] State.reset) = some [0x23000000, 0] := by decide +kernel
/-- V-TB-T. -/
theorem test_tbStop : ([(1, 0), (2, 0), (0, 1), (2, 1), (0, 2), (1, 2)] : List (BitVec 2 × BitVec 2)).map
    (fun x => left (fun t => t.tin) (issue .p1 [0x22000000#32] (slotsAt x.1 x.2))) =
      [some 2, some 1, some 2, some 0, some 1, some 0] := by decide +kernel
theorem test_tbUnlock : ([(1, 0), (2, 0), (0, 1), (2, 1), (0, 2), (1, 2)] : List (BitVec 2 × BitVec 2)).map
    (fun x => left (fun t => t.tout) (issue .p2 [0x24000000#32] (slotsAt x.1 x.2))) =
      [some 2, some 1, some 2, some 0, some 1, some 0] := by decide +kernel
/-- V-TB-3 with the two words of the slot that are read, V-TB-4. -/
theorem test_tbRdout :
    answer .p2 (issue .p2 [0x25100002#32, 0#32] { State.reset with slot0im := [(0, 0), (1, 0)] }) =
      some [0x25000000, 2, 0, 0] ∧
    answer .p2 (issue .p2 [0x25000001#32, 0x1000#32] State.reset) = some [0x25000004, 0] := by decide +kernel
/-- V-TB-5: ERR_ILLEGAL after both words. -/
theorem test_tbRdout_reservedF :
    left (fun t => (t.p2.rsp, t.p2.stream, t.p2.pos)) (issue .p2 [0x25200001#32, 0#32] State.reset) =
      some ([0x25000001, 0x25200001], [], 2) := by decide +kernel
/-- V-CFG-3, V-CFG-4, V-CFG-6, V-CFG-10. -/
theorem test_fftCfg :
    answer .p1 (issue .p1 [0x30000180#32] State.reset) = some [0x30000005, 0] ∧
    answer .p1 (issue .p1 [0x30002000#32] State.reset) = some [0x30000005, 0] ∧
    answer .p1 (issue .p1 [0x30001000#32] State.reset) = some [0x30000000, 0x1000] ∧
    answer .p2 (issue .p2 [0x30000008#32] State.reset) = some [0x30000002, 0] := by decide +kernel

/-- An FFT unit of size 2^L with words in SCR. -/
def frame (n : BitVec 20) (x : List Word) : State := { State.reset with fftn := n, scr := Memory.writeWords [] 0 x }

/-- The words of slot 1 after a step. -/
def slot1 (t : State) : List Word × List Word := (t.slot1re.map Prod.snd, t.slot1im.map Prod.snd)

/-- V-FFT-8, ITERATIVE. -/
theorem test_fftFwd_iterative :
    left slot1 (issue .p1 [0x31000000#32]
      (frame 8 [0x3F800000, 0x40000000, 0x40400000, 0x40800000, 0x40A00000, 0x40C00000, 0x40E00000, 0x41000000])) =
    some ([0x42100000, 0xC0800000, 0xC0800000, 0xC0800000, 0xC0800000, 0xC0800000, 0xC0800000, 0xC0800000],
      [0x00000000, 0xC11A827A, 0xC07FFFFF, 0xBFD413C8, 0x00000000, 0x3FD413CC, 0x407FFFFF, 0x411A8279]) := by decide +kernel
/-- V-FFT-8, DIRECT. -/
theorem test_fftFwd_direct :
    left slot1 (issue .p1 [0x31100000#32]
      (frame 8 [0x3F800000, 0x40000000, 0x40400000, 0x40800000, 0x40A00000, 0x40C00000, 0x40E00000, 0x41000000])) =
    some ([0x42100000, 0xC07FFFFE, 0xC0800000, 0xC0800000, 0xC0800000, 0xC0800000, 0xC0800000, 0xC07FFFFE],
      [0x00000000, 0xC11A827A, 0xC0800000, 0xBFD413CC, 0x00000000, 0x3FD413CC, 0x40800000, 0x411A827A]) := by decide +kernel
/-- V-FFT-4-, V-FFT-INF-2, V-FFT-INF-4. -/
theorem test_fft_corners :
    left slot1 (issue .p1 [0x31000000#32] { frame 4 [0x3F800000, 0x40000000, 0x40400000, 0x40800000] with
      params := { Params.reference with twiddleSign := .minus } }) =
      some ([0x41200000, 0xC0000000, 0xC0000000, 0xC0000000], [0, 0x40000000, 0, 0xC0000000]) ∧
    left slot1 (issue .p1 [0x31000000#32] (frame 2 [0, 0x7F800000])) =
      some ([0x7F800000, 0xFF800000], [0x7FC00000, 0x7FC00000]) ∧
    left slot1 (issue .p1 [0x31000000#32] (frame 4 [0x7F800000, 0, 0, 0])) =
      some ([0x7F800000, 0x7F800000, 0x7F800000, 0x7F800000], [0, 0, 0, 0]) := by decide +kernel

/-- A spectrum in slot 1, the producer's slot after reset. -/
def spectrum (n : BitVec 20) (re im : List Word) : State :=
  { State.reset with fftn := n, slot1re := Memory.writeWords [] 0 re, slot1im := Memory.writeWords [] 0 im }

/-- V-IFFT-8. -/
theorem test_fftInv_iterative :
    left (fun t => t.scr.map Prod.snd) (issue .p1 [0x32000000#32] (spectrum 8
      [0x42100000, 0xC0800000, 0xC0800000, 0xC0800000, 0xC0800000, 0xC0800000, 0xC0800000, 0xC0800000]
      [0x00000000, 0xC11A827A, 0xC07FFFFF, 0xBFD413C8, 0x00000000, 0x3FD413CC, 0x407FFFFF, 0x411A8279])) =
    some [0x3F800000, 0x40000000, 0x40400000, 0x40800000, 0x40A00000, 0x40C00000, 0x40E00000, 0x41000000] := by decide +kernel
/-- V-IDFT-8. -/
theorem test_fftInv_direct :
    left (fun t => t.scr.map Prod.snd) (issue .p1 [0x32100000#32] (spectrum 8
      [0x42100000, 0xC07FFFFE, 0xC0800000, 0xC0800000, 0xC0800000, 0xC0800000, 0xC0800000, 0xC07FFFFE]
      [0x00000000, 0xC11A827A, 0xC0800000, 0xBFD413CC, 0x00000000, 0x3FD413CC, 0x40800000, 0x411A827A])) =
    some [0x3F800000, 0x40000000, 0x403FFFFF, 0x40800000, 0x40A00000, 0x40C00000, 0x40E00000, 0x41000000] := by decide +kernel
/-- V-SYS-4, V-SYS-7. -/
theorem test_scrWr :
    left (fun t => (t.p1.rsp, t.scr)) (issue .p1 [0x38000002#32, 0#32, 0x3F800000#32, 0x40000000#32] State.reset) =
      some ([0x38000000, 2], [(0, 0x3F800000), (1, 0x40000000)]) ∧
    left (fun t => (t.p1.rsp, t.scr, t.p1.pos)) (issue .p1 [0x38000002#32, 0xFFF#32, 1#32, 2#32] State.reset) =
      some ([0x38000004, 0], [], 4) := by decide +kernel
/-- V-SYS-5, V-SYS-9. -/
theorem test_scrRd :
    answer .p1 (issue .p1 [0x39000002#32, 0#32] (frame 0 [0x3F800000, 0x40000000])) =
      some [0x39000000, 2, 0x3F800000, 0x40000000] ∧
    answer .p1 (issue .p1 [0x39000001#32, 0xFFFFFFFF#32] State.reset) = some [0x39000004, 0] := by decide +kernel
/-- A word no command has written reads as a free value, a new one on each read (10_state.md R42). -/
theorem test_scrRd_unwritten (n : Nat) : answer .p1 (exec (.scrRd 2 0) { State.reset with granted := .p1, draws := n }) =
    some [0x39000000, 2, Config.freeWord n .scr 0, Config.freeWord n .scr 1] := rfl
/-- V-SYS-10 with the word of the slot that is read, V-SYS-11. -/
theorem test_slotRd :
    answer .p1 (issue .p1 [0x3A500001#32, 0xFFF#32] { State.reset with slot2im := [(4095, 7)] }) = some [0x3A000000, 1, 7] ∧
    answer .p1 (issue .p1 [0x3A600001#32, 0#32] State.reset) = some [0x3A000004, 0] := by decide +kernel

/-! ### Tables, host moves, reset -/

/-- V-ROM-2, V-ROM-3, V-ROM-4, V-ROM-6, V-ROM-9. -/
theorem test_rom : [1, 256, 512, 1536, 4095].map (fun m => (romCos Params.reference m, romSin Params.reference m)) =
    [(0x3F7FFFEC, 0x3AC90FD5), (0x3F6C835E, 0x3EC3EF15), (0x3F3504F3, 0x3F3504F3), (0xBF3504F3, 0x3F3504F3),
     (0x3F7FFFEC, 0xBAC90FD5)] := by decide +kernel
/-- The host writes a header, and the argument word is still missing: the port waits (70_reset_and_hazards.md R335). -/
theorem test_port_waits :
    left (fun t => (t.p1.stream, t.p1.pos)) (step { State.reset with events := [.grant .p1], p1 := { PortState.reset with stream := [0x39000001] } }) =
      some ([0x39000001], 0) := by decide +kernel
/-- Words written while `rst_n` is low are discarded (70_reset_and_hazards.md R320). -/
theorem test_reset_discards :
    left (fun t => t.p0.stream) (step { State.reset with rstN := false, events := [.write .p0 0] }) = some [] := by decide +kernel
/-- Block reset: the values of 70_reset_and_hazards.md R320. -/
theorem test_reset_values :
    left (fun t => (t.regs, t.ring, t.p0)) (step { ringAt 2 2 abcd with fftn := 8, tin := 2, events := [.resetHigh] }) =
      some ({ cap := 0, ridx := 0, widx := 0, tin := 1, tout := 0, fftn := 0 }, [], PortState.reset) := by decide +kernel
/-- `withFetchWord` makes the next step run the row's command. -/
theorem test_withFetchWord :
    answer .p2 (step (State.reset.withFetchWord 32 0x23000000)) = some [0x23000000, 0] := by decide +kernel

/-! ### The assembler -/

/-- 30_encoding.md R117, R118: suffixes, a hexadecimal operand, a port and a comment. -/
theorem test_assemble : assembleLine "P1: SLOT_RD.s2.im 1, 0xFFF ; slot 2".toList =
    .commands (some .p1) [.slotRd 2 .im 1 0xFFF] := by decide +kernel
/-- 30_encoding.md R119: an operand that does not fit field A, an unknown mnemonic. -/
theorem test_assemble_refuses :
    assembleLine "RB_POP 1048576, 0".toList = .refusedLine .operandTooLarge ∧
    assembleLine "RB_SHOVE 1".toList = .refusedLine .unknownMnemonic := by decide +kernel
/-- 30_encoding.md R117: a port prefix with no blank behind it, a hexadecimal and a decimal payload word (0.1 to nearest is 0x3DCCCCCD). -/
theorem test_assemble_payload : assembleLine ("P1:SCR_WR 2, 0 ".toList ++ [Char.ofNat 0x7B] ++ "0xaF, f:0.1".toList ++ [Char.ofNat 0x7D]) =
    .commands (some .p1) [.scrWr 0 [0xAF, 0x3DCCCCCD]] := by decide +kernel
/-- 30_encoding.md R120, R123: a pseudo-instruction with no port goes to the port of its rule. -/
theorem test_assemble_pseudo_port : assembleLine "RB_CLEAR".toList = .commands (some .p1) [.rbSetnum .newest 0] ∧
    assembleLine "TB_RELEASE".toList = .commands (some .p2) [.tbUnlock] := by decide +kernel
/-- 30_encoding.md R126: ANALYZE on P1; the host stops while VALUE < N, and else sends steps 2 to 7, here with N = 2 and hop = 1. -/
theorem test_assemble_analyze : assembleLine "ANALYZE 1, 1".toList = .analysis .p1 1 true ∧
    analyzeNext 1 2 1 true [7, 8] = some [] ∧
    analyzeNext 2 2 1 true [7, 8] = some [.rbSetnum .newest 2, .tbStart, .rbPop 1 0, .rbPeek 1 1, .scrRd 2 0, .scrWr 0 [7, 8],
      .fftFwd .iterative, .tbStop] := by decide +kernel
/-- 30_encoding.md R126: 0 ≤ hop ≤ N, and the windowed frame has N words. -/
theorem test_assemble_analyze_bounds : analyzeNext 2 2 3 false [7, 8] = none ∧ analyzeNext 2 2 2 false [7] = none := by decide +kernel
/-- 30_encoding.md R124. -/
theorem test_assemble_pseudo : assembleLine "P2: READ_FRAME 8".toList =
    .commands (some .p2) [.tbLock, .tbRdout .re 8 0, .tbRdout .im 8 0, .tbUnlock] := by decide +kernel

/-! ### Witnesses: states and operands that meet the hypotheses of the obligations, at the ends of their ranges -/

/-- A state with every hypothesis the commands ask for: a ring of capacity 5 holding a, b, c, FFTN = 4, and a command waiting on P1. -/
def demo : State :=
  { ringAt 0 4 (abcd.take 3) with fftn := 4, granted := .p1, p1 := { PortState.reset with stream := [0x39000001, 0x00000000] } }

/-- The same state with another executing port. -/
def demoOn (p : Port) : State := { demo with granted := p }

/-- `demo` with events to come. -/
def demoThen (es : List Event) : State := { demo with events := es }

theorem demo_capLegal : demo.CapLegal := by unfold State.CapLegal; decide
theorem demo_cursorsLegal : demo.CursorsLegal := by unfold State.CursorsLegal; decide
theorem demo_indicesLegal : demo.IndicesLegal := by unfold State.IndicesLegal; decide
theorem demo_inv : demo.Inv where
  params := by decide
  cap := demo_capLegal
  cursors := demo_cursorsLegal
  indices := demo_indicesLegal
  size := Or.inr ⟨2, by decide, by decide⟩
  memories := by rintro (_ | _ | ⟨_ | _ | _, _ | _⟩) <;> decide
  quiet := fun h => absurd h (by decide)

theorem witness_DecodeInvertsEncode :
    (Instr.rbPush []).wellFormed = true ∧ (Instr.rbPush (List.replicate (2 ^ 20 - 1) 0)).wellFormed = true ∧
    (Instr.slotRd 3 .im 0xFFFFF 0xFFFFFFFF).wellFormed = true := ⟨by decide, test_wellFormed_accepts_longest, by decide⟩

theorem witness_DecodedWordsAreTheEncoding : decode [0x12000002#32, 5#32, 0#32] = .command (.rbPop 2 5) 2 := by decide

/-- The ends of the five reserved ranges, and the listed opcodes beside them. -/
theorem witness_ReservedOpcodeTakesOneWord :
    ([0x02, 0x0F, 0x17, 0x1F, 0x26, 0x2F, 0x33, 0x37, 0x3B, 0xFF] : List (BitVec 8)).all (fun c => Opcode.ofCode c == none) = true ∧
    ([0x01, 0x10, 0x16, 0x20, 0x25, 0x30, 0x32, 0x38, 0x3A] : List (BitVec 8)).all (fun c => (Opcode.ofCode c).isSome) = true ∧
    Opcode.ofCode (headerOpc 0x3B000000#32) = none ∧ demo.rstN = true ∧ (demo.port .p0).rsp = [] ∧
    (State.port { demo with p0 := { PortState.reset with stream := [0x3B000000, 7] } } .p0).stream = 0x3B000000#32 :: [7#32] := by
  decide

/-- A reserved F bit of a command with payload, and a reserved A. -/
theorem witness_ReservedFieldTakesWholeCommand :
    Opcode.ofCode (headerOpc 0x11100002#32) = some .rbPush ∧ Opcode.rbPush.bodyLength (headerA 0x11100002#32) ≤ [1#32, 2#32].length ∧
    headerF 0x11100002#32 &&& ~~~ Opcode.rbPush.usedF ≠ 0 ∧
    Opcode.ofCode (headerOpc 0x14000001#32) = some .rbNum ∧ Opcode.rbNum.bodyLength (headerA 0x14000001#32) ≤ ([] : List Word).length ∧
    Opcode.rbNum.reservedA = true ∧ headerA 0x14000001#32 ≠ 0 ∧
    demo.rstN = true ∧ (demo.port .p0).rsp = [] ∧
    (State.port { demo with p0 := { PortState.reset with stream := [0x11100002, 1, 2] } } .p0).stream = [0x11100002#32, 1, 2] := by decide

theorem witness_StepRunsTheDecodedCommand :
    demo.rstN = true ∧ (demo.port .p1).rsp = [] ∧ decode (demo.port .p1).stream = .command (.scrRd 1 0) 2 ∧
    (demoThen [.grant .p1]).events = .grant .p1 :: [] ∧ demo.events = [] ∧ demo.arbiter = some .p1 := by decide

/-- One port ready, one whose stream is empty, one that lacks its last word. -/
theorem witness_PortWaitsForItsWords :
    demo.rstN = true ∧ (demo.port .p1).rsp = [] ∧ demo.ready .p1 = true ∧ demo.ready .p0 = false ∧
    State.ready { demo with p1 := { PortState.reset with stream := [0x39000001] } } .p1 = false := by decide

theorem witness_UntakenResponsesHoldThePort :
    let s : State := { demoThen [.grant .p1] with p1 := { demo.p1 with rsp := [0] } }
    (s.port .p1).rsp ≠ [] ∧ s.noReset ∧ step s = .next { s with events := [] } :=
  ⟨by decide, ⟨by decide, by decide⟩, rfl⟩

theorem witness_StreamsAreTakenInOrder :
    (demoThen [.write .p1 7]).noReset ∧ step (demoThen [.write .p1 7]) =
      .next { demo with p1 := { PortState.reset with stream := [0x39000001, 0x00000000, 7] } } ∧
    (demoThen [.grant .p1]).noReset ∧ (∃ t, step (demoThen [.grant .p1]) = .next t ∧ (t.port .p1).pos = 2) :=
  ⟨⟨by decide, by decide⟩, rfl, ⟨by decide, by decide⟩, _, rfl, rfl⟩

theorem witness_HostMovesAreStreamMoves :
    (demoThen [.write .p2 7]).events = .write .p2 7 :: [] ∧ demo.rstN = true ∧
    (demoThen [.take .p1]).events = .take .p1 :: [] ∧
    (State.port { demo with p1 := { PortState.reset with rsp := [1, 2] } } .p1).rsp = 1#32 :: [2#32] ∧ (demo.port .p1).rsp = [] := by
  decide

/-- Each of the three cases: a success with data, a success without, an error of a command that could have had data. -/
theorem witness_ResponseLayout :
    (∃ t, exec (.scrRd 1 0) demo = .next t ∧ (t.port .p1).rsp.length = 3) ∧ (∃ t, exec .tbStart demo = .next t) ∧
    (∃ t, exec (.scrRd 1 4096) demo = .next t ∧ (t.port .p1).rsp = [0x39000004, 0]) := ⟨⟨_, rfl, rfl⟩, ⟨_, rfl⟩, ⟨_, rfl, rfl⟩⟩

theorem witness_ErrorsHaveNoEffect :
    let s : State := { demo with p0 := { PortState.reset with stream := [0x39000001, 0x00000000, 5] } }
    s.ready .p0 = true ∧ (s.port .p0).stream = 0x39000001#32 :: [0x00000000, 5] ∧
    (∃ t, runPort .p0 s = .next t ∧ (t.port .p0).rsp = 0x39000002#32 :: 0 :: []) ∧ (0x39000002#32).extractLsb' 0 8 ≠ 0#8 :=
  ⟨by decide, by decide, ⟨_, rfl, rfl⟩, by decide⟩

theorem witness_WrongPortIsRefused : (demoOn .p0).granted ∉ allowedPorts .rbSetcap ∧ (demoOn .p1).granted ∉ allowedPorts .rbPush ∧
    (demoOn .p2).granted ∉ allowedPorts .rbNum ∧ (demoOn .p1).granted ∉ allowedPorts .tbLock := by decide

theorem witness_UnconfiguredUnitsAreRefused : State.reset.cap = 0 ∧ State.reset.granted = .p0 ∧
    State.cap { State.reset with granted := .p1 } = 0 ∧ State.fftn { State.reset with granted := .p1 } = 0 ∧
    State.granted { State.reset with granted := .p1 } = .p1 := by decide

/-- One word past the end, at each end of the operands. -/
theorem witness_FrameRangeIsRefused : demo.params.nmax < (4096#32).toNat + (1#20).toNat ∧ demo.params.nmax < (0#32).toNat + (4097#20).toNat ∧
    demo.params.nmax < (0xFFFFFFFF#32).toNat + (0#20).toNat ∧ demo.granted = .p1 ∧ demo.cap ≠ 0 ∧ (demoOn .p2).granted = .p2 ∧
    demo.params.nmax < (4095#32).toNat + [1#32, 2#32].length := by decide

/-- Either edge. -/
theorem witness_BlockResetLeavesTheResetState :
    (demoThen [.resetHigh]).events = (if true then Event.resetHigh else Event.resetLow) :: [] ∧
    (demoThen [.resetLow]).events = (if false then Event.resetHigh else Event.resetLow) :: [] := ⟨rfl, rfl⟩

theorem witness_NothingMovesInReset :
    let s : State := { State.reset with rstN := false, events := [.write .p0 7] }
    s.rstN = false ∧ s.ResetQuiet ∧ s.noReset ∧ step s = .next { State.reset with rstN := false } :=
  ⟨rfl, fun _ p => by cases p <;> rfl, ⟨by decide, by decide⟩, rfl⟩

/-- Selectors 0 and 7, and 8. -/
theorem witness_StatReadsTheSelectedRegister :
    ([5, 0, 4, 1, 0, 4, 12, 32768] : List Nat)[(0#20).toNat]? = some 5 ∧
    ([5, 0, 4, 1, 0, 4, 12, 32768] : List Nat)[(7#20).toNat]? = some 32768 ∧ 7 < (8#20).toNat := by decide

theorem witness_ScrWrStoresThePayload : demo.granted = .p1 ∧ (4094#32).toNat + [1#32, 2#32].length ≤ demo.params.nmax ∧
    (4096#32).toNat + ([] : List Word).length ≤ demo.params.nmax := by decide

theorem witness_ScrRdAnswersTheWords : demo.granted = .p1 ∧ (0#32).toNat + (4096#20).toNat ≤ demo.params.nmax ∧
    (4096#32).toNat + (0#20).toNat ≤ demo.params.nmax := by decide

theorem witness_SlotRdAnswersTheWords : demo.granted = .p1 ∧ (4095#32).toNat + (1#20).toNat ≤ demo.params.nmax ∧
    (2#2, Slot.s2) ∈ [(0#2, Slot.s0), (1#2, Slot.s1), (2#2, Slot.s2)] ∧ (3#2 : BitVec 2) = 3 := by decide

/-- The smallest ring, empty and full. -/
theorem witness_NumPlusRemIsCapMinusOne : 2 ≤ demo.cap.toNat ∧ 2 ≤ (State.cap { demo with cap := 2, ridx := 0, widx := 1 }).toNat ∧
    2 ≤ (State.cap { demo with cap := 2, ridx := 0, widx := 0 }).toNat := by decide

theorem witness_RbSetcapEmptiesTheRing : demo.granted = .p1 ∧ (1 ≤ (1#20).toNat ∧ (1#20).toNat + 1 ≤ demo.params.rbDepth.toNat) ∧
    (1 ≤ (32767#20).toNat ∧ (32767#20).toNat + 1 ≤ demo.params.rbDepth.toNat) ∧ (0#20).toNat = 0 ∧
    demo.params.rbDepth.toNat ≤ (32768#20).toNat := by decide

/-- Three words into one free slot: the first fits. -/
theorem witness_RbPushStoresWhatFits : (demoOn .p0).granted = .p0 ∧ (demoOn .p0).cap ≠ 0 ∧ (demoOn .p0).CapLegal ∧
    0 < [1#32, 2#32, 3#32].length ∧ 0 < (demoOn .p0).rem := ⟨rfl, by decide, demo_capLegal, by decide, by decide⟩

theorem witness_RbPopTakesTheOldest : demo.granted = .p1 ∧ demo.cap ≠ 0 ∧ demo.CapLegal ∧
    (4093#32).toNat + (3#20).toNat ≤ demo.params.nmax ∧ 2 < min (3#20).toNat demo.num :=
  ⟨rfl, by decide, demo_capLegal, by decide, by decide⟩

theorem witness_RbPeekCopiesTheOldest : demo.granted = .p1 ∧ demo.cap ≠ 0 ∧ demo.CapLegal ∧
    (4096#32).toNat + (0#20).toNat ≤ demo.params.nmax ∧ 0 < min (1#20).toNat demo.num :=
  ⟨rfl, by decide, demo_capLegal, by decide, by decide⟩

theorem witness_RbNumAndRbRemAnswerTheCounts : (demoOn .p0).granted = .p0 ∧ demo.granted = .p1 ∧ demo.cap ≠ 0 := by decide

/-- n below Num and n = Num. -/
theorem witness_RbSetnumTruncates : demo.granted = .p1 ∧ demo.cap ≠ 0 ∧ demo.params.legal = true ∧ demo.CapLegal ∧ demo.CursorsLegal ∧
    ¬ demo.num ≤ (2#20).toNat ∧ demo.num ≤ (3#20).toNat :=
  ⟨rfl, by decide, by decide, demo_capLegal, demo_cursorsLegal, by decide, by decide⟩

theorem witness_RbClearMovesRidxBehindWidx : demo.granted = .p1 ∧ demo.cap ≠ 0 ∧ demo.params.legal = true ∧ demo.CapLegal ∧
    demo.CursorsLegal := ⟨rfl, by decide, by decide, demo_capLegal, demo_cursorsLegal⟩

theorem witness_RingRefinesAQueue : demo.cap ≠ 0 ∧ demo.params.legal = true ∧ demo.CapLegal ∧ demo.CursorsLegal ∧
    ((demoOn .p0).granted = .p0 ∧ ∃ t, exec (.rbPush [1, 2]) (demoOn .p0) = .next t) ∧
    (demo.granted = .p1 ∧ (0#32).toNat + (4096#20).toNat ≤ demo.params.nmax ∧ ∃ t, exec (.rbPop 4096 0) demo = .next t) ∧
    (∃ t, exec (.rbPeek 1 0) demo = .next t) ∧ (∃ t, exec .rbNum demo = .next t ∨ exec .rbRem demo = .next t) ∧
    (∃ t, exec (.rbSetnum .newest 1) demo = .next t) ∧ (∃ t, exec (.rbSetnum .oldest 1) demo = .next t) ∧
    (1 ≤ (32767#20).toNat ∧ (32767#20).toNat + 1 ≤ demo.params.rbDepth.toNat ∧ ∃ t, exec (.rbSetcap 32767) demo = .next t) :=
  ⟨by decide, by decide, demo_capLegal, demo_cursorsLegal, ⟨rfl, _, rfl⟩, ⟨rfl, by decide, _, rfl⟩, ⟨_, rfl⟩, ⟨_, Or.inl rfl⟩, ⟨_, rfl⟩,
    ⟨_, rfl⟩, ⟨by decide, by decide, _, rfl⟩⟩

theorem witness_RotationsTakeTheThirdSlot : (2#2 : BitVec 2) ≠ 3 ∧ (0#2 : BitVec 2) ≠ 3 ∧ (2#2 : BitVec 2) ≠ 0 ∧ demo.granted = .p1 ∧
    demo.IndicesLegal ∧ (demoOn .p2).granted = .p2 ∧ (demoOn .p2).IndicesLegal :=
  ⟨by decide, by decide, by decide, rfl, demo_indicesLegal, rfl, demo_indicesLegal⟩

theorem witness_TbStartAndTbLockNameTheSlots : demo.granted = .p1 ∧ (demoOn .p2).granted = .p2 := by decide

theorem witness_TbResetClearsTheSlots : demo.granted = .p1 ∧ 0 < demo.params.nmax ∧ 4095 < demo.params.nmax := by decide

theorem witness_TbRdoutAnswersSlotTout : (demoOn .p2).granted = .p2 ∧ (4095#32).toNat + (1#20).toNat ≤ demo.params.nmax ∧
    ((demoOn .p2).tout, Slot.s0) ∈ [(0#2, Slot.s0), (1#2, Slot.s1), (2#2, Slot.s2)] := by decide

theorem witness_ConsumerTakesThePublishedSlot : demo.IndicesLegal ∧ demo.granted = .p1 ∧
    ∃ a b c d e, exec .tbStop demo = .next a ∧ exec .tbStop a = .next b ∧ exec .tbUnlock { a with granted := .p2 } = .next c ∧
      exec .tbUnlock { b with granted := .p2 } = .next e ∧ exec .tbUnlock c = .next d :=
  ⟨demo_indicesLegal, rfl, _, _, _, _, _, rfl, rfl, rfl, rfl, rfl⟩

theorem witness_IndicesStayApart : demo.IndicesLegal ∧ (∃ t, step demo = .next t) ∧ demo.granted = .p1 ∧
    (∃ t, exec .tbReset demo = .next t) ∧ (∃ t, exec .tbStop demo = .next t ∧ t.tin ≠ demo.tin) :=
  ⟨demo_indicesLegal, ⟨_, rfl⟩, rfl, ⟨_, rfl⟩, ⟨_, rfl, by decide⟩⟩

/-- A transform beside slot TOUT, a command of P2, and the one command that moves TOUT. -/
theorem witness_ConsumerSlotIsStable : demo.IndicesLegal ∧ (∃ t, exec (.fftCfg 8) demo = .next t) ∧ Instr.fftCfg 8 ≠ .tbReset ∧
    (demo.tout, Slot.s0) ∈ [(0#2, Slot.s0), (1#2, Slot.s1), (2#2, Slot.s2)] ∧ (demoOn .p2).granted = .p2 ∧
    (∃ t, exec .tbUnlock (demoOn .p2) = .next t ∧ t.tout ≠ (demoOn .p2).tout) :=
  ⟨demo_indicesLegal, ⟨_, rfl⟩, by decide, by decide, rfl, ⟨_, rfl, by decide⟩⟩

/-- Two states that differ in RING and in slot 1, read through slot 0. -/
theorem witness_ReaderSeesOnlySlotTout :
    let s := demoOn .p2
    let s' : State := { demoOn .p2 with ring := [], slot1re := [(0, 7)] }
    s.granted = .p2 ∧ s'.granted = .p2 ∧ s.regs = s'.regs ∧ s.params = s'.params ∧ s.draws = s'.draws ∧ s.p2 = s'.p2 ∧
    (∀ k part a, slotOf s.tout = some k → s.word? (.slot k part) a = s'.word? (.slot k part) a) ∧
    (∃ t, exec (.tbRdout .re 1 0) s = .next t) ∧ (∃ t, exec (.tbRdout .re 1 0) s' = .next t) := by
  refine ⟨rfl, rfl, rfl, rfl, rfl, rfl, ?_, ⟨_, rfl⟩, ⟨_, rfl⟩⟩
  intro k part a hk
  have : k = .s0 := by simpa [slotOf, demoOn, demo, ringAt, State.reset, State.resetOf] using hk.symm
  subst this
  cases part <;> rfl

theorem witness_RegistersHaveTheirWriters : (∃ t, exec (.rbSetcap 1) demo = .next t ∧ t.cap ≠ demo.cap ∧ t.widx ≠ demo.widx) ∧
    (∃ t, exec (.rbPop 1 0) demo = .next t ∧ t.ridx ≠ demo.ridx) ∧ (∃ t, exec .tbStop demo = .next t ∧ t.tin ≠ demo.tin) ∧
    (∃ t, exec .tbUnlock (demoOn .p2) = .next t ∧ t.tout ≠ demo.tout) ∧ (∃ t, exec (.fftCfg 1) demo = .next t ∧ t.fftn ≠ demo.fftn) :=
  ⟨⟨_, rfl, by decide, by decide⟩, ⟨_, rfl, by decide⟩, ⟨_, rfl, by decide⟩, ⟨_, rfl, by decide⟩, ⟨_, rfl, by decide⟩⟩

theorem witness_MemoriesHaveTheirWriters :
    (∃ t, exec (.rbPush [9]) (demoOn .p0) = .next t ∧ t.word? .ring 4 ≠ demo.word? .ring 4) ∧
    (∃ t, exec (.scrWr 0 [9]) demo = .next t ∧ t.word? .scr 0 ≠ demo.word? .scr 0) ∧
    (∃ t, exec (.fftFwd .iterative) { frame 1 [9] with granted := .p1 } = .next t ∧
      t.word? (.slot .s1 .re) 0 ≠ (frame 1 [9]).word? (.slot .s1 .re) 0) :=
  ⟨⟨_, rfl, by decide⟩, ⟨_, rfl, by decide⟩, ⟨_, rfl, by decide +kernel⟩⟩

/-- N = 1 and N = NMAX; N = 0, N = 3 and N = 2 · NMAX. -/
theorem witness_FftCfgAcceptsPowersOfTwo : demo.granted = .p1 ∧ (∃ k, k ≤ demo.params.log2Nmax.toNat ∧ (1#20).toNat = 2 ^ k) ∧
    (∃ k, k ≤ demo.params.log2Nmax.toNat ∧ (4096#20).toNat = 2 ^ k) ∧
    ¬ (∃ k, k ≤ demo.params.log2Nmax.toNat ∧ (0#20).toNat = 2 ^ k) ∧ ¬ (∃ k, k ≤ demo.params.log2Nmax.toNat ∧ (3#20).toNat = 2 ^ k) ∧
    ¬ (∃ k, k ≤ demo.params.log2Nmax.toNat ∧ (8192#20).toNat = 2 ^ k) := by
  refine ⟨rfl, ⟨0, by decide, by decide⟩, ⟨12, by decide, by decide⟩, ?_, ?_, ?_⟩ <;>
    rw [← isFftSize_iff] <;> decide

/-- The smallest and the largest transform of the reference FFTU. -/
theorem witness_FftFwdFillsSlotTin : demo.granted = .p1 ∧ (State.fftn { demo with fftn := 1 }).toNat = 2 ^ 0 ∧
    (State.fftn { demo with fftn := 4096 }).toNat = 2 ^ 12 ∧ 12 ≤ demo.params.log2Nmax.toNat ∧
    (demo.tin, Slot.s1) ∈ [(0#2, Slot.s0), (1#2, Slot.s1), (2#2, Slot.s2)] := by decide

theorem witness_FftInvFillsScratch : demo.granted = .p1 ∧ demo.fftn.toNat = 2 ^ 2 ∧ 2 ≤ demo.params.log2Nmax.toNat ∧
    (demo.tin, Slot.s1) ∈ [(0#2, Slot.s0), (1#2, Slot.s1), (2#2, Slot.s2)] := by decide

theorem witness_BitrevReversesTheBits : 0 < 2 ^ 0 ∧ 6 < 2 ^ 3 ∧ 0 < 3 := by decide

theorem witness_PermuteIsBitReversal : ([(1, 2)] : List Cx).length = 2 ^ 0 ∧ ([(1, 2), (3, 4)] : List Cx).length = 2 ^ 1 ∧ 1 < 2 ^ 1 := by
  decide

/-- The second stage of a transform of four words, at its second position. -/
theorem witness_StageIsButterfliesOnDisjointPairs (nu : NanSource) (p : Params) :
    ∃ (w : Nat → Cx) (o : Cx) (a : List Cx), 1 ≤ 2 ∧ 2 ≤ 2 ∧ a.length = 2 ^ 2 ∧ o = tw p (p.nmax / 2 ^ 2) ∧
      w 0 = (0x3F800000#32, 0x00000000#32) ∧
      (∀ j, w (j + 1) =
        (fsub (nu [4, j, 2]) (fmul (nu [0, j, 2]) (w j).1 o.1) (fmul (nu [1, j, 2]) (w j).2 o.2),
         fadd (nu [5, j, 2]) (fmul (nu [2, j, 2]) (w j).1 o.2) (fmul (nu [3, j, 2]) (w j).2 o.1))) ∧
      1 < 2 ^ (2 - 1) ∧ 0 < 2 ^ 2 / 2 ^ 2 ∧ 1 = 1 + 0 * 2 ^ 2 ∧ a[1]? = some (3, 4) ∧ a[1 + 2 ^ (2 - 1)]? = some (7, 8) :=
  ⟨fun j => j.rec (0x3F800000#32, 0x00000000#32) fun j w => cmul nu [j, 2] w (tw p (p.nmax / 2 ^ 2)), tw p (p.nmax / 2 ^ 2),
    [(1, 2), (3, 4), (5, 6), (7, 8)], by decide, by decide, rfl, rfl, rfl, fun _ => rfl, by decide, by decide, rfl, rfl, rfl⟩

/-- Two words: the permutation leaves them where they are, one stage, and the sums of every k. -/
theorem witness_ForwardTransformsFollowTheirRules (nu : NanSource) (p : Params) (k : Nat) :
    ∃ (x : List Word) (a : Nat → List Cx) (acc : Nat → Cx), x.length = 2 ^ 1 ∧ (a 0).length = 2 ^ 1 ∧
      (∀ i (h : i < x.length), (a 0)[bitrev 1 i]? = some (x[i], 0x00000000#32)) ∧
      (∀ s, s < 1 → a (s + 1) = networkStage nu p 1 (s + 1) (a s)) ∧ acc 0 = (0x00000000#32, 0x00000000#32) ∧
      (∀ n (h : n < x.length) (c : Cx), c = tw p ((k * n) % 2 ^ 1 * (p.nmax / 2 ^ 1)) →
        acc (n + 1) = (fadd (nu [2, n, k]) (acc n).1 (fmul (nu [0, n, k]) x[n] c.1),
          fadd (nu [3, n, k]) (acc n).2 (fmul (nu [1, n, k]) x[n] c.2))) := by
  refine ⟨[5, 6], fun s => s.rec [(5, 0), (6, 0)] fun s a => networkStage nu p 1 (s + 1) a,
    fun n => n.rec (0, 0) fun n acc => directForwardStep nu p 1 [5, 6] k acc n, rfl, rfl, ?_, fun _ _ => rfl, rfl, ?_⟩
  · intro i h
    have : i = 0 ∨ i = 1 := by simp at h; omega
    rcases this with rfl | rfl <;> rfl
  · rintro n h c rfl
    have : n = 0 ∨ n = 1 := by simp at h; omega
    rcases this with rfl | rfl <;> rfl

/-- The same for the inverse transforms, with their scale 2^-1 = 0x3F000000. -/
theorem witness_InverseTransformsFollowTheirRules (nu : NanSource) (p : Params) (n : Nat) :
    ∃ (x : List Cx) (a : Nat → List Cx) (acc : Nat → Word), x.length = 2 ^ 1 ∧ 0x3F000000#32 = BitVec.ofNat 32 ((127 - 1) * 2 ^ 23) ∧
      (a 0).length = 2 ^ 1 ∧ (∀ i (h : i < x.length), (a 0)[bitrev 1 i]? = some (x[i].1, x[i].2 ^^^ 0x80000000#32)) ∧
      (∀ s, s < 1 → a (s + 1) = networkStage nu p 1 (s + 1) (a s)) ∧ 1 < (a 1).length ∧ acc 0 = 0x00000000#32 ∧
      (∀ k (h : k < x.length) (c : Cx), c = tw p ((k * n) % 2 ^ 1 * (p.nmax / 2 ^ 1)) →
        acc (k + 1) = fadd (nu [3, k, n]) (acc k)
          (fadd (nu [2, k, n]) (fmul (nu [0, k, n]) x[k].1 c.1) (fmul (nu [1, k, n]) x[k].2 c.2))) := by
  refine ⟨[(5, 7), (6, 8)], fun s => s.rec [(5, fneg 7), (6, fneg 8)] fun s a => networkStage nu p 1 (s + 1) a,
    fun k => k.rec 0 fun k acc => directInverseStep nu p 1 [(5, 7), (6, 8)] n acc k, rfl, by decide, rfl, ?_, fun _ _ => rfl, ?_, rfl, ?_⟩
  · intro i h
    have : i = 0 ∨ i = 1 := by simp at h; omega
    rcases this with rfl | rfl <;> rfl
  · simp
  · rintro k h c rfl
    have : k = 0 ∨ k = 1 := by simp at h; omega
    rcases this with rfl | rfl <;> rfl

theorem witness_OnePointTransforms : Params.reference.legal = true ∧ isNaN 0x80000000#32 = false ∧ isInf 0x80000000#32 = false ∧
    isNaN 0x7F800000#32 = false ∧ isInf 0x7F800000#32 = true ∧ isNaN canonicalNaN = true ∧ isNaN 0x7FC00001#32 = true ∧
    fExp 0x80000000#32 ≠ 255 ∧ fExp 0xFF800000#32 = 255 ∧ (∀ site : List Nat, isNaN ((fun _ => canonicalNaN : NanSource) site) = true) :=
  ⟨by decide, by decide, by decide, by decide, by decide, by decide, by decide, by decide, by decide, fun _ => (by decide : isNaN canonicalNaN = true)⟩

/-- A finite sum, the greatest finite word, and a sum that overflows. -/
theorem witness_FaddRoundsToNearestEven : fExp 0x00000001#32 ≠ 255 ∧ fExp 0x7F7FFFFF#32 ≠ 255 ∧
    isInf (fadd 0 0x00000001#32 0x7F7FFFFF#32) = false ∧ isInf (fadd 0 0x7F7FFFFF#32 0x7F7FFFFF#32) = true := by decide +kernel

/-- A product that underflows to zero from a tie, and one that overflows. -/
theorem witness_FmulRoundsToNearestEven : fExp 0x00000001#32 ≠ 255 ∧ fExp 0x3F000000#32 ≠ 255 ∧
    isInf (fmul 0 0x00000001#32 0x3F000000#32) = false ∧ isInf (fmul 0 0x7F7FFFFF#32 0x40000000#32) = true := by decide +kernel

theorem witness_SpecialValuesFollowIeee : isNaN 0x7FC00000#32 = true ∧ isInf 0x7F800000#32 = true ∧ fExp 0x3F800000#32 ≠ 255 ∧
    isNaN (fadd 0x7FC00000#32 0x7F800000#32 0xFF800000#32) = true ∧ isNaN (fmul 0x7FC00000#32 0x00000000#32 0x7F800000#32) = true ∧
    fInt 0x80000000#32 + fInt 0x80000000#32 = 0 ∧ fSign 0x80000000#32 = true ∧
    isNaN (fmul 0x7FC00000#32 0xFF800000#32 0x3F800000#32) = false ∧ fSign 0x7F800000#32 = fSign 0x7F800000#32 ∧
    State.nanSource State.reset [0] = 0x7FC00000 ∧ State.reset.params.nanMode = .canonical := by decide +kernel

theorem witness_RomEntriesDependOnTheAngle : (12 ≤ 12 ∧ 12 ≤ 19) ∧ (12 ≤ 19 ∧ 19 ≤ 19) ∧ 2 ≤ 2 ∧
    Params.reference.nmax = 2 ^ 12 ∧ Params.reference.twiddleSign = .plus ∧
    Params.twiddleSign { Params.reference with twiddleSign := .minus } = .minus := by decide

theorem witness_ReferenceRomIsCorrectlyRounded : 0 < 4096 ∧ 4095 < 4096 ∧ fExp 0x3F7FFFEC#32 ≠ 255 := by decide

/-- The reference parameters, the smallest and the largest. -/
theorem witness_ResetMeetsTheInvariant : Params.reference.legal = true ∧
    Params.legal { Params.reference with rbDepth := 2 } = true ∧
    Params.legal { Params.reference with log2Nmax := 19, rbDepth := 1048576 } = true := by decide

theorem witness_EveryStepKeepsTheInvariant : demo.Inv ∧ ∃ t, step demo = .next t := ⟨demo_inv, _, rfl⟩

theorem demo_queue : demo.queue = [some 0xA0, some 0xA1, some 0xA2] := by decide +kernel

theorem witness_StoredRingWordsAreWritten : demo.Inv ∧ demo.QueueWritten ∧ ∃ t, step demo = .next t :=
  ⟨demo_inv, fun _ => by rw [demo_queue]; simp, _, rfl⟩

theorem witness_ReadyPortsAreServed : demo.Inv ∧ demo.events = [] ∧ demo.ready .p1 = true := ⟨demo_inv, rfl, by decide⟩

/-- The largest A and B, a payload, and F of a suffix. -/
theorem witness_AssembledCommandsHaveTheirOperands :
    assembleCommand .rbPush 0 [2] [0xA0, 0xA1] = .ok (.rbPush [0xA0, 0xA1]) ∧
    [2] = (if Opcode.rbPush.reservedA then [] else [2]) ++ (if Opcode.rbPush.hasB then [0] else []) ∧
    assembleCommand .scrRd 0 [1048575, 4294967295] [] = .ok (.scrRd 0xFFFFF 0xFFFFFFFF) ∧
    [1048575, 4294967295] = (if Opcode.scrRd.reservedA then [] else [1048575]) ++ (if Opcode.scrRd.hasB then [4294967295] else []) ∧
    assembleCommand .fftFwd 1 [] [] = .ok (.fftFwd .direct) ∧ Opcode.fftFwd.reservedA = true ∧ 1#4 &&& ~~~ Opcode.fftFwd.usedF = 0 :=
  ⟨rfl, rfl, rfl, rfl, rfl, rfl, by decide⟩

end Sys2Proof.Tests
end

section
/-! Bit reversal of an index (00_scope.md R15): the bits of `bitrev L i`, and from them that `bitrev L` is an involution below `2 ^ L`. -/

namespace Sys2Proof.Machine

/-- Bit 0 of `i` becomes the top bit; the bits below it are the reversal of `i / 2`. -/
theorem testBit_bitrev (L i b : Nat) (h : b < L) : (bitrev L i).testBit b = i.testBit (L - 1 - b) := by
  induction L generalizing i with
  | zero => omega
  | succ L ih =>
    rw [bitrev, Nat.mul_comm, Nat.testBit_two_pow_mul_add _ (bitrev_lt L _)]
    by_cases hb : b < L
    · have hidx : L + 1 - 1 - b = (L - 1 - b) + 1 := by omega
      rw [if_pos hb, ih _ hb, hidx, Nat.testBit_succ]
    · obtain rfl : b = L := by omega
      simp

/-- Below `L`, bit `b` goes to `L - 1 - b` and back; from `L` on, both sides have no bit. -/
theorem bitrev_bitrev {L i : Nat} (hi : i < 2 ^ L) : bitrev L (bitrev L i) = i := by
  refine Nat.eq_of_testBit_eq fun b => ?_
  obtain hb | hb := Nat.lt_or_ge b L
  · have hback : L - 1 - (L - 1 - b) = b := by omega
    rw [testBit_bitrev _ _ _ hb, testBit_bitrev _ _ _ (by omega), hback]
  · have hpow : 2 ^ L ≤ 2 ^ b := Nat.pow_le_pow_right Nat.two_pos hb
    have hrev : bitrev L (bitrev L i) < 2 ^ L := bitrev_lt ..
    rw [Nat.testBit_lt_two_pow (hrev.trans_le hpow), Nat.testBit_lt_two_pow (hi.trans_le hpow)]

/-- Settles O45: the bits by induction on `L`, the involution by comparing bits. -/
theorem bitrevReversesTheBits : Obligations.BitrevReversesTheBits := fun L i hi =>
  ⟨bitrev_lt L i, testBit_bitrev L i, bitrev_bitrev hi⟩

end Sys2Proof.Machine
end

section
/-! Which command writes which register, said once about `effect` (10_state.md R32 to R38); the statement about `exec` follows. -/

namespace Sys2Proof.Machine

/-- Truncating leaves the ring alone or moves one cursor, the one the mode names (40_ring_buffer.md R153). -/
theorem truncate_cases (s : State) (r : Retain) (n : Nat) :
    s.truncate r n = s ∨ (r = .newest ∧ ∃ k, s.truncate r n = s.advanceRidx k) ∨
      (r = .oldest ∧ ∃ d, s.truncate r n = s.moveWidx d) := by
  unfold State.truncate
  split
  · cases r with
    | newest => exact .inr (.inl ⟨rfl, _, rfl⟩)
    | oldest => exact .inr (.inr ⟨rfl, _, rfl⟩)
  · exact .inl rfl

@[simp] theorem truncate_cap (s : State) (r : Retain) (n : Nat) : (s.truncate r n).cap = s.cap := by
  obtain e | ⟨-, k, e⟩ | ⟨-, d, e⟩ := truncate_cases s r n <;> simp [e]
@[simp] theorem truncate_tin (s : State) (r : Retain) (n : Nat) : (s.truncate r n).tin = s.tin := by
  obtain e | ⟨-, k, e⟩ | ⟨-, d, e⟩ := truncate_cases s r n <;> simp [e]
@[simp] theorem truncate_tout (s : State) (r : Retain) (n : Nat) : (s.truncate r n).tout = s.tout := by
  obtain e | ⟨-, k, e⟩ | ⟨-, d, e⟩ := truncate_cases s r n <;> simp [e]
@[simp] theorem truncate_fftn (s : State) (r : Retain) (n : Nat) : (s.truncate r n).fftn = s.fftn := by
  obtain e | ⟨-, k, e⟩ | ⟨-, d, e⟩ := truncate_cases s r n <;> simp [e]
@[simp] theorem truncate_oldest_ridx (s : State) (n : Nat) : (s.truncate .oldest n).ridx = s.ridx := by
  obtain e | ⟨hr, -⟩ | ⟨-, d, e⟩ := truncate_cases s .oldest n
  · rw [e]
  · cases hr
  · rw [e, moveWidx_ridx]
@[simp] theorem truncate_newest_widx (s : State) (n : Nat) : (s.truncate .newest n).widx = s.widx := by
  obtain e | ⟨-, k, e⟩ | ⟨hr, -⟩ := truncate_cases s .newest n
  · rw [e]
  · rw [e, advanceRidx_widx]
  · cases hr

@[simp] theorem clearSlots_cap (s : State) : s.clearSlots.cap = s.cap := rfl
@[simp] theorem clearSlots_ridx (s : State) : s.clearSlots.ridx = s.ridx := rfl
@[simp] theorem clearSlots_widx (s : State) : s.clearSlots.widx = s.widx := rfl
@[simp] theorem clearSlots_fftn (s : State) : s.clearSlots.fftn = s.fftn := rfl

variable {i : Instr} {s : State}

/-- The writer of CAP (10_state.md R32). -/
theorem writer_of_cap (h : (effect i s).cap ≠ s.cap) : ∃ n, i = .rbSetcap n := by
  cases i with
  | rbSetcap n => exact ⟨n, rfl⟩
  | _ => simp [effect] at h

/-- The writers of RIDX (10_state.md R33). -/
theorem writer_of_ridx (h : (effect i s).ridx ≠ s.ridx) :
    (∃ count off, i = .rbPop count off) ∨ (∃ n, i = .rbSetcap n) ∨ ∃ n, i = .rbSetnum .newest n := by
  cases i with
  | rbPop count off => exact .inl ⟨count, off, rfl⟩
  | rbSetcap n => exact .inr (.inl ⟨n, rfl⟩)
  | rbSetnum retain n =>
    cases retain with
    | newest => exact .inr (.inr ⟨n, rfl⟩)
    | oldest => simp [effect] at h
  | _ => simp [effect] at h

/-- The writers of WIDX (10_state.md R34). -/
theorem writer_of_widx (h : (effect i s).widx ≠ s.widx) :
    (∃ data, i = .rbPush data) ∨ (∃ n, i = .rbSetcap n) ∨ ∃ n, i = .rbSetnum .oldest n := by
  cases i with
  | rbPush data => exact .inl ⟨data, rfl⟩
  | rbSetcap n => exact .inr (.inl ⟨n, rfl⟩)
  | rbSetnum retain n =>
    cases retain with
    | newest => simp [effect] at h
    | oldest => exact .inr (.inr ⟨n, rfl⟩)
  | _ => simp [effect] at h

/-- The writers of TIN (10_state.md R36). -/
theorem writer_of_tin (h : (effect i s).tin ≠ s.tin) : i = .tbStop ∨ i = .tbReset := by
  cases i with
  | tbStop => exact .inl rfl
  | tbReset => exact .inr rfl
  | _ => simp [effect] at h

/-- The writers of TOUT (10_state.md R36). -/
theorem writer_of_tout (h : (effect i s).tout ≠ s.tout) : i = .tbUnlock ∨ i = .tbReset := by
  cases i with
  | tbUnlock => exact .inl rfl
  | tbReset => exact .inr rfl
  | _ => simp [effect] at h

/-- The writer of FFTN (10_state.md R37). -/
theorem writer_of_fftn (h : (effect i s).fftn ≠ s.fftn) : ∃ n, i = .fftCfg n := by
  cases i with
  | fftCfg n => exact ⟨n, rfl⟩
  | _ => simp [effect] at h

/-- A command that answers has left the registers alone, or was on one of its ports and has left them as its effect does. -/
theorem exec_regs {t : State} (h : exec i s = .next t) :
    t.regs = s.regs ∨ (s.granted ∈ allowedPorts i.opcode ∧ t.regs = (effect i s).regs) := by
  obtain ⟨st, -, -, e⟩ | ⟨hg, -, v, data, -, e⟩ | ⟨f, e⟩ := exec_cases i s <;> rw [e] at h
  · cases h; exact .inl (raise_regs ..)
  · cases h; exact .inr ⟨hg, reply_regs ..⟩
  · cases h

/-- Settles O40: a success changes what `effect` changes, on the ports of its opcode; an error changes nothing. -/
theorem registersHaveTheirWriters : Obligations.RegistersHaveTheirWriters := by
  intro i s t h
  have hregs := exec_regs h
  simp only [State.regs, Regs.mk.injEq] at hregs
  obtain ⟨hcap, hridx, hwidx, htin, htout, hfftn⟩ | ⟨hg, hcap, hridx, hwidx, htin, htout, hfftn⟩ := hregs
  · simp [hcap, hridx, hwidx, htin, htout, hfftn]
  rw [hcap, hridx, hwidx, htin, htout, hfftn]
  refine ⟨fun hw => ?_, fun hw => ?_, fun hw => ?_, fun hw => ?_, fun hw => ?_, fun hw => ?_⟩
  · obtain ⟨n, rfl⟩ := writer_of_cap hw
    exact ⟨rfl, List.mem_singleton.1 hg⟩
  · obtain ⟨count, off, rfl⟩ | ⟨n, rfl⟩ | ⟨n, rfl⟩ := writer_of_ridx hw
    · exact ⟨.inl rfl, List.mem_singleton.1 hg⟩
    · exact ⟨.inr (.inl rfl), List.mem_singleton.1 hg⟩
    · exact ⟨.inr (.inr ⟨n, rfl⟩), List.mem_singleton.1 hg⟩
  · obtain ⟨data, rfl⟩ | ⟨n, rfl⟩ | ⟨n, rfl⟩ := writer_of_widx hw
    · exact .inl ⟨rfl, List.mem_singleton.1 hg⟩
    · exact .inr ⟨.inl rfl, List.mem_singleton.1 hg⟩
    · exact .inr ⟨.inr ⟨n, rfl⟩, List.mem_singleton.1 hg⟩
  · obtain rfl | rfl := writer_of_tin hw
    · exact ⟨.inl rfl, List.mem_singleton.1 hg⟩
    · exact ⟨.inr rfl, List.mem_singleton.1 hg⟩
  · obtain rfl | rfl := writer_of_tout hw
    · exact .inl ⟨rfl, List.mem_singleton.1 hg⟩
    · exact .inr ⟨rfl, List.mem_singleton.1 hg⟩
  · obtain ⟨n, rfl⟩ := writer_of_fftn hw
    exact ⟨rfl, List.mem_singleton.1 hg⟩

end Sys2Proof.Machine
end

section
/-! The command streams under a step (10_state.md R41, 60_exceptions.md R292): what each move of a step does to a port. -/

namespace Sys2Proof.Machine

@[simp] theorem withEvents_port (s : State) (es : List Event) (p : Port) : State.port { s with events := es } p = s.port p := by
  cases p <;> rfl

/-- A host write reaches its own port's stream, and that only out of reset (70_reset_and_hazards.md R320). -/
theorem hostWrite_port (s : State) (p q : Port) (w : Word) :
    (s.hostWrite q w).port p =
      { s.port p with stream := (s.port p).stream ++ if q = p ∧ s.rstN = true then [w] else [] } := by
  unfold State.hostWrite
  by_cases hr : s.rstN = true
  · obtain rfl | hne := eq_or_ne q p
    · simp [hr]
    · simp [hr, hne, hne.symm]
  · simp [hr]

/-- The host taking a response word leaves the position and the stream of every port. -/
theorem hostTake_port (s : State) (p q : Port) :
    ((s.hostTake q).port p).pos = (s.port p).pos ∧ ((s.hostTake q).port p).stream = (s.port p).stream := by
  unfold State.hostTake
  split
  · exact ⟨rfl, rfl⟩
  · obtain rfl | hne := eq_or_ne p q
    · simp
    · simp [hne]

/-- From `s` to `t` port `p` has taken `n` words from the front of its stream: none, or the length its header gives, and then it was
granted. -/
def TookWords (s t : State) (p : Port) (n : Nat) : Prop :=
  (t.port p).pos = (s.port p).pos + n ∧ n ≤ (s.port p).stream.length ∧ (t.port p).stream = (s.port p).stream.drop n ∧
    (n = 0 ∨ (n = commandLength ((s.port p).stream.headD 0) ∧ t.granted = p))

theorem tookWords_zero {s t : State} {p : Port} (hpos : (t.port p).pos = (s.port p).pos)
    (hstream : (t.port p).stream = (s.port p).stream) : TookWords s t p 0 :=
  ⟨hpos, Nat.zero_le _, hstream, .inl rfl⟩

/-- A granted port takes one command's words or none, and no other port takes any. -/
theorem runPort_tookWords {q : Port} {s t : State} (h : runPort q s = .next t) (p : Port) : ∃ n, TookWords s t p n := by
  obtain ⟨-, rfl⟩ | ⟨-, hd, body, _, _, _, hs, hlen, ha⟩ := runPort_ports h
  · exact ⟨0, tookWords_zero rfl rfl⟩
  obtain rfl | hne := eq_or_ne p q
  · have hport := ha.executing
    have hgranted := ha.granted
    rw [consume_granted] at hport hgranted
    rw [consume_port_same] at hport
    exact ⟨commandLength hd, by rw [hport], by rw [hs]; exact hlen, by rw [hport], .inr ⟨by rw [hs]; rfl, hgranted⟩⟩
  · have hport : t.port p = s.port p := by rw [ha.others p (by simpa using hne), consume_port_other _ _ hne]
    exact ⟨0, tookWords_zero (by rw [hport]) (by rw [hport])⟩

/-- Settles O9: by the moves a step can make; the resets are excluded. -/
theorem streamsAreTakenInOrder : Obligations.StreamsAreTakenInOrder := by
  rintro s t ⟨hlow, hhigh⟩ hstep p
  obtain ⟨q, w, rest, he, e⟩ | ⟨q, rest, he, e⟩ | ⟨rest, he, -⟩ | ⟨rest, he, -⟩ | ⟨q, rest, he, e⟩ | ⟨he, -, e⟩ | ⟨q, he, -, e⟩ :=
    step_cases s
  · cases e.symm.trans hstep
    simp only [he, hostWrite_port, withEvents_port]
    exact ⟨0, rfl, Nat.zero_le _, rfl, .inl rfl⟩
  · cases e.symm.trans hstep
    obtain ⟨hpos, hstream⟩ := hostTake_port { s with events := rest } p q
    simp only [he, hpos, hstream, withEvents_port]
    exact ⟨0, rfl, Nat.zero_le _, by simp, .inl rfl⟩
  · exact absurd (by rw [he]; rfl) hlow
  · exact absurd (by rw [he]; rfl) hhigh
  · obtain ⟨n, hpos, hle, hstream, hn⟩ := runPort_tookWords (e.symm.trans hstep) p
    simp only [withEvents_port] at hpos hle hstream hn
    exact ⟨n, hpos, hle, by simp [hstream, he], hn⟩
  · cases e.symm.trans hstep
    exact ⟨0, rfl, Nat.zero_le _, by simp [he], .inl rfl⟩
  · obtain ⟨n, hpos, hle, hstream, hn⟩ := runPort_tookWords (e.symm.trans hstep) p
    exact ⟨n, hpos, hle, by simp [hstream, he], hn⟩

end Sys2Proof.Machine
end

section
/-! The invariant (10_state.md R46, 20_memory.md R70): block reset meets it, the effect of a command keeps each part of it, in a state
that meets it no command stops the machine, and so every step answers a state that meets it. -/

namespace Sys2Proof.Machine

/-! ### What the invariant reads -/

/-- The invariant reads the parameters, the registers, the memories, and the ports only while `rst_n` is low. -/
theorem State.Inv.congr {s t : State} (h : s.Inv) (hp : t.params = s.params) (hr : t.regs = s.regs) (hm : ∀ sp, t.mem sp = s.mem sp)
    (hq : t.ResetQuiet) : t.Inv := by
  simp only [State.regs, Regs.mk.injEq] at hr
  obtain ⟨hcap, hridx, hwidx, htin, htout, hfftn⟩ := hr
  constructor
  case params => rw [hp]; exact h.params
  case cap => simpa [State.CapLegal, hcap, hp] using h.cap
  case cursors => simpa [State.CursorsLegal, hcap, hridx, hwidx] using h.cursors
  case indices => simpa [State.IndicesLegal, htin, htout] using h.indices
  case size => simpa [State.SizeLegal, hfftn, hp] using h.size
  case memories => simpa [State.MemoriesLegal, hm, hp] using h.memories
  case quiet => exact hq

theorem resetQuiet_of_rstN {s : State} (h : s.rstN = true) : s.ResetQuiet := fun hlow => by simp [h] at hlow

theorem rstN_of_ready {s : State} {p : Port} (h : s.ready p = true) : s.rstN = true := by
  simp only [State.ready, Bool.and_eq_true] at h
  exact h.1.1

@[simp] theorem resetOf_mem (p : Params) (sp : Space) : (State.resetOf p).mem sp = [] := by
  rcases sp with _ | _ | ⟨_ | _ | _, _ | _⟩ <;> rfl
@[simp] theorem resetOf_port (p : Params) (q : Port) : (State.resetOf p).port q = PortState.reset := by cases q <;> rfl

/-- The slot indices of block reset and of TB_RESET are legal (42_triple_buffer.md R234, 70_reset_and_hazards.md R320). -/
theorem indicesLegal_of_reset {s : State} (htin : s.tin = 1) (htout : s.tout = 0) : s.IndicesLegal := by
  unfold State.IndicesLegal
  rw [htin, htout]
  decide

/-- Settles O56: every part of the invariant is read off the reset values. -/
theorem resetMeetsTheInvariant : Obligations.ResetMeetsTheInvariant := fun p hp =>
  { params := hp
    cap := .inl rfl
    cursors := fun hc => absurd hc (show ¬ 2 ≤ 0 by omega)
    indices := indicesLegal_of_reset rfl rfl
    size := .inl rfl
    memories := fun sp => by rw [resetOf_mem]; exact ⟨rfl, rfl⟩
    quiet := resetQuiet_of_rstN rfl }

/-! ### Registers -/

/-- A configured ring has a positive capacity. -/
theorem cap_toNat_pos {s : State} (h : s.cap ≠ 0) : 0 < s.cap.toNat := (Nat.zero_le _).trans_lt (num_lt s h)

/-- A cursor cut to 20 bits is still below the bound it was reduced by. -/
theorem ofNat_toNat_lt {m c : Nat} (h : m < c) : (BitVec.ofNat 20 m).toNat < c := by
  rw [BitVec.toNat_ofNat]
  exact (Nat.mod_le m _).trans_lt h

theorem advanceRidx_ridx_lt (s : State) (k : Nat) (h : s.cap ≠ 0) : (s.advanceRidx k).ridx.toNat < s.cap.toNat :=
  ofNat_toNat_lt (Nat.mod_lt _ (cap_toNat_pos h))

theorem moveWidx_widx_lt (s : State) (d : Int) (h : s.cap ≠ 0) : (s.moveWidx d).widx.toNat < s.cap.toNat :=
  ofNat_toNat_lt (modCap_lt s _ h)

theorem truncate_ridx_lt {s : State} (r : Retain) (n : Nat) (h : s.cap ≠ 0) (hr : s.ridx.toNat < s.cap.toNat) :
    (s.truncate r n).ridx.toNat < s.cap.toNat := by
  obtain e | ⟨-, k, e⟩ | ⟨-, d, e⟩ := truncate_cases s r n <;> rw [e]
  · exact hr
  · exact advanceRidx_ridx_lt s k h
  · exact hr

theorem truncate_widx_lt {s : State} (r : Retain) (n : Nat) (h : s.cap ≠ 0) (hw : s.widx.toNat < s.cap.toNat) :
    (s.truncate r n).widx.toNat < s.cap.toNat := by
  obtain e | ⟨-, k, e⟩ | ⟨-, d, e⟩ := truncate_cases s r n <;> rw [e]
  · exact hw
  · exact hw
  · exact moveWidx_widx_lt s d h

/-- The slot advanced to is one of the three, and not the one to avoid (42_triple_buffer.md R231, R232). -/
theorem nextSlot_legal : ∀ a b : BitVec 2, b ≠ 3 → nextSlot a b ≠ 3 ∧ nextSlot a b ≠ b := by decide

variable {i : Instr} {s : State}

/-- The n + 1 that RB_SETCAP writes fits the 21 bits of CAP (40_ring_buffer.md R147). -/
theorem setcap_toNat {n : BitVec 20} : (BitVec.ofNat 21 (n.toNat + 1)).toNat = n.toNat + 1 := by
  rw [BitVec.toNat_ofNat]
  omega

theorem effect_capLegal (h : s.CapLegal) (hp : passed i s) : (effect i s).CapLegal := by
  by_cases hw : (effect i s).cap = s.cap
  · simpa [State.CapLegal, hw] using h
  · obtain ⟨n, rfl⟩ := writer_of_cap hw
    obtain ⟨hlo, hhi⟩ := hp
    refine .inr ?_
    simp only [effect, setcap_toNat]
    omega

/-- Every cursor written is reduced modulo CAP, or is one of the two that RB_SETCAP sets. -/
theorem effect_cursorsLegal (h : s.CursorsLegal) (hp : passed i s) : (effect i s).CursorsLegal := by
  by_cases hset : ∃ n, i = .rbSetcap n
  · obtain ⟨n, rfl⟩ := hset
    obtain ⟨hlo, -⟩ := hp
    intro _
    simp only [effect, setcap_toNat]
    exact ⟨Nat.succ_pos _, Nat.succ_lt_succ hlo⟩
  have hcap : (effect i s).cap = s.cap := by
    by_contra hw
    exact hset (writer_of_cap hw)
  intro hc
  rw [hcap] at hc ⊢
  obtain ⟨hr, hw⟩ := h hc
  cases i with
  | rbSetcap n => exact absurd ⟨n, rfl⟩ hset
  | rbPush data =>
    obtain ⟨hc0, -⟩ := hp
    exact ⟨by simpa [effect] using hr, by simpa [effect] using moveWidx_widx_lt (s.setMem .ring _) _ (by simpa using hc0)⟩
  | rbPop count off =>
    obtain ⟨hc0, -⟩ := hp
    exact ⟨by simpa [effect] using advanceRidx_ridx_lt (s.writeWords .scr _ _) _ (by simpa using hc0), by simpa [effect] using hw⟩
  | rbSetnum retain n => exact ⟨truncate_ridx_lt retain _ hp hr, truncate_widx_lt retain _ hp hw⟩
  | _ => simpa [effect] using And.intro hr hw

theorem effect_indicesLegal (h : s.IndicesLegal) : (effect i s).IndicesLegal := by
  obtain ⟨htin, htout, hne⟩ := h
  cases i with
  | tbReset => exact indicesLegal_of_reset rfl rfl
  | tbStop =>
    obtain ⟨h3, hother⟩ := nextSlot_legal s.tin s.tout htout
    exact ⟨h3, htout, hother⟩
  | tbUnlock =>
    obtain ⟨h3, hother⟩ := nextSlot_legal s.tout s.tin htin
    exact ⟨htin, h3, hother.symm⟩
  | _ => simpa [State.IndicesLegal, effect] using And.intro htin (And.intro htout hne)

theorem effect_sizeLegal (h : s.SizeLegal) (hp : passed i s) : (effect i s).SizeLegal := by
  by_cases hw : (effect i s).fftn = s.fftn
  · simpa [State.SizeLegal, hw] using h
  · obtain ⟨n, rfl⟩ := writer_of_fftn hw
    exact .inr hp

/-! ### Memories -/

theorem setMem_memoriesLegal {sp : Space} {m : Memory} (h : s.MemoriesLegal) (hwf : Memory.wf m = true)
    (hin : Memory.within (spaceSize s.params sp) m = true) : (s.setMem sp m).MemoriesLegal := by
  intro sq
  rw [setMem_params, setMem_mem]
  split
  · next e => subst e; exact ⟨hwf, hin⟩
  · exact h sq

theorem writeWords_memoriesLegal {sp : Space} {a : Nat} {ws : List Word} (h : s.MemoriesLegal)
    (hin : a + ws.length ≤ spaceSize s.params sp) : (s.writeWords sp a ws).MemoriesLegal := by
  obtain ⟨hwf, hwithin⟩ := h sp
  exact setMem_memoriesLegal h (wf_writeWords _ _ _ hwf) (within_writeWords _ _ _ hwithin hin)

/-- Moving a cursor, and every other update of registers alone, leaves the memories legal. -/
theorem State.MemoriesLegal.congr {t : State} (h : s.MemoriesLegal) (hp : t.params = s.params) (hm : ∀ sp, t.mem sp = s.mem sp) :
    t.MemoriesLegal := by
  simpa [State.MemoriesLegal, hp, hm] using h

theorem clearSlots_memoriesLegal (h : s.MemoriesLegal) : s.clearSlots.MemoriesLegal := by
  intro sp
  cases sp with
  | ring => exact h .ring
  | scr => exact h .scr
  | slot k part => cases k <;> cases part <;> exact ⟨wf_fill .., within_fill _ _ _ (Nat.zero_add _).le⟩

@[simp] theorem oldestWords_length (s : State) (k : Nat) : (s.oldestWords k).length = k := by simp [State.oldestWords]

/-- A frame of the length a configured FFT unit transforms lies in a space of NMAX words. -/
theorem fft_frame_le (h : ∃ k, k ≤ s.params.log2Nmax.toNat ∧ s.fftn.toNat = 2 ^ k) :
    0 + 2 ^ Nat.log2 s.fftn.toNat ≤ s.params.nmax := by
  obtain ⟨k, hk, e⟩ := h
  rw [e, Nat.log2_two_pow, Nat.zero_add]
  exact Nat.pow_le_pow_right Nat.two_pos hk

/-- The first `min(count, n)` words from `off` on lie in a space of NMAX words if the frame asked for does. -/
theorem oldest_frame_le {off : Word} {count n : Nat} (h : off.toNat + count ≤ s.params.nmax) :
    off.toNat + (s.oldestWords (min count n)).length ≤ spaceSize s.params .scr := by
  rw [oldestWords_length]
  exact (Nat.add_le_add_left (Nat.min_le_left ..) _).trans h

/-- Every word written lies in its space: a ring index is below CAP, a frame passed its range check, a transform has FFTN words. -/
theorem effect_memoriesLegal (h : s.MemoriesLegal) (hp : passed i s) : (effect i s).MemoriesLegal := by
  cases i with
  | rbPush data =>
    obtain ⟨hcap, hdepth⟩ := hp
    obtain ⟨hwf, hin⟩ := h .ring
    exact (setMem_memoriesLegal h (ringStored_wf _ _ _ _ hwf)
      (ringStored_within _ _ _ _ hin (cap_toNat_pos hcap) hdepth)).congr (moveWidx_params ..) (moveWidx_mem _ _)
  | rbPop count off =>
    obtain ⟨-, -, hrange⟩ := hp
    exact (writeWords_memoriesLegal h (oldest_frame_le hrange)).congr (advanceRidx_params ..) (advanceRidx_mem _ _)
  | rbPeek count off =>
    obtain ⟨-, -, hrange⟩ := hp
    exact writeWords_memoriesLegal h (oldest_frame_le hrange)
  | rbSetcap _ | tbStop | tbUnlock | fftCfg _ => exact h.congr rfl (mem_congr rfl rfl rfl rfl rfl rfl rfl rfl)
  | rbSetnum retain n => exact h.congr (truncate_params ..) (truncate_mem _ _ _)
  | tbReset => exact (clearSlots_memoriesLegal h).congr rfl (mem_congr rfl rfl rfl rfl rfl rfl rfl rfl)
  | fftFwd mode =>
    obtain ⟨hsize, -⟩ := hp
    have hframe := fft_frame_le hsize
    exact writeWords_memoriesLegal (writeWords_memoriesLegal h (by simpa [spaceSize] using hframe)) (by simpa [spaceSize] using hframe)
  | fftInv mode =>
    obtain ⟨hsize, -⟩ := hp
    have hframe := fft_frame_le hsize
    exact writeWords_memoriesLegal h (by simpa [spaceSize] using hframe)
  | scrWr off data => exact writeWords_memoriesLegal h hp
  | _ => exact h

/-! ### Commands -/

theorem effect_inv (h : s.Inv) (hr : s.rstN = true) (hp : passed i s) : (effect i s).Inv where
  params := by rw [effect_params]; exact h.params
  cap := effect_capLegal h.cap hp
  cursors := effect_cursorsLegal h.cursors hp
  indices := effect_indicesLegal h.indices
  size := effect_sizeLegal h.size hp
  memories := effect_memoriesLegal h.memories hp
  quiet := resetQuiet_of_rstN (by rw [effect_rstN]; exact hr)

theorem respond_inv (h : s.Inv) (hr : s.rstN = true) (ws : List Word) : (s.respond ws).Inv :=
  h.congr (respond_params ..) (respond_regs ..) (respond_mem _ _) (resetQuiet_of_rstN (by simpa using hr))

theorem consume_inv (h : s.Inv) (hr : s.rstN = true) (p : Port) (n : Nat) : (s.consume p n).Inv :=
  h.congr (consume_params ..) (consume_regs ..) (consume_mem _ _ _) (resetQuiet_of_rstN (by simpa using hr))

theorem setPort_inv (h : s.Inv) (hr : s.rstN = true) (p : Port) (ps : PortState) : (s.setPort p ps).Inv :=
  h.congr (setPort_params ..) (setPort_regs ..) (setPort_mem _ _ _) (resetQuiet_of_rstN (by simpa using hr))

/-- A result that is no fault and no refusal. -/
def Proceeds (r : Result) : Prop := ∃ t, r = .next t

theorem proceeds_next (t : State) : Proceeds (.next t) := ⟨t, rfl⟩

theorem proceeds_onItsPorts {op : Opcode} {k : Result} (h : Proceeds k) : Proceeds (onItsPorts op s k) := by
  unfold onItsPorts; split
  · exact h
  · exact proceeds_next _

theorem proceeds_ringConfigured {op : Opcode} {k : Result} (h : Proceeds k) : Proceeds (ringConfigured op s k) := by
  unfold ringConfigured; split
  · exact proceeds_next _
  · exact h

theorem proceeds_fftConfigured {op : Opcode} {k : Result} (h : s.fftn ≠ 0 → Proceeds k) : Proceeds (fftConfigured op s k) := by
  unfold fftConfigured; split
  · exact proceeds_next _
  · next hc => exact h hc

theorem proceeds_frameRange {op : Opcode} {count : Nat} {off : Word} {k : Result} (h : Proceeds k) :
    Proceeds (frameRange op count off s k) := by
  unfold frameRange; split
  · exact proceeds_next _
  · exact h

theorem cap_le_rbDepth (h : s.CapLegal) : s.cap.toNat ≤ s.params.rbDepth.toNat := by
  obtain h | ⟨-, h⟩ := h
  · simp [h]
  · exact h

theorem proceeds_ringInMemory {k : Result} (hc : s.CapLegal) (h : Proceeds k) : Proceeds (ringInMemory s k) := by
  rwa [ringInMemory_pos k (cap_le_rbDepth hc)]

theorem proceeds_withSlot {b : BitVec 2} {k : Slot → Result} (hb : b ≠ 3) (h : ∀ j, Proceeds (k j)) : Proceeds (withSlot b k) := by
  obtain ⟨j, -, e⟩ := withSlot_of_legal k hb
  rw [e]
  exact h j

theorem proceeds_withFftSize {k : Nat → Result} (hs : s.SizeLegal) (h0 : s.fftn ≠ 0) (h : Proceeds (k s.fftn.toNat)) :
    Proceeds (withFftSize s k) := by
  rwa [withFftSize_pos k ((isFftSize_iff _ _).2 (hs.resolve_left h0))]

/-- In a state that meets the invariant no command stops the machine (60_exceptions.md R295): the three checks that can are passed. -/
theorem exec_proceeds (i : Instr) (h : s.Inv) : Proceeds (exec i s) := by
  obtain ⟨htin, htout, -⟩ := h.indices
  cases i with
  | nop | tbReset | tbStart | tbStop | tbLock | tbUnlock => exact proceeds_onItsPorts (proceeds_next _)
  | rbNum | rbRem | rbSetnum _ _ => exact proceeds_onItsPorts (proceeds_ringConfigured (proceeds_next _))
  | scrWr _ _ | scrRd _ _ => exact proceeds_onItsPorts (proceeds_frameRange (proceeds_next _))
  | stat sel =>
    refine proceeds_onItsPorts ?_
    split <;> exact proceeds_next _
  | rbSetcap n =>
    refine proceeds_onItsPorts ?_
    split <;> exact proceeds_next _
  | fftCfg n =>
    refine proceeds_onItsPorts ?_
    split <;> exact proceeds_next _
  | slotRd slot part count off =>
    refine proceeds_onItsPorts (proceeds_frameRange ?_)
    split <;> exact proceeds_next _
  | rbPush data =>
    exact proceeds_onItsPorts (proceeds_ringConfigured (proceeds_ringInMemory h.cap (proceeds_next _)))
  | rbPop _ _ | rbPeek _ _ =>
    exact proceeds_onItsPorts (proceeds_ringConfigured (proceeds_frameRange (proceeds_ringInMemory h.cap (proceeds_next _))))
  | tbRdout part count off =>
    exact proceeds_onItsPorts (proceeds_frameRange (proceeds_withSlot htout fun _ => proceeds_next _))
  | fftFwd _ | fftInv _ =>
    exact proceeds_onItsPorts (proceeds_fftConfigured fun h0 =>
      proceeds_withFftSize h.size h0 (proceeds_withSlot htin fun _ => proceeds_next _))

/-- A command keeps the invariant: an error changes nothing it reads, and a success is its effect. -/
theorem exec_inv (h : s.Inv) (hr : s.rstN = true) {t : State} (he : exec i s = .next t) : t.Inv := by
  obtain ⟨st, -, -, e⟩ | ⟨-, hp, v, data, -, e⟩ | ⟨f, e⟩ := exec_cases i s <;> rw [e] at he
  · cases he; exact respond_inv h hr _
  · cases he; exact respond_inv (effect_inv h hr hp) (by simpa using hr) _
  · cases he

/-! ### Steps -/

/-- A result that is a next state which meets the invariant. -/
def GoesOnLegally (r : Result) : Prop := ∃ t, r = .next t ∧ t.Inv

theorem runPort_goesOnLegally (p : Port) (h : s.Inv) : GoesOnLegally (runPort p s) := by
  obtain ⟨-, e⟩ | ⟨i, n, hr, -, e⟩ | ⟨-, hd, n, hr, -, e⟩ := runPort_cases p s <;> rw [e]
  · exact ⟨s, rfl, h⟩
  · have hrst := rstN_of_ready hr
    have hc := consume_inv h hrst p n
    obtain ⟨t, ht⟩ := exec_proceeds i hc
    exact ⟨t, ht, exec_inv hc (by simpa using hrst) ht⟩
  · have hrst := rstN_of_ready hr
    exact ⟨_, rfl, respond_inv (consume_inv h hrst p n) (by simpa using hrst) _⟩

theorem withEvents_inv (h : s.Inv) (es : List Event) : State.Inv { s with events := es } :=
  h.congr rfl rfl (mem_congr rfl rfl rfl rfl rfl rfl rfl rfl) fun hlow p => by
    rw [withEvents_port]; exact h.quiet hlow p

theorem hostWrite_inv (h : s.Inv) (p : Port) (w : Word) : (s.hostWrite p w).Inv := by
  unfold State.hostWrite
  split
  · next hr => exact setPort_inv h hr _ _
  · exact h

/-- While `rst_n` is low there is no response word to take. -/
theorem hostTake_inv (h : s.Inv) (p : Port) : (s.hostTake p).Inv := by
  unfold State.hostTake
  split
  · exact h
  · next w rest hw =>
    refine setPort_inv h ?_ _ _
    by_contra hlow
    simp [h.quiet (by simpa using hlow) p, PortState.reset] at hw

theorem blockReset_inv (h : s.Inv) (level : Bool) : (s.blockReset level).Inv :=
  (resetMeetsTheInvariant s.params h.params).congr rfl rfl (mem_congr rfl rfl rfl rfl rfl rfl rfl rfl)
    fun _ p => by cases p <;> rfl

theorem step_goesOnLegally (h : s.Inv) : GoesOnLegally (step s) := by
  obtain ⟨p, w, rest, -, e⟩ | ⟨p, rest, -, e⟩ | ⟨rest, -, e⟩ | ⟨rest, -, e⟩ | ⟨p, rest, -, e⟩ | ⟨-, -, e⟩ | ⟨p, -, -, e⟩ :=
    step_cases s <;> rw [e]
  · exact ⟨_, rfl, hostWrite_inv (withEvents_inv h rest) p w⟩
  · exact ⟨_, rfl, hostTake_inv (withEvents_inv h rest) p⟩
  · exact ⟨_, rfl, blockReset_inv (withEvents_inv h rest) false⟩
  · exact ⟨_, rfl, blockReset_inv (withEvents_inv h rest) true⟩
  · exact runPort_goesOnLegally p (withEvents_inv h rest)
  · exact ⟨s, rfl, h⟩
  · exact runPort_goesOnLegally p h

/-- Settles O57: no command stops the machine where the invariant holds, and every move of a step keeps it. -/
theorem everyStepKeepsTheInvariant : Obligations.EveryStepKeepsTheInvariant := by
  intro s h
  obtain ⟨t, ht, hinv⟩ := step_goesOnLegally h
  refine ⟨⟨t, ht⟩, fun t' ht' => ?_⟩
  cases ht.symm.trans ht'
  exact hinv

end Sys2Proof.Machine
end

section
/-! The port check of every command (20_memory.md R77, 60_exceptions.md R293 item 3). -/

namespace Sys2Proof.Machine

/-- Every command checks its port before anything else. -/
theorem exec_wrong_port {i : Instr} {s : State} (h : s.granted ∉ allowedPorts i.opcode) :
    exec i s = .next (raise i.opcode .port s) := by
  cases i <;> exact onItsPorts_neg _ h

/-- Settles O13: the statement writes out `allowedPorts`, and the port check comes first. -/
theorem wrongPortIsRefused : Obligations.WrongPortIsRefused := by
  intro i s h
  have hport : s.granted ∉ allowedPorts i.opcode := by cases i <;> exact h
  rw [exec_wrong_port hport]
  exact raise_raised i.opcode .port s

end Sys2Proof.Machine
end

section
/-! Which command writes which memory (20_memory.md R71, 10_state.md R39), said once about `effect`; from it the two statements about
`exec`: that each memory has its writers, and that the slot the consumer holds is stable (20_memory.md R86, 42_triple_buffer.md R243). -/

namespace Sys2Proof.Machine

variable {i : Instr} {s t : State} {sp : Space} {k : Slot} {part : Part} {a : Nat}

/-- The commands named as the writers of a memory (20_memory.md R71); FFT_FWD writes both parts of slot TIN. -/
def Writes (i : Instr) (s : State) : Space → Prop
  | .ring => i.opcode = .rbPush
  | .scr => i.opcode = .rbPop ∨ i.opcode = .rbPeek ∨ i.opcode = .scrWr ∨ i.opcode = .fftInv
  | .slot k _ => i = .tbReset ∨ ((∃ mode, i = .fftFwd mode) ∧ k = s.tinSlot)

/-- A success leaves every memory alone that its command is no writer of. -/
theorem effect_mem_of_not_writes (h : ¬ Writes i s sp) : (effect i s).mem sp = s.mem sp := by
  cases i with
  | rbPush data =>
    have hring : sp ≠ .ring := by rintro rfl; exact h rfl
    simp [effect, hring]
  | rbPop _ _ | rbPeek _ _ | scrWr _ _ | fftInv _ =>
    have hscr : sp ≠ .scr := by rintro rfl; simp [Writes, Instr.opcode] at h
    simp [effect, hscr]
  | fftFwd mode =>
    have hslot : ∀ part, sp ≠ .slot s.tinSlot part := by rintro part rfl; exact h (.inr ⟨⟨mode, rfl⟩, rfl⟩)
    simp [effect, hslot]
  | tbReset =>
    cases sp with
    | ring | scr => rfl
    | slot k part => exact absurd (.inl rfl) h
  | rbSetcap _ | tbStop | tbUnlock | fftCfg _ => exact mem_congr rfl rfl rfl rfl rfl rfl rfl rfl sp
  | rbSetnum retain n => exact truncate_mem ..
  | _ => rfl

/-- A command that changes a word of a memory has passed its checks, its port check first, and is a writer of that memory. -/
theorem writes_of_exec (h : exec i s = .next t) (hw : t.word? sp a ≠ s.word? sp a) :
    s.granted ∈ allowedPorts i.opcode ∧ passed i s ∧ Writes i s sp := by
  obtain ⟨st, -, -, e⟩ | ⟨hg, hp, v, data, -, e⟩ | ⟨f, e⟩ := exec_cases i s <;> cases e.symm.trans h
  · exact absurd (raise_word? ..) hw
  · refine ⟨hg, hp, ?_⟩
    by_contra hno
    exact hw (by rw [reply_word?, State.word?, effect_mem_of_not_writes hno, State.word?])

/-- A slot word is changed by TB_RESET, or by FFT_FWD on P1 in slot TIN. -/
theorem slot_writer (h : exec i s = .next t) (hw : t.word? (.slot k part) a ≠ s.word? (.slot k part) a) :
    s.granted = .p1 ∧ (i = .tbReset ∨ ((∃ mode, i = .fftFwd mode) ∧ slotOf s.tin = some k)) := by
  obtain ⟨hg, hp, rfl | ⟨⟨mode, rfl⟩, rfl⟩⟩ := writes_of_exec h hw
  · exact ⟨List.mem_singleton.1 hg, .inl rfl⟩
  · obtain ⟨-, hslot⟩ := hp
    exact ⟨List.mem_singleton.1 hg, .inr ⟨⟨mode, rfl⟩, hslot⟩⟩

/-- The slot an index names, as the list the statements write out (10_state.md R36). -/
theorem slotOf_eq_some_iff (b : BitVec 2) (k : Slot) :
    slotOf b = some k ↔ (b, k) ∈ [(0#2, Slot.s0), (1#2, Slot.s1), (2#2, Slot.s2)] := by
  cases k <;> revert b <;> decide

/-- Two indices that name one slot are equal. -/
theorem slotOf_inj : ∀ {b c : BitVec 2}, slotOf b = some k → slotOf c = some k → b = c := by
  cases k <;> decide

/-- Settles O41: by `Writes`, the list of each memory's writers. -/
theorem memoriesHaveTheirWriters : Obligations.MemoriesHaveTheirWriters := by
  intro i s t h
  refine ⟨fun a hw => ?_, fun a hw => ?_, fun k part a hw => ?_⟩
  · obtain ⟨-, -, hring⟩ := writes_of_exec h hw
    exact hring
  · obtain ⟨-, -, hscr⟩ := writes_of_exec h hw
    exact hscr
  · obtain ⟨-, hreset | ⟨⟨mode, rfl⟩, htin⟩⟩ := slot_writer h hw
    · exact .inl hreset
    · exact .inr ⟨rfl, (slotOf_eq_some_iff _ _).1 htin⟩

/-- Settles O38: apart from TB_RESET only FFT_FWD on P1 changes a slot word, and that in slot TIN, which is not slot TOUT. -/
theorem consumerSlotIsStable : Obligations.ConsumerSlotIsStable := by
  intro i s t hlegal h hreset
  refine ⟨fun k part a hk => ?_, fun hg k part a => ?_, fun hw => ?_⟩
  · by_contra hw
    obtain ⟨-, hreset' | ⟨-, htin⟩⟩ := slot_writer h hw
    · exact hreset hreset'
    · obtain ⟨-, -, hne⟩ := hlegal
      exact hne (slotOf_inj htin ((slotOf_eq_some_iff _ _).2 hk))
  · by_contra hw
    obtain ⟨hg', -⟩ := slot_writer h hw
    cases hg.symm.trans hg'
  · obtain ⟨-, -, -, -, htout, -⟩ := registersHaveTheirWriters i s t h
    exact (htout hw).resolve_right fun hr => hreset hr.1

end Sys2Proof.Machine
end

section
/-! What P2 sees (20_memory.md R86 item 3), as a statement about two runs: each step of a command of P2 that reads the state reads the same
in two states that agree on what P2 sees. -/

namespace Sys2Proof.Machine

/-- Two states in which P2 executes and which agree on all that P2 sees: its own streams, the registers, the parameters, the index of
the free values and the words of slot TOUT. -/
structure AlikeToP2 (s s' : State) : Prop where
  granted : s.granted = .p2
  granted' : s'.granted = .p2
  regs : s.regs = s'.regs
  params : s.params = s'.params
  draws : s.draws = s'.draws
  port : s.p2 = s'.p2
  words : ∀ k part a, slotOf s.tout = some k → s.word? (.slot k part) a = s'.word? (.slot k part) a

/-- Two results that, where both are next states, have the same port P2 and the same registers. -/
def SameToP2 (r r' : Result) : Prop := ∀ t t', r = .next t → r' = .next t' → t.p2 = t'.p2 ∧ t.regs = t'.regs

/-- Response words are produced on P2 where P2 executes. -/
theorem respond_p2 {s : State} (h : s.granted = .p2) (ws : List Word) : (s.respond ws).p2 = { s.p2 with rsp := s.p2.rsp ++ ws } := by
  unfold State.respond
  rw [h]
  rfl

theorem sameToP2_respond {s s' : State} (hg : s.granted = .p2) (hg' : s'.granted = .p2) (hp : s.p2 = s'.p2) (hr : s.regs = s'.regs)
    (ws : List Word) : SameToP2 (.next (s.respond ws)) (.next (s'.respond ws)) := by
  rintro _ _ ⟨⟩ ⟨⟩
  rw [respond_p2 hg, respond_p2 hg', respond_regs, respond_regs, hp, hr]
  exact ⟨rfl, rfl⟩

variable {s s' : State}

theorem AlikeToP2.tin (h : AlikeToP2 s s') : s.tin = s'.tin := congrArg Regs.tin h.regs

theorem AlikeToP2.tout (h : AlikeToP2 s s') : s.tout = s'.tout := congrArg Regs.tout h.regs

theorem AlikeToP2.respond (h : AlikeToP2 s s') (ws : List Word) : SameToP2 (.next (s.respond ws)) (.next (s'.respond ws)) :=
  sameToP2_respond h.granted h.granted' h.port h.regs ws

theorem AlikeToP2.frameRange (h : AlikeToP2 s s') {op : Opcode} {count : Nat} {off : Word} {k k' : Result} (hk : SameToP2 k k') :
    SameToP2 (frameRange op count off s k) (frameRange op count off s' k') := by
  unfold Sys2Proof.Machine.frameRange
  rw [← h.params]
  split
  · exact h.respond _
  · exact hk

theorem AlikeToP2.withSlot_tout (h : AlikeToP2 s s') {k k' : Slot → Result}
    (hk : ∀ j, slotOf s.tout = some j → SameToP2 (k j) (k' j)) : SameToP2 (withSlot s.tout k) (withSlot s'.tout k') := by
  rw [← h.tout]
  cases hj : slotOf s.tout with
  | some j => rw [withSlot_some k hj, withSlot_some k' hj]; exact hk j hj
  | none => rw [withSlot_none k hj]; rintro _ _ ⟨⟩

/-- STAT reads registers and parameters only (43_access_system.md R261). -/
theorem AlikeToP2.statValue (h : AlikeToP2 s s') (sel : Nat) : s.statValue sel = s'.statValue sel := by
  have hregs := h.regs
  simp only [State.regs, Regs.mk.injEq] at hregs
  obtain ⟨hcap, hridx, hwidx, htin, htout, hfftn⟩ := hregs
  simp only [State.statValue, hcap, hridx, hwidx, htin, htout, hfftn, h.params]

/-- The words of slot TOUT read the same, an unwritten one as the same free value. -/
theorem AlikeToP2.readWords (h : AlikeToP2 s s') {j : Slot} (hj : slotOf s.tout = some j) (part : Part) (a n : Nat) :
    s.readWords (.slot j part) a n = s'.readWords (.slot j part) a n :=
  List.map_congr_left fun c _ => by rw [readWord_eq, readWord_eq, h.draws, h.words j part (a + c) hj]

/-- The commands of P2 are NOP, STAT, TB_LOCK, TB_UNLOCK and TB_RDOUT; every other is answered ERR_PORT. -/
theorem AlikeToP2.exec (h : AlikeToP2 s s') (i : Instr) : SameToP2 (exec i s) (exec i s') := by
  by_cases hp : Port.p2 ∈ allowedPorts i.opcode
  case neg =>
    rw [exec_wrong_port (by rwa [h.granted]), exec_wrong_port (by rwa [h.granted'])]
    exact h.respond _
  have onPorts : ∀ {k k' : Result}, SameToP2 k k' → SameToP2 (onItsPorts i.opcode s k) (onItsPorts i.opcode s' k') := by
    intro k k' hk
    rwa [onItsPorts_pos k (by rwa [h.granted]), onItsPorts_pos k' (by rwa [h.granted'])]
  cases i with
  | nop => exact onPorts (h.respond _)
  | stat sel =>
    refine onPorts ?_
    rw [← h.statValue]
    split <;> exact h.respond _
  | tbLock =>
    refine onPorts ?_
    rw [← h.tout]
    exact h.respond _
  | tbUnlock =>
    refine onPorts ?_
    have hnext : nextSlot s.tout s.tin = nextSlot s'.tout s'.tin := by rw [h.tout, h.tin]
    rw [hnext]
    refine sameToP2_respond ?_ ?_ ?_ ?_ _
    · exact h.granted
    · exact h.granted'
    · exact h.port
    · exact congrArg (fun r : Regs => { r with tout := nextSlot s'.tout s'.tin }) h.regs
  | tbRdout part count off =>
    refine onPorts (h.frameRange (h.withSlot_tout fun j hj => ?_))
    rw [← h.readWords hj]
    exact h.respond _
  | _ => simp [allowedPorts, Instr.opcode] at hp

/-- Settles O39: the two states are alike to P2. -/
theorem readerSeesOnlySlotTout : Obligations.ReaderSeesOnlySlotTout := by
  intro i s s' t t' hg hg' hregs hparams hdraws hport hwords ht ht'
  exact AlikeToP2.exec ⟨hg, hg', hregs, hparams, hdraws, hport, hwords⟩ i t t' ht ht'

end Sys2Proof.Machine
end

section
/-! Grants (20_memory.md R74, R78, R83): the step that grants a ready port runs its command, and every ready port is served after at most
as many grants as there are ready ports. -/

namespace Sys2Proof.Machine

variable {s t : State} {p q : Port}

theorem ready_of_command {i : Instr} {n : Nat} (hrst : s.rstN = true) (hrsp : (s.port p).rsp = [])
    (hd : decode (s.port p).stream = .command i n) : s.ready p = true := by
  simp [State.ready, State.fetch, hrst, hrsp, hd]

/-- Out of reset, being ready depends on the port's own state only. -/
theorem ready_congr (hrst : t.rstN = s.rstN) (hport : t.port p = s.port p) : t.ready p = s.ready p := by
  simp only [State.ready, State.fetch, hrst, hport]

theorem step_grant {rest : List Event} (h : s.events = .grant p :: rest) : step s = runPort p { s with events := rest } := by
  unfold step runNext
  rw [h]
  rfl

theorem step_own_grant (h : s.events = []) (ha : s.arbiter = some p) : step s = runPort p s := by
  unfold step runNext
  rw [h, ha]

/-- Settles O6: a ready port runs its decoded command, and `consume` is the state the statement writes out. -/
theorem stepRunsTheDecodedCommand : Obligations.StepRunsTheDecodedCommand := by
  intro s p i n hrst hrsp hd
  have hready := ready_of_command hrst hrsp hd
  refine ⟨fun rest he => ?_, fun he ha => ?_⟩
  · have hport := withEvents_port s rest p
    rw [step_grant he, runPort_command ((ready_congr rfl hport).trans hready) (by rw [State.fetch, hport, hd])]
    cases p <;> rfl
  · rw [step_own_grant he ha, runPort_command hready hd]
    cases p <;> rfl

theorem mem_readyPorts_iff : p ∈ s.readyPorts ↔ s.ready p = true := by
  unfold State.readyPorts
  cases p <;> simp

/-- While a port is ready the block grants one (20_memory.md R83). -/
theorem arbiter_of_ready (h : s.ready p = true) : ∃ q, s.arbiter = some q := by
  have hmem := mem_readyPorts_iff.2 h
  unfold State.arbiter
  split
  · next hnil => rw [hnil] at hmem; cases hmem
  · exact ⟨_, rfl⟩
  · exact ⟨_, rfl⟩

/-- From `s` to `t` port `p` has taken the words of the command at the front of its stream and answered at least STATUS and VALUE. -/
def Served (s t : State) (p : Port) : Prop :=
  (t.port p).pos = (s.port p).pos + commandLength ((s.port p).stream.headD 0) ∧ 2 ≤ (t.port p).rsp.length

/-- A granted ready port is served, and is not ready again before the host takes its responses. -/
theorem runPort_serves (hready : s.ready q = true) (h : runPort q s = .next t) : Served s t q ∧ t.ready q = false := by
  obtain ⟨hno, -⟩ | ⟨-, hd, body, status, value, data, hs, -, ha⟩ := runPort_ports h
  · simp [hready] at hno
  have hport := ha.executing
  rw [consume_granted, consume_port_same] at hport
  have hserved : Served s t q := by
    rw [Served, hport, hs]
    refine ⟨rfl, ?_⟩
    simp only [List.length_append, List.length_cons]
    omega
  exact ⟨hserved, by simp [State.ready, hport]⟩

/-- A granted ready port leaves the other ports, `rst_n` and the events to come. -/
theorem runPort_frame (hready : s.ready q = true) (h : runPort q s = .next t) :
    (∀ r, r ≠ q → t.port r = s.port r) ∧ t.rstN = s.rstN ∧ t.events = s.events := by
  obtain ⟨hno, -⟩ | ⟨-, hd, body, status, value, data, -, -, ha⟩ := runPort_ports h
  · simp [hready] at hno
  refine ⟨fun r hr => ?_, by simpa using ha.rstN, by simpa using ha.events⟩
  rw [ha.others r (by simpa using hr), consume_port_other _ _ hr]

/-- Each grant of a ready port leaves one ready port less. -/
theorem runPort_readyPorts_length_lt (hready : s.ready q = true) (h : runPort q s = .next t) :
    t.readyPorts.length < s.readyPorts.length := by
  obtain ⟨hport, hrst, -⟩ := runPort_frame hready h
  obtain ⟨-, hq⟩ := runPort_serves hready h
  have hfilter : t.readyPorts = s.readyPorts.filter fun r => decide (r ≠ q) := by
    unfold State.readyPorts
    rw [List.filter_filter]
    refine List.filter_congr fun r _ => ?_
    by_cases hr : r = q
    · simp [hr, hq]
    · simp [hr, ready_congr hrst (hport r hr)]
  rw [hfilter]
  exact List.length_filter_lt_length_iff_exists.2 ⟨q, mem_readyPorts_iff.2 hready, by simp⟩

/-- A run goes on from the state its first step answers. -/
theorem run_succ {M : Host.Core} {s t : M.State} (h : M.step s = .next t) (k : Nat) : M.run (k + 1) s = M.run k t := by
  simp only [Host.Core.run, h]

/-- By induction on the number of ready ports: the grant either is of port `p` or leaves `p` ready and one ready port less. -/
theorem served_within_readyPorts {n : Nat} (hinv : s.Inv) (he : s.events = []) (hready : s.ready p = true)
    (hn : s.readyPorts.length ≤ n) : ∃ (k : Nat) (t : State), k ≤ n ∧ Sys2Proof.core.run k s = .next t ∧ Served s t p := by
  induction n generalizing s with
  | zero => exact absurd hn (Nat.not_le.2 (List.length_pos_of_mem (mem_readyPorts_iff.2 hready)))
  | succ n ih =>
    obtain ⟨q, ha⟩ := arbiter_of_ready hready
    obtain ⟨u, hu, hinv'⟩ := step_goesOnLegally hinv
    have hrun := (step_own_grant he ha).symm.trans hu
    obtain rfl | hne := eq_or_ne p q
    · obtain ⟨hserved, -⟩ := runPort_serves (arbiter_ready ha) hrun
      exact ⟨1, u, Nat.le_add_left .., run_succ (M := Sys2Proof.core) hu 0, hserved⟩
    · obtain ⟨hport, hrst, hev⟩ := runPort_frame (arbiter_ready ha) hrun
      have hlt := runPort_readyPorts_length_lt (arbiter_ready ha) hrun
      obtain ⟨k, t, hk, ht, hserved⟩ :=
        ih hinv' (hev.trans he) ((ready_congr hrst (hport p hne)).trans hready) (by omega)
      rw [Served, hport p hne] at hserved
      exact ⟨k + 1, t, Nat.succ_le_succ hk, (run_succ (M := Sys2Proof.core) hu k).trans ht, hserved⟩

/-- Settles O59: there are three ports. -/
theorem readyPortsAreServed : Obligations.ReadyPortsAreServed := fun _ _ hinv he hready =>
  served_within_readyPorts hinv he hready (List.length_filter_le ..)

end Sys2Proof.Machine
end

section
/-! The encoding (30_encoding.md R102 to R118): `Opcode.build` makes a command of an opcode, its fields and the words after the header,
and `encode` writes them out again. The decoder is `build` on the fields of a header, so both directions of the encoding, and the words
of an assembled command, come from that one inverse. -/

namespace Sys2Proof.Machine
open Sys2Proof.Laws

variable {op : Opcode} {f : BitVec 4} {a : BitVec 20} {body : List Word}

/-- The fields and the words after the header are those of a command: no reserved bit in F (30_encoding.md R108), A zero where it is
reserved (R109), as many words as R106 says. -/
structure FieldsLegal (op : Opcode) (f : BitVec 4) (a : BitVec 20) (body : List Word) : Prop where
  unusedF : f &&& ~~~ op.usedF = 0
  unusedA : op.reservedA = true → a = 0
  length : body.length = op.bodyLength a

@[simp] theorem build_opcode : (op.build f a body).opcode = op := by cases op <;> rfl

/-- A payload taken by field A fits field A. -/
theorem payloadFits_take (ws : List Word) : payloadFits (ws.take a.toNat) = true :=
  decide_eq_true ((List.length_take_le ..).trans_lt a.isLt)

@[simp] theorem build_wellFormed : (op.build f a body).wellFormed = true := by
  cases op with
  | rbPush | scrWr => exact payloadFits_take _
  | _ => rfl

/-- A command is made of the words its header announces, whatever follows them. -/
@[simp] theorem build_take : op.build f a (body.take (op.bodyLength a)) = op.build f a body := by
  cases op with
  | rbPop | rbPeek | tbRdout | scrRd | slotRd => cases body <;> rfl
  | rbPush => simp [Opcode.build, Opcode.bodyLength, Opcode.hasB, Opcode.hasPayload]
  | scrWr => cases body <;> simp [Opcode.build, Opcode.bodyLength, Opcode.hasB, Opcode.hasPayload, Nat.add_comm 1]
  | _ => rfl

theorem build_append (h : body.length = op.bodyLength a) (rest : List Word) : op.build f a (body ++ rest) = op.build f a body := by
  rw [← build_take, List.take_append_of_le_length h.ge, build_take]

/-! ### Field F -/

theorem part_bit_ofF : ∀ {f : BitVec 4}, f &&& ~~~ 1#4 = 0 → 0#3 ++ (Part.ofF f).bit = f := by decide
theorem mode_bit_ofF : ∀ {f : BitVec 4}, f &&& ~~~ 1#4 = 0 → 0#3 ++ (Mode.ofF f).bit = f := by decide
theorem retain_bit_ofF : ∀ {f : BitVec 4}, f &&& ~~~ 1#4 = 0 → 0#3 ++ (Retain.ofF f).bit = f := by decide
theorem slot_bits_ofF : ∀ {f : BitVec 4}, f &&& ~~~ 7#4 = 0 → 0#1 ++ f.extractLsb' 1 2 ++ (Part.ofF f).bit = f := by decide
theorem eq_zero_of_unusedF : ∀ {f : BitVec 4}, f &&& ~~~ 0#4 = 0 → f = 0 := by decide

theorem part_ofF_bit (part : Part) : Part.ofF (0#3 ++ part.bit) = part := by cases part <;> rfl
theorem mode_ofF_bit (mode : Mode) : Mode.ofF (0#3 ++ mode.bit) = mode := by cases mode <;> rfl
theorem retain_ofF_bit (retain : Retain) : Retain.ofF (0#3 ++ retain.bit) = retain := by cases retain <;> rfl
theorem part_ofF_slot_bits (part : Part) : ∀ k : BitVec 2, Part.ofF (0#1 ++ k ++ part.bit) = part := by cases part <;> decide
theorem slot_of_slot_bits (part : Part) : ∀ k : BitVec 2, (0#1 ++ k ++ part.bit).extractLsb' 1 2 = k := by cases part <;> decide

/-! ### `build` and `encode` -/

/-- A payload of the length field A gives is all taken, and its length gives field A back. -/
theorem payload_of_length {data : List Word} (h : data.length = a.toNat) :
    data.take a.toNat = data ∧ BitVec.ofNat 20 data.length = a :=
  ⟨List.take_of_length_le h.le, by rw [h, BitVec.ofNat_toNat, BitVec.setWidth_eq]⟩

/-- The words of a command made of legal fields are its header and the words it was made of. -/
theorem encode_build (h : FieldsLegal op f a body) : encode (op.build f a body) = header op f a :: body := by
  obtain ⟨hf, ha, hl⟩ := h
  cases op with
  | nop | rbNum | rbRem | tbReset | tbStart | tbStop | tbLock | tbUnlock =>
    rw [eq_zero_of_unusedF hf, ha rfl, List.length_eq_zero_iff.1 hl]; rfl
  | stat | rbSetcap | fftCfg => rw [eq_zero_of_unusedF hf, List.length_eq_zero_iff.1 hl]; rfl
  | rbSetnum => rw [List.length_eq_zero_iff.1 hl, Opcode.build, encode, retain_bit_ofF hf]
  | fftFwd | fftInv => rw [List.length_eq_zero_iff.1 hl, ha rfl, Opcode.build, encode, mode_bit_ofF hf]
  | rbPop | rbPeek | scrRd =>
    obtain ⟨off, rfl⟩ := List.length_eq_one_iff.1 hl
    rw [eq_zero_of_unusedF hf]; rfl
  | tbRdout =>
    obtain ⟨off, rfl⟩ := List.length_eq_one_iff.1 hl
    rw [Opcode.build, encode, part_bit_ofF hf]; rfl
  | slotRd =>
    obtain ⟨off, rfl⟩ := List.length_eq_one_iff.1 hl
    rw [Opcode.build, encode, slot_bits_ofF hf]; rfl
  | rbPush =>
    obtain ⟨htake, hlen⟩ := payload_of_length (hl.trans (Nat.zero_add _))
    rw [eq_zero_of_unusedF hf, Opcode.build, htake, encode, hlen]
  | scrWr =>
    obtain ⟨off, data, rfl⟩ := List.exists_cons_of_length_eq_add_one (hl.trans (Nat.add_comm ..))
    obtain ⟨htake, hlen⟩ := payload_of_length (a := a) (data := data) (Nat.succ.inj (hl.trans (Nat.add_comm ..)))
    rw [eq_zero_of_unusedF hf, Opcode.build, List.tail_cons, htake, encode, hlen]; rfl

/-- A payload that fits field A has the length that field A then gives. -/
theorem toNat_payloadLength {data : List Word} (h : payloadFits data = true) : (BitVec.ofNat 20 data.length).toNat = data.length :=
  Nat.mod_eq_of_lt (of_decide_eq_true h)

theorem part_bit_unusedF (part : Part) : 0#3 ++ part.bit &&& ~~~ 1#4 = 0 := by cases part <;> decide
theorem mode_bit_unusedF (mode : Mode) : 0#3 ++ mode.bit &&& ~~~ 1#4 = 0 := by cases mode <;> decide
theorem retain_bit_unusedF (retain : Retain) : 0#3 ++ retain.bit &&& ~~~ 1#4 = 0 := by cases retain <;> decide
theorem slot_bits_unusedF (part : Part) : ∀ k : BitVec 2, 0#1 ++ k ++ part.bit &&& ~~~ 7#4 = 0 := by cases part <;> decide

/-- Every well-formed command is made of legal fields. -/
theorem exists_build (i : Instr) (h : i.wellFormed = true) :
    ∃ f a body, FieldsLegal i.opcode f a body ∧ i.opcode.build f a body = i := by
  cases i with
  | nop | rbNum | rbRem | tbReset | tbStart | tbStop | tbLock | tbUnlock => exact ⟨0, 0, [], ⟨BitVec.zero_and, fun _ => rfl, rfl⟩, rfl⟩
  | stat a | rbSetcap a | fftCfg a => exact ⟨0, a, [], ⟨BitVec.zero_and, nofun, rfl⟩, rfl⟩
  | rbSetnum retain a =>
    exact ⟨_, a, [], ⟨retain_bit_unusedF retain, nofun, rfl⟩, congrArg (Instr.rbSetnum · a) (retain_ofF_bit retain)⟩
  | fftFwd mode => exact ⟨_, 0, [], ⟨mode_bit_unusedF mode, fun _ => rfl, rfl⟩, congrArg Instr.fftFwd (mode_ofF_bit mode)⟩
  | fftInv mode => exact ⟨_, 0, [], ⟨mode_bit_unusedF mode, fun _ => rfl, rfl⟩, congrArg Instr.fftInv (mode_ofF_bit mode)⟩
  | rbPop a off | rbPeek a off | scrRd a off => exact ⟨0, a, [off], ⟨BitVec.zero_and, nofun, rfl⟩, rfl⟩
  | tbRdout part a off =>
    exact ⟨_, a, [off], ⟨part_bit_unusedF part, nofun, rfl⟩, congrArg (Instr.tbRdout · a off) (part_ofF_bit part)⟩
  | slotRd k part a off =>
    exact ⟨_, a, [off], ⟨slot_bits_unusedF part k, nofun, rfl⟩,
      congrArg₂ (Instr.slotRd · · a off) (slot_of_slot_bits part k) (part_ofF_slot_bits part k)⟩
  | rbPush data =>
    have hlen := toNat_payloadLength h
    exact ⟨0, BitVec.ofNat 20 data.length, data, ⟨BitVec.zero_and, nofun, hlen.symm.trans (Nat.zero_add _).symm⟩,
      congrArg Instr.rbPush (List.take_of_length_le hlen.ge)⟩
  | scrWr off data =>
    have hlen := toNat_payloadLength h
    exact ⟨0, BitVec.ofNat 20 data.length, off :: data, ⟨BitVec.zero_and, nofun, (congrArg Nat.succ hlen.symm).trans (Nat.add_comm _ 1)⟩,
      congrArg (Instr.scrWr off) (List.take_of_length_le hlen.ge)⟩

/-! ### The decoder -/

/-- The length of a listed command (30_encoding.md R106). -/
theorem commandLength_of_ofCode {h : Word} (ho : Opcode.ofCode (headerOpc h) = some op) :
    commandLength h = op.bodyLength (headerA h) + 1 := by
  rw [commandLength, ho, Nat.add_comm]

/-- A header of legal fields decodes to the command made of them, whatever follows its words. -/
theorem decode_header (h : FieldsLegal op f a body) (rest : List Word) :
    decode (header op f a :: body ++ rest) = .command (op.build f a body) (header op f a :: body).length := by
  obtain ⟨hf, ha, hl⟩ := h
  have hn : (header op f a :: body).length = commandLength (header op f a) := by
    rw [commandLength_header, List.length_cons, hl, Nat.add_comm]
  have hcases := decode_cons_cases (header op f a) (body ++ rest)
  rw [headerOpc_header, headerF_header, headerA_header, ofCode_code] at hcases
  obtain ⟨hno, -⟩ | ⟨op', ho, hshort, -⟩ | ⟨op', ho, -, ⟨hf', -⟩ | ⟨-, hr, ha', -⟩ | ⟨-, -, e⟩⟩ := hcases
  · cases hno
  all_goals cases ho
  · rw [List.length_append, hl] at hshort
    omega
  · exact absurd hf hf'
  · exact absurd (ha hr) ha'
  · rw [List.cons_append, e, build_append hl, hn]

/-- A stream that decodes to a command begins with a header of legal fields and the words the header announces, and the command is made
of them. -/
theorem fields_of_decode {ws : List Word} {i : Instr} {n : Nat} (h : decode ws = .command i n) :
    ∃ op f a body, FieldsLegal op f a body ∧ i = op.build f a body ∧ ws.take n = header op f a :: body ∧
      n = commandLength (ws.headD 0) := by
  cases ws with
  | nil => cases h
  | cons hd body =>
    obtain ⟨-, e⟩ | ⟨op, -, -, e⟩ | ⟨op, ho, hl, ⟨-, e⟩ | ⟨-, -, -, e⟩ | ⟨hf, ha, e⟩⟩ := decode_cons_cases hd body <;>
      cases e.symm.trans h
    have hhead : header op (headerF hd) (headerA hd) = hd := by rw [header, code_of_ofCode ho, header_fields]
    refine ⟨op, headerF hd, headerA hd, body.take (op.bodyLength (headerA hd)), ⟨hf, ha, List.length_take_of_le hl⟩, ?_, ?_, rfl⟩
    · rw [build_take]
    · rw [hhead, commandLength_of_ofCode ho, List.take_succ_cons]

/-- Settles O1: a well-formed command is made of legal fields, which its words give back. -/
theorem decodeInvertsEncode : Obligations.DecodeInvertsEncode := by
  intro i rest hwf
  obtain ⟨f, a, body, hlegal, hi⟩ := exists_build i hwf
  rw [← hi, encode_build hlegal, decode_header hlegal]

/-- Settles O2: the command is made of the fields of its header and the words after it. -/
theorem decodedWordsAreTheEncoding : Obligations.DecodedWordsAreTheEncoding := by
  intro ws i n h
  obtain ⟨op, f, a, body, hlegal, rfl, hwords, hn⟩ := fields_of_decode h
  have hlen : n = (header op f a :: body).length := by
    obtain ⟨hd, rest, rfl, hn', hle⟩ := decode_command h
    rw [← hwords, List.length_take_of_le (hn' ▸ hle)]
  rw [encode_build hlegal]
  exact ⟨build_wellFormed, hwords, hlen, hn⟩

/-- Settles O3: six words written out, each decoded by evaluation. -/
theorem specWordsDecode : Obligations.SpecWordsDecode := ⟨rfl, rfl, rfl, rfl, rfl, rfl⟩

end Sys2Proof.Machine
end

section
/-! Assembled commands (30_encoding.md R118, R119): the operands a mnemonic takes, which of them the assembler accepts, and that the words
of the command are the fields it was assembled from. -/

namespace Sys2Proof.Machine

variable {op : Opcode} {f : BitVec 4} {operands : List Nat} {payload : List Word} {a b : Nat} {i : Instr}

/-- The operands of a mnemonic: A unless it is reserved, then B if the command has one (30_encoding.md R118). -/
def operandList (op : Opcode) (a b : Nat) : List Nat :=
  (if op.reservedA then [] else [a]) ++ (if op.hasB then [b] else [])

/-- The words after the header of a command assembled from B and a payload. -/
def assembledBody (op : Opcode) (b : Nat) (payload : List Word) : List Word :=
  (if op.hasB then [BitVec.ofNat 32 b] else []) ++ payload

/-- Operands of the number a mnemonic takes are its list of operands, with 0 for one it does not take. -/
theorem exists_operandList (h : operands.length = (if !op.reservedA then 1 else 0) + (if op.hasB then 1 else 0)) :
    ∃ a b, operands = operandList op a b ∧ (op.reservedA = true → a = 0) ∧ (op.hasB = false → b = 0) := by
  unfold operandList
  cases hr : op.reservedA <;> cases hb : op.hasB <;> simp only [hr, hb] at h
  · obtain ⟨a, rfl⟩ := List.length_eq_one_iff.1 h
    exact ⟨a, 0, rfl, nofun, fun _ => rfl⟩
  · obtain ⟨a, b, rfl⟩ := List.length_eq_two.1 h
    exact ⟨a, b, rfl, nofun, nofun⟩
  · exact ⟨0, 0, List.length_eq_zero_iff.1 h, fun _ => rfl, fun _ => rfl⟩
  · obtain ⟨b, rfl⟩ := List.length_eq_one_iff.1 h
    exact ⟨0, b, rfl, fun _ => rfl, nofun⟩

/-- What the assembler checks once the number of operands is right (30_encoding.md R119). -/
theorem assembleCommand_operandList (ha : op.reservedA = true → a = 0) :
    assembleCommand op f (operandList op a b) payload =
      if 2 ^ 20 ≤ a then .error .operandTooLarge
      else if op.hasB ∧ 2 ^ 32 ≤ b then .error .offsetTooLarge
      else if payload.length ≠ (if op.hasPayload then a else 0) then .error .payloadCount
      else .ok (op.build f (BitVec.ofNat 20 a) (assembledBody op b payload)) := by
  unfold operandList assembledBody
  cases hr : op.reservedA with
  | false => cases hb : op.hasB <;> simp [assembleCommand, hr, hb]
  | true =>
    obtain rfl := ha hr
    cases hb : op.hasB <;> simp [assembleCommand, hr, hb]

/-- Which commands the assembler makes of a list of operands. -/
theorem assembleCommand_eq_ok_iff (ha : op.reservedA = true → a = 0) :
    assembleCommand op f (operandList op a b) payload = .ok i ↔
      a < 2 ^ 20 ∧ (op.hasB = true → b < 2 ^ 32) ∧ payload.length = (if op.hasPayload then a else 0) ∧
        op.build f (BitVec.ofNat 20 a) (assembledBody op b payload) = i := by
  rw [assembleCommand_operandList ha]
  by_cases hA : 2 ^ 20 ≤ a
  · rw [if_pos hA]
    exact iff_of_false nofun fun ⟨ha', _⟩ => Nat.not_lt.2 hA ha'
  by_cases hB : op.hasB = true ∧ 2 ^ 32 ≤ b
  · rw [if_neg hA, if_pos hB]
    exact iff_of_false nofun fun ⟨_, hb', _⟩ => Nat.not_lt.2 hB.2 (hb' hB.1)
  by_cases hP : payload.length = if op.hasPayload then a else 0
  · rw [if_neg hA, if_neg hB, if_neg (not_not.2 hP), Except.ok.injEq]
    exact ⟨fun e => ⟨Nat.lt_of_not_le hA, fun hb => Nat.lt_of_not_le fun h => hB ⟨hb, h⟩, hP, e⟩, fun ⟨_, _, _, e⟩ => e⟩
  · rw [if_neg hA, if_neg hB, if_pos hP]
    exact iff_of_false nofun fun ⟨_, _, hp', _⟩ => hP hp'

/-- A command is assembled from the operands its mnemonic takes. -/
theorem operandList_of_ok (h : assembleCommand op f operands payload = .ok i) :
    ∃ a b, operands = operandList op a b ∧ (op.reservedA = true → a = 0) ∧ (op.hasB = false → b = 0) := by
  by_contra hno
  have hlen := mt exists_operandList hno
  dsimp only [assembleCommand] at h
  rw [if_pos hlen] at h
  cases h

/-- A command that has field A reserved has no payload. -/
theorem hasPayload_of_reservedA : op.reservedA = true → op.hasPayload = false := by cases op <;> decide

/-- The words assembled after a header are as many as the header announces. -/
theorem assembledBody_length (ha : a < 2 ^ 20) (hp : payload.length = (if op.hasPayload then a else 0)) :
    (assembledBody op b payload).length = op.bodyLength (BitVec.ofNat 20 a) := by
  rw [assembledBody, List.length_append, hp, Opcode.bodyLength, BitVec.toNat_ofNat, Nat.mod_eq_of_lt ha]
  cases op.hasB <;> rfl

/-- Which operands and payload the assembler accepts (30_encoding.md R119). -/
theorem exists_ok_iff : (∃ i, assembleCommand op f operands payload = .ok i) ↔
    ∃ a b, operands = operandList op a b ∧ a < 2 ^ 20 ∧ b < 2 ^ 32 ∧ payload.length = (if op.hasPayload then a else 0) := by
  constructor
  · rintro ⟨i, h⟩
    obtain ⟨a, b, rfl, hres, hb0⟩ := operandList_of_ok h
    obtain ⟨ha, hb, hp, -⟩ := (assembleCommand_eq_ok_iff hres).1 h
    refine ⟨a, b, rfl, ha, ?_, hp⟩
    cases hB : op.hasB with
    | false => rw [hb0 hB]; exact Nat.two_pow_pos 32
    | true => exact hb hB
  · rintro ⟨a, b, rfl, ha, hb, hp⟩
    cases hr : op.reservedA with
    | false => exact ⟨_, (assembleCommand_eq_ok_iff (by simp [hr])).2 ⟨ha, fun _ => hb, hp, rfl⟩⟩
    | true =>
      have hops : operandList op a b = operandList op 0 b := by rw [operandList, operandList, hr]; rfl
      rw [hops]
      refine ⟨_, (assembleCommand_eq_ok_iff fun _ => rfl).2 ⟨Nat.two_pow_pos 20, fun _ => hb, ?_, rfl⟩⟩
      rw [hp, hasPayload_of_reservedA hr]
      rfl

/-- Settles O60: the assembler accepts the operands its checks pass, and builds the command of legal fields. -/
theorem assembledCommandsHaveTheirOperands : Obligations.AssembledCommandsHaveTheirOperands := by
  intro op f operands payload
  refine ⟨exists_ok_iff, fun i a b h hops hres => ?_⟩
  obtain rfl : operands = operandList op a b := hops
  obtain ⟨ha, -, hp, rfl⟩ := (assembleCommand_eq_ok_iff hres).1 h
  exact ⟨build_wellFormed, build_opcode, fun hf =>
    encode_build ⟨hf, fun hr => by rw [hres hr]; rfl, assembledBody_length ha hp⟩⟩

end Sys2Proof.Machine
end

section
/-! Illegal headers (30_encoding.md R113, R114): a port that has one at the front of its stream takes the words the header gives and
answers ERR_ILLEGAL with the header, and nothing else changes. -/

namespace Sys2Proof.Machine

variable {s : State} {p : Port} {h : Word} {body : List Word}

/-- The opcodes without a command (30_encoding.md R113). -/
theorem ofCode_eq_none_iff (c : BitVec 8) :
    Opcode.ofCode c = none ↔
      ((0x02 ≤ c.toNat ∧ c.toNat ≤ 0x0F) ∨ (0x17 ≤ c.toNat ∧ c.toNat ≤ 0x1F) ∨ (0x26 ≤ c.toNat ∧ c.toNat ≤ 0x2F) ∨
        (0x33 ≤ c.toNat ∧ c.toNat ≤ 0x37) ∨ 0x3B ≤ c.toNat) := by
  simp only [Opcode.ofCode, Opcode.all, Opcode.code, List.find?_eq_none, List.forall_mem_cons, List.not_mem_nil,
    false_imp_iff, implies_true, and_true, beq_iff_eq]
  bv_omega

theorem ready_of_illegal {why : Illegal} {n : Nat} (hrst : s.rstN = true) (hrsp : (s.port p).rsp = [])
    (hd : decode (s.port p).stream = .illegal why h n) : s.ready p = true := by
  simp [State.ready, State.fetch, hrst, hrsp, hd]

/-- From `s` to `t` port `p` has taken the `n` words of an illegal command with header `h` and answered ERR_ILLEGAL with the header as VALUE;
nothing else has changed. -/
def RefusedIllegal (s t : State) (p : Port) (h : Word) (n : Nat) : Prop :=
  t.port p = { s.port p with
    pos := (s.port p).pos + n, stream := (s.port p).stream.drop n, rsp := [headerOpc h ++ 0#16 ++ 1#8, h] } ∧
  (∀ q, q ≠ p → t.port q = s.port q) ∧ t.regs = s.regs ∧ SameWords s t

theorem runPort_refusedIllegal {why : Illegal} {n : Nat} (hrst : s.rstN = true) (hrsp : (s.port p).rsp = [])
    (hd : decode (s.port p).stream = .illegal why h n) : ∃ t, runPort p s = .next t ∧ RefusedIllegal s t p h n := by
  refine ⟨_, runPort_illegal (ready_of_illegal hrst hrsp hd) hd, ?_, fun q hq => ?_, ?_, fun sp a => ?_⟩
  · have hport := respond_port_granted (s.consume p n) [statusWord (headerOpc h) .illegal, h]
    rw [consume_granted, consume_port_same, hrsp] at hport
    exact hport
  · rw [raiseIllegal, respond_port_other _ _ hq, consume_port_other _ _ hq]
  · rw [raiseIllegal, respond_regs, consume_regs]
  · rw [raiseIllegal, respond_word?, consume_word?]

/-- Settles O4: a header with a reserved opcode is illegal and one word long. -/
theorem reservedOpcodeTakesOneWord : Obligations.ReservedOpcodeTakesOneWord := by
  refine fun h => ⟨ofCode_eq_none_iff _, fun ho s p rest hrst hrsp hs => ?_⟩
  have hd : decode (s.port p).stream = .illegal .unlistedOpcode h 1 := by rw [hs]; simp only [decode, ho]
  obtain ⟨t, ht, hport, hframe⟩ := runPort_refusedIllegal hrst hrsp hd
  rw [hs] at hport
  exact ⟨t, ht, hport, hframe⟩

/-- A listed header with a reserved field that is not 0 is illegal, and as long as its command would be. -/
theorem decode_reserved_field {op : Opcode} (ho : Opcode.ofCode (headerOpc h) = some op)
    (hl : op.bodyLength (headerA h) ≤ body.length)
    (hres : headerF h &&& ~~~ op.usedF ≠ 0 ∨ (op.reservedA = true ∧ headerA h ≠ 0)) :
    ∃ why, decode (h :: body) = .illegal why h (commandLength h) := by
  obtain ⟨hno, -⟩ | ⟨op', ho', hshort, -⟩ | ⟨op', ho', -, ⟨-, e⟩ | ⟨-, -, -, e⟩ | ⟨hf, ha, -⟩⟩ := decode_cons_cases h body
  · cases ho.symm.trans hno
  all_goals cases ho.symm.trans ho'
  · exact absurd hl (Nat.not_le.2 hshort)
  · exact ⟨_, e⟩
  · exact ⟨_, e⟩
  · obtain hf' | ⟨hr, ha'⟩ := hres
    · exact absurd hf hf'
    · exact absurd (ha hr) ha'

/-- Settles O5: such a header is illegal and announces its command's length. -/
theorem reservedFieldTakesWholeCommand : Obligations.ReservedFieldTakesWholeCommand := by
  intro s p h body op hrst hrsp hs ho hl hres
  obtain ⟨why, hd⟩ := decode_reserved_field ho hl hres
  obtain ⟨t, ht, hport, hframe⟩ := runPort_refusedIllegal hrst hrsp (hs ▸ hd)
  rw [hs] at hport
  exact ⟨t, ht, hport, hframe⟩

end Sys2Proof.Machine
end

section
/-! Responses and host moves (30_encoding.md R101, R110, R111, 70_reset_and_hazards.md R336, R339). -/

namespace Sys2Proof.Machine

variable {s t : State} {p q : Port}

/-- A grant, of whichever port, leaves a port whose responses are not taken as it is. -/
theorem runPort_port_of_untaken (hrsp : (s.port p).rsp ≠ []) (h : runPort q s = .next t) : t.port p = s.port p := by
  cases hready : s.ready q with
  | false => cases (runPort_not_ready hready).symm.trans h; rfl
  | true =>
    obtain ⟨hport, -⟩ := runPort_frame hready h
    exact hport p fun e => hrsp (rsp_of_ready (e ▸ hready))

/-- Settles O8: by the moves a step can make; a grant takes no word of the port, a host write adds one, and the resets are excluded. -/
theorem untakenResponsesHoldThePort : Obligations.UntakenResponsesHoldThePort := by
  rintro s t p hrsp ⟨hlow, hhigh⟩ hstep
  obtain ⟨q, w, rest, -, e⟩ | ⟨q, rest, -, e⟩ | ⟨rest, he, -⟩ | ⟨rest, he, -⟩ | ⟨q, rest, -, e⟩ | ⟨-, -, e⟩ | ⟨q, -, -, e⟩ :=
    step_cases s
  · cases e.symm.trans hstep
    rw [hostWrite_port, withEvents_port]
    exact ⟨rfl, List.prefix_append ..⟩
  · cases e.symm.trans hstep
    obtain ⟨hpos, hstream⟩ := hostTake_port { s with events := rest } p q
    rw [hpos, hstream, withEvents_port]
    exact ⟨rfl, List.prefix_rfl⟩
  · exact absurd (by rw [he]; rfl) hlow
  · exact absurd (by rw [he]; rfl) hhigh
  · rw [runPort_port_of_untaken (by rwa [withEvents_port]) (e.symm.trans hstep), withEvents_port]
    exact ⟨rfl, List.prefix_rfl⟩
  · cases e.symm.trans hstep
    exact ⟨rfl, List.prefix_rfl⟩
  · rw [runPort_port_of_untaken hrsp (e.symm.trans hstep)]
    exact ⟨rfl, List.prefix_rfl⟩

theorem step_event {e : Event} {rest : List Event} (h : s.events = e :: rest) : step s = runEvent e { s with events := rest } := by
  unfold step runNext
  rw [h]

theorem hostWrite_eq (hrst : s.rstN = true) (w : Word) :
    s.hostWrite p w = s.setPort p { s.port p with stream := (s.port p).stream ++ [w] } := if_pos hrst

theorem hostTake_cons {r : Word} {rs : List Word} (h : (s.port p).rsp = r :: rs) :
    s.hostTake p = s.setPort p { s.port p with rsp := rs, got := (s.port p).got ++ [r] } := by
  rw [State.hostTake, h]

theorem hostTake_nil (h : (s.port p).rsp = []) : s.hostTake p = s := by
  rw [State.hostTake, h]

/-- Settles O10: the step makes the event, and each move is what its equation says. -/
theorem hostMovesAreStreamMoves : Obligations.HostMovesAreStreamMoves := by
  intro s p rest
  have hport := withEvents_port s rest p
  refine ⟨fun w he hrst => ?_, fun r rs he hrsp => ?_, fun he hrsp => ?_⟩ <;> rw [step_event he, runEvent]
  · rw [hostWrite_eq (s := { s with events := rest }) hrst, hport]
  · rw [hostTake_cons (by rw [hport, hrsp]), hport]
  · rw [hostTake_nil (by rw [hport, hrsp])]

/-- An error's STATUS has a code of its own, which is not that of an illegal header. -/
theorem status_code_of_error {st : Status} (hok : st ≠ .ok) (hill : st ≠ .illegal) :
    st.code.toNat ≤ 5 ∧ st.code ≠ 1 ∧ st.code ≠ 0 := by
  revert hok hill; cases st <;> decide

/-- Settles O11: by what a command can do: an error has VALUE 0 and no data words, a success as many as `dataLength`. -/
theorem responseLayout : Obligations.ResponseLayout := by
  intro i s t h
  obtain ⟨st, hok, hill, e⟩ | ⟨-, -, v, data, hdata, e⟩ | ⟨f, e⟩ := exec_cases i s <;> cases e.symm.trans h
  · obtain ⟨hle, hne1, hne0⟩ := status_code_of_error hok hill
    refine ⟨st.code, 0, [], respond_answers .., hle, hne1, fun _ => rfl, ?_⟩
    cases i with
    | tbRdout _ _ _ | scrRd _ _ | slotRd _ _ _ _ => exact (if_neg hne0).symm
    | _ => rfl
  · refine ⟨0, v, data, success_answers .., by decide, by decide, fun hne => absurd rfl hne, ?_⟩
    rw [hdata]
    cases i <;> rfl

end Sys2Proof.Machine
end

section
/-! RB_CLEAR (30_encoding.md R120): RB_SETNUM 0 keeping the newest. -/

namespace Sys2Proof.Machine

variable {s : State}

@[simp] theorem respond_num (s : State) (ws : List Word) : (s.respond ws).num = s.num := by simp [State.num, State.modCap]

/-- RIDX moved over all stored words comes to stand one slot behind WIDX (40_ring_buffer.md R141). -/
theorem ridx_add_num_mod (h : s.cap ≠ 0) :
    ((s.ridx.toNat + s.num : Nat) : Int) % s.cap.toNat = ((s.widx.toNat : Int) - 1) % s.cap.toNat := by
  have hc : (s.cap.toNat : Int) ≠ 0 := by exact_mod_cast (cap_toNat_pos h).ne'
  have hnum : (s.num : Int) = ((s.widx.toNat : Int) - s.ridx.toNat - 1) % s.cap.toNat :=
    Int.toNat_of_nonneg (Int.emod_nonneg _ hc)
  rw [Nat.cast_add, hnum, Int.add_emod_emod]
  congr 1
  ring

/-- The ring is empty while RIDX stands one slot behind WIDX (40_ring_buffer.md R141). -/
theorem num_eq_zero (h : (s.ridx.toNat : Int) = ((s.widx.toNat : Int) - 1) % s.cap.toNat) : s.num = 0 := by
  have hdvd : (s.cap.toNat : Int) ∣ (s.widx.toNat : Int) - s.ridx.toNat - 1 := by
    rw [h, sub_right_comm]
    exact Int.dvd_self_sub_emod
  rw [State.num, State.modCap, Int.emod_eq_zero_of_dvd hdvd, Int.toNat_zero]

/-- With the newest 0 words kept RIDX has moved over all stored words, whether or not there are any. -/
theorem truncate_newest_zero_ridx (hc : s.cap.toNat ≤ 2 ^ 20) (hr : s.ridx.toNat < s.cap.toNat) :
    (s.truncate .newest 0).ridx.toNat = (s.ridx.toNat + s.num) % s.cap.toNat := by
  obtain h0 | hpos := Nat.eq_zero_or_pos s.num
  · rw [State.truncate, if_neg (by omega), h0, Nat.add_zero, Nat.mod_eq_of_lt hr]
  · have hlt := Nat.mod_lt (s.ridx.toNat + s.num) ((Nat.zero_le _).trans_lt hr)
    rw [State.truncate, if_pos hpos, Nat.sub_zero]
    exact Nat.mod_eq_of_lt (hlt.trans_le hc)

/-- A legal configured ring is not larger than an index can say (00_scope.md R8, 10_state.md R46). -/
theorem cap_le_of_legal (h : s.cap ≠ 0) (hp : s.params.legal = true) (hc : s.CapLegal) :
    2 ≤ s.cap.toNat ∧ s.cap.toNat ≤ 2 ^ 20 := by
  obtain ⟨-, -, -, hdepth⟩ := of_decide_eq_true hp
  obtain ⟨hlo, hhi⟩ := hc.resolve_left h
  exact ⟨hlo, hhi.trans hdepth⟩

/-- Settles O30: RIDX moves over all stored words. -/
theorem rbClearMovesRidxBehindWidx : Obligations.RbClearMovesRidxBehindWidx := by
  refine ⟨fun _ => rfl, rfl, fun s hg h hp hc hcur => ?_⟩
  obtain ⟨hlo, hhi⟩ := cap_le_of_legal h hp hc
  obtain ⟨hr, -⟩ := hcur hlo
  have hridx : ((s.truncate .newest 0).ridx.toNat : Int) = ((s.widx.toNat : Int) - 1) % s.cap.toNat := by
    rw [truncate_newest_zero_ridx hhi hr, Int.natCast_mod, ridx_add_num_mod h]
  have hempty : (s.truncate .newest 0).num = 0 := num_eq_zero (by rw [hridx, truncate_newest_widx, truncate_cap])
  refine ⟨reply .rbSetnum (zext32 (min 0 s.num)) [] (s.truncate .newest 0), ?_, ?_, ?_⟩
  · show execRbSetnum .newest 0 s = _
    rw [execRbSetnum, onItsPorts_pos _ (by rw [hg]; decide), ringConfigured_pos _ h]
    rfl
  · rw [reply, respond_num, hempty]
  · rw [reply, respond_ridx, hridx]

end Sys2Proof.Machine
end

section
/-! The ring's counts and its queue (40_ring_buffer.md R141, R142, R154): what moving a cursor and storing words do to Num and to the
stored words. -/

namespace Sys2Proof.Machine

variable {s t : State} {k : Nat}

/-! ### The counts -/

theorem modCap_cast (h : s.cap ≠ 0) (v : Int) : (s.modCap v : Int) = v % s.cap.toNat :=
  Int.toNat_of_nonneg (Int.emod_nonneg _ (by exact_mod_cast (cap_toNat_pos h).ne'))

theorem modCap_natCast (s : State) (m : Nat) : s.modCap (m : Int) = m % s.cap.toNat := by
  rw [State.modCap, ← Int.natCast_mod, Int.toNat_natCast]

theorem num_cast (h : s.cap ≠ 0) : (s.num : Int) = ((s.widx.toNat : Int) - s.ridx.toNat - 1) % s.cap.toNat := modCap_cast h _

theorem rem_cast (h : s.cap ≠ 0) : (s.rem : Int) = ((s.ridx.toNat : Int) - s.widx.toNat) % s.cap.toNat := modCap_cast h _

/-- Reduced modulo `c`, an integer and its bitwise complement add up to `c - 1`. -/
theorem emod_add_complement_emod (x : Int) {c : Int} (hc : 0 < c) : x % c + (-x - 1) % c = c - 1 := by
  have hlo := Int.emod_nonneg x hc.ne'
  have hhi := Int.emod_lt_of_pos x hc
  have hx : -x - 1 = (c - 1 - x % c) + c * (-(x / c) - 1) := by
    linear_combination Int.emod_add_mul_ediv x c
  have hcomp : (-x - 1) % c = c - 1 - x % c := by
    rw [hx, Int.add_mul_emod_self_left, Int.emod_eq_of_lt (by omega) (by omega)]
  omega

theorem num_add_rem (h : s.cap ≠ 0) : s.num + s.rem = s.cap.toNat - 1 := by
  have hpos := cap_toNat_pos h
  have key := emod_add_complement_emod ((s.widx.toNat : Int) - s.ridx.toNat - 1)
    (show (0 : Int) < s.cap.toNat by exact_mod_cast hpos)
  rw [show -((s.widx.toNat : Int) - s.ridx.toNat - 1) - 1 = (s.ridx.toNat : Int) - s.widx.toNat by ring,
    ← num_cast h, ← rem_cast h] at key
  omega

theorem cap_ne_zero_of_two_le (h : 2 ≤ s.cap.toNat) : s.cap ≠ 0 := by
  intro h0
  rw [h0] at h
  exact absurd h (by decide)

/-- Settles O23: the two formulas are of complementary integers. -/
theorem numPlusRemIsCapMinusOne : Obligations.NumPlusRemIsCapMinusOne := fun _ h =>
  have hcap := cap_ne_zero_of_two_le h
  ⟨num_cast hcap, rem_cast hcap, num_add_rem hcap⟩

/-! ### What the ring's counts and words depend on -/

/-- Two states with the same ring: the registers CAP, RIDX and WIDX and the memory RING. -/
structure SameRing (s t : State) : Prop where
  cap : t.cap = s.cap
  ridx : t.ridx = s.ridx
  widx : t.widx = s.widx
  mem : t.mem .ring = s.mem .ring

theorem SameRing.num (h : SameRing s t) : t.num = s.num := by
  simp only [State.num, State.modCap, h.cap, h.ridx, h.widx]

theorem SameRing.rem (h : SameRing s t) : t.rem = s.rem := by
  simp only [State.rem, State.modCap, h.cap, h.ridx, h.widx]

theorem SameRing.queue (h : SameRing s t) : t.queue = s.queue := by
  simp only [State.queue, State.word?, State.oldestIndex, h.num, h.cap, h.ridx, h.mem]

theorem SameRing.queueWritten (h : SameRing s t) (hq : s.QueueWritten) : t.QueueWritten := by
  rwa [State.QueueWritten, h.cap, h.queue]

theorem SameRing.refl (s : State) : SameRing s s := ⟨rfl, rfl, rfl, rfl⟩

theorem respond_sameRing (s : State) (ws : List Word) : SameRing s (s.respond ws) := by constructor <;> simp

theorem consume_sameRing (s : State) (p : Port) (n : Nat) : SameRing s (s.consume p n) := by constructor <;> simp

theorem setPort_sameRing (s : State) (p : Port) (ps : PortState) : SameRing s (s.setPort p ps) := by constructor <;> simp

theorem writeWords_sameRing (s : State) {sp : Space} (hsp : Space.ring ≠ sp) (a : Nat) (ws : List Word) :
    SameRing s (s.writeWords sp a ws) := by
  constructor <;> simp [State.writeWords, hsp]

@[simp] theorem setMem_num (s : State) (sp : Space) (m : Memory) : (s.setMem sp m).num = s.num := by
  simp [State.num, State.modCap]

/-! ### Moving a cursor -/

/-- A cursor reduced modulo a CAP of at most 2^20 fits its 20 bits. -/
theorem ofNat_toNat_eq {m c : Nat} (h : m < c) (hc : c ≤ 2 ^ 20) : (BitVec.ofNat 20 m).toNat = m :=
  (BitVec.toNat_ofNat ..).trans (Nat.mod_eq_of_lt (h.trans_le hc))

@[simp] theorem moveWidx_oldestIndex (s : State) (d : Int) (i : Nat) : (s.moveWidx d).oldestIndex i = s.oldestIndex i := rfl

section cursors
variable (h : s.cap ≠ 0) (hc : s.cap.toNat ≤ 2 ^ 20)
include h hc

theorem advanceRidx_ridx_toNat (k : Nat) : (s.advanceRidx k).ridx.toNat = (s.ridx.toNat + k) % s.cap.toNat :=
  ofNat_toNat_eq (Nat.mod_lt _ (cap_toNat_pos h)) hc

theorem moveWidx_widx_cast (d : Int) : ((s.moveWidx d).widx.toNat : Int) = (s.widx.toNat + d) % s.cap.toNat := by
  rw [State.moveWidx, ofNat_toNat_eq (modCap_lt s _ h) hc, modCap_cast h]

/-- RIDX moved forward over stored words leaves the others. -/
theorem advanceRidx_num (hk : k ≤ s.num) : (s.advanceRidx k).num = s.num - k := by
  have hlt := num_lt s h
  have key : ((s.advanceRidx k).num : Int) = ((s.num : Int) - k) % s.cap.toNat := by
    rw [num_cast (by exact h), advanceRidx_ridx_toNat h hc, num_cast h, Int.emod_sub_emod, Int.natCast_mod, advanceRidx_cap,
      advanceRidx_widx, sub_right_comm, Int.sub_emod_emod]
    congr 1
    push_cast
    ring
  rw [Int.emod_eq_of_lt (by omega) (by omega)] at key
  omega

/-- WIDX moved by `d` slots changes Num by `d`, as long as that is a possible Num. -/
theorem moveWidx_num {d : Int} (hlo : 0 ≤ s.num + d) (hhi : s.num + d < s.cap.toNat) : ((s.moveWidx d).num : Int) = s.num + d := by
  have key : ((s.moveWidx d).num : Int) = (s.num + d) % s.cap.toNat := by
    rw [num_cast (by exact h), moveWidx_widx_cast h hc, num_cast h, Int.emod_add_emod, moveWidx_cap, moveWidx_ridx, sub_sub,
      Int.emod_sub_emod]
    congr 1
    ring
  rwa [Int.emod_eq_of_lt hlo hhi] at key

theorem advanceRidx_oldestIndex (k i : Nat) : (s.advanceRidx k).oldestIndex i = s.oldestIndex (k + i) := by
  rw [State.oldestIndex, advanceRidx_ridx_toNat h hc, advanceRidx_cap, State.oldestIndex, add_assoc, Nat.mod_add_mod]
  congr 1
  omega

end cursors

/-- The slots behind the newest stored word are the push indices (40_ring_buffer.md R142). -/
theorem oldestIndex_num_add (h : s.cap ≠ 0) (j : Nat) : s.oldestIndex (s.num + j) = s.pushIndex j := by
  have hbehind : ((s.ridx.toNat + s.num : Nat) : Int) + (1 + j) ≡ (s.widx.toNat : Int) - 1 + (1 + j) [ZMOD s.cap.toNat] :=
    Int.ModEq.add_right _ (ridx_add_num_mod h)
  rw [State.oldestIndex, State.pushIndex]
  refine (Int.natCast_modEq_iff (n := s.cap.toNat)).1 ?_
  convert hbehind using 1 <;> push_cast <;> ring

/-! ### The stored words -/

@[simp] theorem queue_length (s : State) : s.queue.length = s.num := by simp [State.queue]

theorem queue_eq_nil (h : s.num = 0) : s.queue = [] := by simp [State.queue, h]

section cursors
variable (h : s.cap ≠ 0) (hc : s.cap.toNat ≤ 2 ^ 20)
include h hc

/-- RIDX moved forward drops the oldest words. -/
theorem advanceRidx_queue (hk : k ≤ s.num) : (s.advanceRidx k).queue = s.queue.drop k := by
  refine List.ext_getElem (by simp [advanceRidx_num h hc hk]) fun i _ _ => ?_
  simp [State.queue, advanceRidx_oldestIndex h hc]

/-- WIDX moved back drops the newest words. -/
theorem moveWidx_neg_queue (hk : k ≤ s.num) : (s.moveWidx (-(k : Int))).queue = s.queue.take (s.num - k) := by
  have hlt := num_lt s h
  have hnum := moveWidx_num h hc (d := -(k : Int)) (by omega) (by omega)
  refine List.ext_getElem (by rw [queue_length, List.length_take, queue_length]; omega) fun i _ _ => ?_
  simp [State.queue]

/-- Truncation to the newest `n` words drops the others, if there are any (40_ring_buffer.md R153). -/
theorem truncate_newest_queue (n : Nat) : (s.truncate .newest n).queue = s.queue.drop (s.num - n) := by
  unfold State.truncate
  split
  · exact advanceRidx_queue h hc (Nat.sub_le ..)
  · rw [Nat.sub_eq_zero_of_le (by omega), List.drop_zero]

/-- Truncation to the oldest `n` words keeps the front of the queue (40_ring_buffer.md R153). -/
theorem truncate_oldest_queue (n : Nat) : (s.truncate .oldest n).queue = s.queue.take n := by
  unfold State.truncate
  split
  · rw [moveWidx_neg_queue h hc (Nat.sub_le ..), Nat.sub_sub_self (by omega)]
  · rw [List.take_of_length_le (by rw [queue_length]; omega)]

theorem truncate_num (retain : Retain) (n : Nat) : (s.truncate retain n).num = min n s.num := by
  rw [← queue_length, ← queue_length s]
  cases retain with
  | newest => rw [truncate_newest_queue h hc, List.length_drop, queue_length]; omega
  | oldest => rw [truncate_oldest_queue h hc, List.length_take]

end cursors

/-! ### Storing words -/

/-- The state after `ws` have been stored at the push indices (40_ring_buffer.md R148): `effect_rbPush` says that this is what RB_PUSH does
with the words that fit. -/
def State.pushed (s : State) (ws : List Word) : State :=
  (s.setMem .ring (s.ringStored s.ring 0 ws)).moveWidx (ws.length : Int)

theorem effect_rbPush (s : State) (data : List Word) : effect (.rbPush data) s = s.pushed (data.take s.rem) := by
  rw [List.take_eq_take_min, State.pushed, List.length_take, min_comm, min_eq_left (Nat.min_le_left ..)]
  rfl

variable {ws : List Word}

theorem pushed_word?_pushIndex (hws : ws.length ≤ s.cap.toNat) {j : Nat} (hj : j < ws.length) :
    (s.pushed ws).word? .ring (s.pushIndex j) = some ws[j] := by
  have hread := ringStored_read s ws s.ring 0 j hj (by omega)
  rw [Nat.zero_add] at hread
  simpa [State.pushed] using hread

theorem pushed_word?_other {a : Nat} (ha : ∀ j, j < ws.length → s.pushIndex j ≠ a) :
    (s.pushed ws).word? .ring a = s.word? .ring a := by
  rw [State.pushed, moveWidx_word?, setMem_word?_same, ringStored_other s ws s.ring 0 a (by simpa using ha)]
  rfl

theorem pushed_word?_of_ne (s : State) {sp : Space} (hsp : sp ≠ .ring) (a : Nat) : (s.pushed ws).word? sp a = s.word? sp a := by
  simp [State.pushed, hsp]

@[simp] theorem pushed_oldestIndex (s : State) (i : Nat) : (s.pushed ws).oldestIndex i = s.oldestIndex i := by
  simp [State.pushed, State.oldestIndex]

section cursors
variable (h : s.cap ≠ 0) (hc : s.cap.toNat ≤ 2 ^ 20) (hws : ws.length ≤ s.rem)
include h hws

theorem num_add_length_lt : s.num + ws.length < s.cap.toNat := by
  have hsum := num_add_rem h
  have hpos := cap_toNat_pos h
  omega

/-- No stored word lies at a push index. -/
theorem pushIndex_ne_oldestIndex {i j : Nat} (hi : i < s.num) (hj : j < ws.length) : s.pushIndex j ≠ s.oldestIndex i := by
  have hlt := num_add_length_lt h hws
  rw [← oldestIndex_num_add h]
  intro he
  have := oldestIndex_inj s (by omega) (by omega) he
  omega

include hc

theorem pushed_num : (s.pushed ws).num = s.num + ws.length := by
  have hlt := num_add_length_lt h hws
  have hnum := moveWidx_num (s := s.setMem .ring (s.ringStored s.ring 0 ws)) (d := (ws.length : Int)) (by simpa using h)
    (by simpa using hc) (by omega) (by rw [setMem_num, setMem_cap]; omega)
  rw [setMem_num] at hnum
  exact_mod_cast hnum

/-- Stored words go behind those the ring holds. -/
theorem pushed_queue : (s.pushed ws).queue = s.queue ++ ws.map some := by
  have hlt := num_add_length_lt h hws
  rw [State.queue, pushed_num h hc hws, List.range_add, List.map_append, List.map_map]
  congr 1
  · refine List.map_congr_left fun i hi => ?_
    rw [pushed_oldestIndex, pushed_word?_other fun j hj => pushIndex_ne_oldestIndex h hws (List.mem_range.1 hi) hj]
  · refine List.ext_getElem (by simp) fun j hj _ => ?_
    have hj : j < ws.length := by simpa using hj
    simp [oldestIndex_num_add h, pushed_word?_pushIndex (s := s) (by omega) hj]

end cursors

/-! ### What a command does to the stored words -/

/-- The commands that do not write the ring leave it as it is. -/
theorem effect_sameRing {i : Instr} (hi : i.opcode ∉ [Opcode.rbSetcap, .rbPush, .rbPop, .rbSetnum]) : SameRing s (effect i s) where
  cap := by
    by_contra hw
    obtain ⟨n, rfl⟩ := writer_of_cap hw
    simp [Instr.opcode] at hi
  ridx := by
    by_contra hw
    obtain ⟨count, off, rfl⟩ | ⟨n, rfl⟩ | ⟨n, rfl⟩ := writer_of_ridx hw <;> simp [Instr.opcode] at hi
  widx := by
    by_contra hw
    obtain ⟨data, rfl⟩ | ⟨n, rfl⟩ | ⟨n, rfl⟩ := writer_of_widx hw <;> simp [Instr.opcode] at hi
  mem := effect_mem_of_not_writes fun hw => hi (by rw [show i.opcode = .rbPush from hw]; decide)

/-- RB_SETCAP leaves no stored word: RIDX stands one slot behind WIDX. -/
theorem effect_rbSetcap_num (n : BitVec 20) (s : State) : (effect (.rbSetcap n) s).num = 0 := by
  refine num_eq_zero ?_
  simp [effect]

section cursors
variable (h : s.cap ≠ 0) (hc : s.cap.toNat ≤ 2 ^ 20)
include h hc

theorem effect_rbPush_queue (data : List Word) :
    (effect (.rbPush data) s).queue = s.queue ++ (data.take s.rem).map some := by
  rw [effect_rbPush, pushed_queue h hc (List.length_take_le ..)]

theorem effect_rbPop_queue (count : BitVec 20) (off : Word) : (effect (.rbPop count off) s).queue = s.queue.drop count.toNat := by
  have hcopied := writeWords_sameRing s (sp := .scr) (by decide) off.toNat (s.oldestWords (min count.toNat s.num))
  rw [effect, advanceRidx_queue (by rwa [hcopied.cap]) (by rwa [hcopied.cap]) (by rw [hcopied.num]; exact Nat.min_le_right ..),
    hcopied.queue, List.drop_eq_drop_min (i := count.toNat), queue_length]

end cursors

/-- A command that answers has left the ring as it was, or as its effect leaves it. -/
theorem exec_sameRing {i : Instr} (h : exec i s = .next t) : SameRing s t ∨ (passed i s ∧ SameRing (effect i s) t) := by
  obtain ⟨st, -, -, e⟩ | ⟨-, hp, v, data, -, e⟩ | ⟨f, e⟩ := exec_cases i s <;> cases e.symm.trans h
  · exact .inl (respond_sameRing ..)
  · exact .inr ⟨hp, respond_sameRing ..⟩

end Sys2Proof.Machine
end

section
/-! Every stored ring word has been written, after every step (40_ring_buffer.md R147, R154, 93_implementation_defined.md I16). -/

namespace Sys2Proof.Machine

variable {s t : State}

/-- A CAP that is legal, 0 included, is not larger than an index can say (00_scope.md R8, 10_state.md R46). -/
theorem cap_le_two_pow (hp : s.params.legal = true) (hc : s.CapLegal) : s.cap.toNat ≤ 2 ^ 20 := by
  obtain ⟨-, -, -, hdepth⟩ := of_decide_eq_true hp
  exact (cap_le_rbDepth hc).trans hdepth

/-- RB_PUSH appends written words, RB_SETCAP leaves an empty ring, and no other command adds a stored word. -/
theorem effect_queueWritten {i : Instr} (hinv : s.Inv) (hp : passed i s) (hq : s.QueueWritten) : (effect i s).QueueWritten := by
  have hc := cap_le_two_pow hinv.params hinv.cap
  by_cases hi : i.opcode ∈ [Opcode.rbSetcap, .rbPush, .rbPop, .rbSetnum]
  case neg => exact (effect_sameRing hi).queueWritten hq
  intro _ w hw
  cases i with
  | rbSetcap n => simp [queue_eq_nil (effect_rbSetcap_num n s)] at hw
  | rbPush data =>
    obtain ⟨h, -⟩ := hp
    rw [effect_rbPush_queue h hc] at hw
    obtain hw | hw := List.mem_append.1 hw
    · exact hq h w hw
    · obtain ⟨v, -, rfl⟩ := List.mem_map.1 hw
      exact Option.some_ne_none v
  | rbPop count off =>
    obtain ⟨h, -⟩ := hp
    rw [effect_rbPop_queue h hc] at hw
    exact hq h w (List.mem_of_mem_drop hw)
  | rbSetnum retain n =>
    cases retain with
    | newest =>
      rw [effect, truncate_newest_queue hp hc] at hw
      exact hq hp w (List.mem_of_mem_drop hw)
    | oldest =>
      rw [effect, truncate_oldest_queue hp hc] at hw
      exact hq hp w (List.mem_of_mem_take hw)
  | _ => simp [Instr.opcode] at hi

theorem exec_queueWritten {i : Instr} (hinv : s.Inv) (hq : s.QueueWritten) (h : exec i s = .next t) : t.QueueWritten := by
  obtain hsame | ⟨hp, hsame⟩ := exec_sameRing h
  · exact hsame.queueWritten hq
  · exact hsame.queueWritten (effect_queueWritten hinv hp hq)

theorem withEvents_sameRing (s : State) (es : List Event) : SameRing s { s with events := es } := ⟨rfl, rfl, rfl, rfl⟩

theorem hostWrite_sameRing (s : State) (p : Port) (w : Word) : SameRing s (s.hostWrite p w) := by
  unfold State.hostWrite
  split
  · exact setPort_sameRing ..
  · exact .refl s

theorem hostTake_sameRing (s : State) (p : Port) : SameRing s (s.hostTake p) := by
  unfold State.hostTake
  split
  · exact .refl s
  · exact setPort_sameRing ..

/-- After block reset the ring is not configured (70_reset_and_hazards.md R320). -/
theorem blockReset_queueWritten (s : State) (level : Bool) : (s.blockReset level).QueueWritten := absurd rfl

theorem runPort_queueWritten {p : Port} (hinv : s.Inv) (hq : s.QueueWritten) (h : runPort p s = .next t) : t.QueueWritten := by
  obtain ⟨-, e⟩ | ⟨i, n, hr, -, e⟩ | ⟨-, hd, n, -, -, e⟩ := runPort_cases p s <;> rw [e] at h
  · cases h; exact hq
  · exact exec_queueWritten (consume_inv hinv (rstN_of_ready hr) p n) ((consume_sameRing s p n).queueWritten hq) h
  · cases h
    exact (respond_sameRing ..).queueWritten ((consume_sameRing s p n).queueWritten hq)

/-- Settles O58: RB_PUSH adds written words only, and no other move of a step adds a stored word. -/
theorem storedRingWordsAreWritten : Obligations.StoredRingWordsAreWritten := by
  intro s t hinv hq hstep
  have hq' : ∀ rest, State.QueueWritten { s with events := rest } := fun rest => (withEvents_sameRing s rest).queueWritten hq
  obtain ⟨p, w, rest, -, e⟩ | ⟨p, rest, -, e⟩ | ⟨rest, -, e⟩ | ⟨rest, -, e⟩ | ⟨p, rest, -, e⟩ | ⟨-, -, e⟩ | ⟨p, -, -, e⟩ :=
    step_cases s <;> rw [e] at hstep
  · cases hstep; exact (hostWrite_sameRing ..).queueWritten (hq' rest)
  · cases hstep; exact (hostTake_sameRing ..).queueWritten (hq' rest)
  · cases hstep; exact blockReset_queueWritten _ _
  · cases hstep; exact blockReset_queueWritten _ _
  · exact runPort_queueWritten (withEvents_inv hinv rest) (hq' rest) hstep
  · cases hstep; exact hq
  · exact runPort_queueWritten hinv hq hstep

end Sys2Proof.Machine
end

section
/-! What the ring commands answer (40_ring_buffer.md R146 to R153): one equation per command that passes its checks, which gives its VALUE
and its effect, and from it the completion statements; the ring as a queue (R154). -/

namespace Sys2Proof.Machine

variable {s t : State}

/-! ### Errors -/

/-- A command on one of its ports that answers with an error has no effect (60_exceptions.md R291). -/
theorem raised_onItsPorts {op : Opcode} {st : Status} {k : Result} (hg : s.granted ∈ allowedPorts op)
    (hk : k = .next (raise op st s)) : Raised (statusWord op.code st) s (onItsPorts op s k) := by
  rw [onItsPorts_pos k hg, hk]
  exact raise_raised op st s

theorem raised_ring_unconfigured {op : Opcode} (k : Result) (h : s.cap = 0) (hg : s.granted ∈ allowedPorts op) :
    Raised (statusWord op.code .unconfig) s (onItsPorts op s (ringConfigured op s k)) :=
  raised_onItsPorts hg (ringConfigured_neg k h)

theorem raised_fft_unconfigured {op : Opcode} (k : Result) (h : s.fftn = 0) (hg : s.granted ∈ allowedPorts op) :
    Raised (statusWord op.code .unconfig) s (onItsPorts op s (fftConfigured op s k)) :=
  raised_onItsPorts hg (fftConfigured_neg k h)

/-- The response words are determined by the states before and after. -/
theorem Answers.words_unique {ws ws' : List Word} (h : Answers s t ws) (h' : Answers s t ws') : ws = ws' :=
  List.append_cancel_left (congrArg PortState.rsp (h.executing.symm.trans h'.executing))

/-- RB_SETCAP answers OK, ERR_PORT or ERR_RANGE (40_ring_buffer.md R147). -/
theorem exec_rbSetcap_answers (n : BitVec 20) (s : State) :
    ∃ t st v, exec (.rbSetcap n) s = .next t ∧ st ∈ [Status.ok, .port, .range] ∧
      Answers s t [statusWord Opcode.rbSetcap.code st, v] := by
  change ∃ t st v, execRbSetcap n s = .next t ∧ _
  unfold execRbSetcap
  obtain ⟨-, e⟩ | ⟨-, e⟩ := onItsPorts_eq .rbSetcap s _ <;> rw [e]
  · split
    · exact ⟨_, .ok, _, rfl, by decide, success_answers (.rbSetcap n) _ _ s⟩
    · exact ⟨_, .range, _, rfl, by decide, respond_answers ..⟩
  · exact ⟨_, .port, _, rfl, by decide, respond_answers ..⟩

theorem exec_rbSetcap_not_unconfigured (n : BitVec 20) (s : State) : ¬ Raised 0x10000003#32 s (exec (.rbSetcap n) s) := by
  rintro ⟨t, ht, hans, -⟩
  obtain ⟨t', st, v, ht', hst, hans'⟩ := exec_rbSetcap_answers n s
  cases ht.symm.trans ht'
  have hstatus : statusWord Opcode.rbSetcap.code st = 0x10000003#32 := (List.cons.inj (hans'.words_unique hans)).1
  revert hstatus hst
  cases st <;> decide

/-- Settles O14: each command's configuration check comes right after its port check; RB_SETCAP has none. -/
theorem unconfiguredUnitsAreRefused : Obligations.UnconfiguredUnitsAreRefused := by
  refine fun s => ⟨fun h => ?_, fun h hg mode => ?_⟩
  · have onP1 : s.granted = .p1 → s.granted ∈ [Port.p1] := List.mem_singleton.2
    have onP0P1 : s.granted = .p0 ∨ s.granted = .p1 → s.granted ∈ [Port.p0, .p1] := fun hg => by simpa using hg
    exact ⟨fun hg _ => raised_ring_unconfigured _ h (List.mem_singleton.2 hg),
      fun hg _ _ => raised_ring_unconfigured _ h (onP1 hg), fun hg _ _ => raised_ring_unconfigured _ h (onP1 hg),
      fun hg => raised_ring_unconfigured _ h (onP0P1 hg), fun hg => raised_ring_unconfigured _ h (onP0P1 hg),
      fun hg _ _ => raised_ring_unconfigured _ h (onP1 hg), fun n => exec_rbSetcap_not_unconfigured n s⟩
  · have hport := List.mem_singleton.2 hg
    exact ⟨raised_fft_unconfigured _ h hport, raised_fft_unconfigured _ h hport⟩

/-! ### Successes: one equation per command -/

/-- The command passes its checks: it has its effect and answers OK and the VALUE `v`, with no data words. -/
def Completes (i : Instr) (v : Word) (s : State) : Prop := exec i s = .next (reply i.opcode v [] (effect i s))

/-- What a command that completes leaves: its answer, and the registers, words and ring of its effect. -/
theorem Completes.next {i : Instr} {op : Opcode} {v : Word} (h : Completes i v s) (hop : i.opcode = op) :
    ∃ t, exec i s = .next t ∧ Answers s t [statusWord op.code .ok, v] ∧ t.regs = (effect i s).regs ∧
      SameWords (effect i s) t ∧ SameRing (effect i s) t := by
  subst hop
  exact ⟨_, h, success_answers i v [] s, reply_regs .., fun _ _ => reply_word? .., respond_sameRing ..⟩

/-- The state a command that completes answers has the ring of its effect. -/
theorem Completes.sameRing {i : Instr} {v : Word} (h : Completes i v s) (ht : exec i s = .next t) : SameRing (effect i s) t := by
  cases ht.symm.trans h
  exact respond_sameRing ..

/-- A ring command on one of its ports with a configured ring goes on to its own checks. -/
theorem onItsPorts_ringConfigured_pos {op : Opcode} (k : Result) (hg : s.granted ∈ allowedPorts op) (h : s.cap ≠ 0) :
    onItsPorts op s (ringConfigured op s k) = k :=
  (onItsPorts_pos _ hg).trans (ringConfigured_pos k h)

theorem rbSetcap_completes {n : BitVec 20} (hg : s.granted = .p1) (hn : 1 ≤ n.toNat ∧ n.toNat + 1 ≤ s.params.rbDepth.toNat) :
    Completes (.rbSetcap n) (zext32 (n.toNat + 1)) s :=
  (onItsPorts_pos _ (List.mem_singleton.2 hg)).trans (if_pos hn)

theorem rbNum_completes (hg : s.granted = .p0 ∨ s.granted = .p1) (h : s.cap ≠ 0) : Completes .rbNum (zext32 s.num) s :=
  onItsPorts_ringConfigured_pos _ (show s.granted ∈ [Port.p0, .p1] by simpa using hg) h

theorem rbRem_completes (hg : s.granted = .p0 ∨ s.granted = .p1) (h : s.cap ≠ 0) : Completes .rbRem (zext32 s.rem) s :=
  onItsPorts_ringConfigured_pos _ (show s.granted ∈ [Port.p0, .p1] by simpa using hg) h

theorem rbSetnum_completes (retain : Retain) (n : BitVec 20) (hg : s.granted = .p1) (h : s.cap ≠ 0) :
    Completes (.rbSetnum retain n) (zext32 (min n.toNat s.num)) s :=
  onItsPorts_ringConfigured_pos _ (List.mem_singleton.2 hg) h

section ring
variable (h : s.cap ≠ 0) (hc : s.CapLegal)
include h hc

theorem rbPush_completes (data : List Word) (hg : s.granted = .p0) : Completes (.rbPush data) (signedCount s.rem data.length) s :=
  (onItsPorts_ringConfigured_pos _ (List.mem_singleton.2 hg) h).trans (ringInMemory_pos _ (cap_le_rbDepth hc))

variable {count : BitVec 20} {off : Word} (hg : s.granted = .p1) (hr : off.toNat + count.toNat ≤ s.params.nmax)
include hg hr

theorem rbPop_completes : Completes (.rbPop count off) (signedCount s.num count.toNat) s :=
  (onItsPorts_ringConfigured_pos _ (List.mem_singleton.2 hg) h).trans
    ((frameRange_pos _ hr).trans (ringInMemory_pos _ (cap_le_rbDepth hc)))

theorem rbPeek_completes : Completes (.rbPeek count off) (signedCount s.num count.toNat) s :=
  (onItsPorts_ringConfigured_pos _ (List.mem_singleton.2 hg) h).trans
    ((frameRange_pos _ hr).trans (ringInMemory_pos _ (cap_le_rbDepth hc)))

end ring

/-! ### What the effects leave -/

theorem effect_rbSetcap_rem {n : BitVec 20} (hn : 1 ≤ n.toNat) : (effect (.rbSetcap n) s).rem = n.toNat := by
  have hcap : (effect (.rbSetcap n) s).cap.toNat = n.toNat + 1 := setcap_toNat
  have hsum := num_add_rem (cap_ne_zero_of_two_le (by rw [hcap]; omega))
  rw [hcap, effect_rbSetcap_num] at hsum
  omega

theorem pushed_regs (s : State) (ws : List Word) :
    (s.pushed ws).regs = { s.regs with widx := BitVec.ofNat 20 ((s.widx.toNat + ws.length) % s.cap.toNat) } := by
  have hmod := modCap_natCast (s.setMem .ring (s.ringStored s.ring 0 ws)) (s.widx.toNat + ws.length)
  rw [Nat.cast_add] at hmod
  simp only [State.regs, State.pushed, State.moveWidx, setMem_cap, setMem_ridx, setMem_widx, setMem_tin, setMem_tout, setMem_fftn,
    hmod]

/-- The copy of the `k` oldest words to SCR, which RB_POP and RB_PEEK make (40_ring_buffer.md R149, R150). -/
theorem oldest_copied (s : State) (a k i : Nat) (hi : i < k) :
    (s.writeWords .scr a (s.oldestWords k)).word? .scr (a + i) = some (s.readWord .ring (s.oldestIndex i)) := by
  rw [writeWords_word?, oldestWords_length, if_pos ⟨rfl, by omega, by omega⟩, Nat.add_sub_cancel_left]
  simp [State.oldestWords, hi]

theorem oldest_copied_frame (s : State) (a k : Nat) :
    SameWordsBut (fun sp c => sp = .scr ∧ a ≤ c ∧ c < a + k) s (s.writeWords .scr a (s.oldestWords k)) := by
  intro sp c hno
  rw [writeWords_word?, oldestWords_length, if_neg hno]

/-- The cursors as the rule writes them, with integer differences (40_ring_buffer.md R153). -/
theorem truncate_regs (h : s.cap ≠ 0) (retain : Retain) (n : Nat) :
    (s.truncate retain n).regs = if s.num ≤ n then s.regs else
      match retain with
      | .newest => { s.regs with ridx := BitVec.ofInt 20 (((s.ridx.toNat : Int) + (s.num - n)) % s.cap.toNat) }
      | .oldest => { s.regs with widx := BitVec.ofInt 20 (((s.widx.toNat : Int) - (s.num - n)) % s.cap.toNat) } := by
  unfold State.truncate
  by_cases hn : s.num ≤ n
  · rw [if_pos hn, if_neg (by omega)]
  · rw [if_neg hn, if_pos (by omega), ← Nat.cast_sub (by omega)]
    cases retain with
    | newest =>
      dsimp only
      rw [← Nat.cast_add, ← Int.natCast_mod, BitVec.ofInt_natCast]
      rfl
    | oldest =>
      dsimp only
      rw [sub_eq_add_neg, ← modCap_cast h, BitVec.ofInt_natCast]
      rfl

/-! ### Completions -/

/-- Settles O24: the emptied ring has CAP - 1 free slots. -/
theorem rbSetcapEmptiesTheRing : Obligations.RbSetcapEmptiesTheRing := by
  refine fun s n hg => ⟨fun hn => ?_, fun hn => raised_onItsPorts (List.mem_singleton.2 hg) (if_neg (by omega))⟩
  obtain ⟨t, ht, hans, hregs, hwords, hring⟩ := (rbSetcap_completes hg hn).next (op := .rbSetcap) rfl
  refine ⟨t, ht, hans, hregs, fun sp a => ?_, ?_, ?_⟩
  · rw [hwords, State.word?, effect_mem_of_not_writes (by cases sp <;> simp [Writes, Instr.opcode]), State.word?]
  · rw [hring.num, effect_rbSetcap_num]
  · rw [hring.rem, effect_rbSetcap_rem hn.1]

/-- Settles O25: RB_PUSH stores the words that fit at the push indices and changes no other word. -/
theorem rbPushStoresWhatFits : Obligations.RbPushStoresWhatFits := by
  intro s data hg h hc
  have hlen : (data.take s.rem).length = min data.length s.rem := by rw [List.length_take, min_comm]
  have hlt := rem_lt s h
  obtain ⟨t, ht, hans, hregs, hwords, -⟩ := (rbPush_completes h hc data hg).next (op := .rbPush) rfl
  rw [effect_rbPush] at hregs hwords
  refine ⟨t, ht, hans, ?_, fun i hi hfit => ?_, fun sp a hno => ?_⟩
  · rw [hregs, pushed_regs, hlen]
  · rw [hwords, pushed_word?_pushIndex (by omega) (by omega), List.getElem_take]
  · rw [hwords]
    obtain rfl | hsp := eq_or_ne sp .ring
    · exact pushed_word?_other fun j hj he => hno ⟨rfl, j, by omega, he.symm⟩
    · exact pushed_word?_of_ne s hsp a

/-- Settles O26: the copy, and RIDX moved on. -/
theorem rbPopTakesTheOldest : Obligations.RbPopTakesTheOldest := by
  intro s count off hg h hc hr
  obtain ⟨t, ht, hans, hregs, hwords, -⟩ := (rbPop_completes h hc hg hr).next (op := .rbPop) rfl
  have hcopy : SameWords (s.writeWords .scr off.toNat (s.oldestWords (min count.toNat s.num))) t := fun sp a => by
    rw [hwords, effect, advanceRidx_word?]
  refine ⟨t, ht, hans, ?_, fun i hi => ?_, fun sp a hno => ?_⟩
  · rw [hregs]
    simp [State.regs, effect, State.advanceRidx, State.writeWords]
  · rw [hcopy, oldest_copied s _ _ i hi]
  · rw [hcopy, oldest_copied_frame s _ _ sp a hno]

/-- Settles O27: the copy alone. -/
theorem rbPeekCopiesTheOldest : Obligations.RbPeekCopiesTheOldest := by
  intro s count off hg h hc hr
  obtain ⟨t, ht, hans, hregs, hwords, -⟩ := (rbPeek_completes h hc hg hr).next (op := .rbPeek) rfl
  refine ⟨t, ht, hans, ?_, fun i hi => ?_, fun sp a hno => ?_⟩
  · exact hregs.trans (setMem_regs ..)
  · rw [hwords, effect, oldest_copied s _ _ i hi]
  · rw [hwords, effect, oldest_copied_frame s _ _ sp a hno]

/-- Settles O28: neither command has an effect. -/
theorem rbNumAndRbRemAnswerTheCounts : Obligations.RbNumAndRbRemAnswerTheCounts := by
  refine fun s hg h => ⟨?_, ?_⟩
  · obtain ⟨t, ht, hans, hregs, hwords, -⟩ := (rbNum_completes hg h).next (op := .rbNum) rfl
    exact ⟨t, ht, hans, hregs, hwords⟩
  · obtain ⟨t, ht, hans, hregs, hwords, -⟩ := (rbRem_completes hg h).next (op := .rbRem) rfl
    exact ⟨t, ht, hans, hregs, hwords⟩

/-- Settles O29: RB_SETNUM's effect is the truncation. -/
theorem rbSetnumTruncates : Obligations.RbSetnumTruncates := by
  intro s retain n hg h hp hc _
  obtain ⟨t, ht, hans, hregs, hwords, hring⟩ := (rbSetnum_completes retain n hg h).next (op := .rbSetnum) rfl
  refine ⟨t, ht, hans, fun sp a => ?_, ?_, ?_⟩
  · rw [hwords, effect, State.word?, truncate_mem, State.word?]
  · rw [hring.num, effect, truncate_num h (cap_le_two_pow hp hc)]
  · exact hregs.trans (truncate_regs h retain n.toNat)

/-! ### The ring as a queue -/

/-- A command that does not write the ring leaves the stored words, whether it succeeds or not. -/
theorem exec_queue {i : Instr} (hi : i.opcode ∉ [Opcode.rbSetcap, .rbPush, .rbPop, .rbSetnum]) (h : exec i s = .next t) :
    t.queue = s.queue := by
  obtain hsame | ⟨-, hsame⟩ := exec_sameRing h
  · exact hsame.queue
  · rw [hsame.queue, (effect_sameRing hi).queue]

/-- Settles O31: by what each command's effect does to the stored words. -/
theorem ringRefinesAQueue : Obligations.RingRefinesAQueue := by
  intro s t h hp hc _
  have hc' := cap_le_two_pow hp hc
  refine ⟨fun data hg he => ?_, fun count off hg hr he => ?_, fun count off he => ?_, fun he => ?_, fun n hg he => ?_,
    fun n hg he => ?_, fun n hg hlo hhi he => ?_⟩
  · rw [((rbPush_completes h hc data hg).sameRing he).queue, effect_rbPush_queue h hc']
  · rw [((rbPop_completes h hc hg hr).sameRing he).queue, effect_rbPop_queue h hc']
  · exact exec_queue (i := .rbPeek count off) (by simp [Instr.opcode]) he
  · obtain he | he := he
    · exact exec_queue (i := .rbNum) (by simp [Instr.opcode]) he
    · exact exec_queue (i := .rbRem) (by simp [Instr.opcode]) he
  · rw [((rbSetnum_completes .newest n hg h).sameRing he).queue, effect, truncate_newest_queue h hc']
  · rw [((rbSetnum_completes .oldest n hg h).sameRing he).queue, effect, truncate_oldest_queue h hc']
  · rw [((rbSetcap_completes hg ⟨hlo, hhi⟩).sameRing he).queue, queue_eq_nil (effect_rbSetcap_num n s)]

end Sys2Proof.Machine
end

section
/-! The FFT commands (41_fft.md R190, R191, R197): what each does once its checks have passed, and from it the completion statements. -/

namespace Sys2Proof.Machine

variable {s : State}

/-- VALUE as the statements write a register: its bits, zero-extended (00_scope.md R11). -/
theorem zext32_toNat {w : Nat} (b : BitVec w) : zext32 b.toNat = b.setWidth 32 := BitVec.ofNat_toNat 32 b

theorem fftCfg_completes {n : BitVec 20} (hg : s.granted = .p1) (hn : ∃ k, k ≤ s.params.log2Nmax.toNat ∧ n.toNat = 2 ^ k) :
    Completes (.fftCfg n) (zext32 n.toNat) s :=
  (onItsPorts_pos _ (List.mem_singleton.2 hg)).trans (if_pos ((isFftSize_iff _ _).2 hn))

/-- Settles O42: the size check is that of the rule, and nothing but FFTN is written. -/
theorem fftCfgAcceptsPowersOfTwo : Obligations.FftCfgAcceptsPowersOfTwo := by
  refine fun s n hg => ⟨fun hn => ?_, fun hn => ?_⟩
  · obtain ⟨t, ht, hans, hregs, hwords, -⟩ := (fftCfg_completes hg hn).next (op := .fftCfg) rfl
    refine ⟨t, ht, ?_, hregs, fun sp a => ?_⟩
    · rw [← zext32_toNat]; exact hans
    · rw [hwords, State.word?, effect_mem_of_not_writes (by cases sp <;> simp [Writes, Instr.opcode]), State.word?]
  · exact raised_onItsPorts (List.mem_singleton.2 hg) (if_neg (mt (isFftSize_iff _ _).1 hn))

/-- Words written from index 0 on. -/
theorem writeWords_zero_word? (s : State) (sp sq : Space) (c : Nat) (ws : List Word) :
    (s.writeWords sp 0 ws).word? sq c = if sq = sp ∧ c < ws.length then ws[c]? else s.word? sq c := by
  simp [writeWords_word?]

/-- The words a transform reads, an unwritten one as its free value (10_state.md R42). -/
theorem readWords_zero (s : State) (sp : Space) (n : Nat) :
    s.readWords sp 0 n = (List.range n).map fun i => (s.word? sp i).getD (Config.freeWord s.draws sp i) :=
  List.map_congr_left fun i _ => by rw [Nat.zero_add, readWord_eq]

section transform
variable {L : Nat} {k : Slot} (hg : s.granted = .p1) (hN : s.fftn.toNat = 2 ^ L) (hL : L ≤ s.params.log2Nmax.toNat)
  (hk : (s.tin, k) ∈ [(0#2, Slot.s0), (1#2, Slot.s1), (2#2, Slot.s2)])

include hk in
theorem tinSlot_of_mem : s.tinSlot = k := by rw [State.tinSlot, (slotOf_eq_some_iff _ _).2 hk, Option.getD_some]

include hg hN hL hk

/-- With FFTN and TIN legal a transform on P1 goes on to its own work on the slot TIN names. -/
theorem onItsPorts_transform_pos {op : Opcode} (hop : allowedPorts op = [.p1]) (f : Nat → Slot → Result) :
    (onItsPorts op s <| fftConfigured op s <| withFftSize s fun N => withSlot s.tin (f N)) = f s.fftn.toNat s.tinSlot := by
  have hsize : isFftSize s.params s.fftn.toNat = true := (isFftSize_iff _ _).2 ⟨L, hL, hN⟩
  have hne : s.fftn ≠ 0 := by rintro h; simp [h, isFftSize] at hsize
  rw [onItsPorts_pos _ (by rw [hop]; exact List.mem_singleton.2 hg), fftConfigured_pos _ hne, withFftSize_pos _ hsize,
    withSlot_some _ ((slotOf_eq_some_iff _ _).2 hk), tinSlot_of_mem hk]

theorem fftFwd_completes (mode : Mode) : Completes (.fftFwd mode) (zext32 s.tin.toNat) s :=
  onItsPorts_transform_pos hg hN hL hk rfl _

theorem fftInv_completes (mode : Mode) : Completes (.fftInv mode) (zext32 s.tin.toNat) s :=
  onItsPorts_transform_pos hg hN hL hk rfl _

end transform

/-- Settles O43: the transform is written to the two parts of slot TIN, from index 0 on. -/
theorem fftFwdFillsSlotTin : Obligations.FftFwdFillsSlotTin := by
  intro s mode L k hg hN hL hk
  obtain ⟨t, ht, hans, hregs, hwords, -⟩ := (fftFwd_completes hg hN hL hk mode).next (op := .fftFwd) rfl
  simp only [SameWords, effect, tinSlot_of_mem hk, hN, Nat.log2_two_pow, readWords_zero] at hwords
  refine ⟨t, _, ht, rfl, forwardTransform_length .., ?_, ?_, fun i hi => ⟨?_, ?_⟩, fun sp a hno => ?_⟩
  · rw [← zext32_toNat]; exact hans
  · rw [hregs, effect]; simp
  · rw [hwords, writeWords_zero_word?, if_neg (by simp), writeWords_zero_word?, if_pos ⟨rfl, by simpa using hi⟩,
      List.getElem?_map, List.getElem?_eq_getElem hi, Option.map_some]
  · rw [hwords, writeWords_zero_word?, if_pos ⟨rfl, by simpa using hi⟩, List.getElem?_map, List.getElem?_eq_getElem hi,
      Option.map_some]
  · rw [hwords, writeWords_zero_word?, if_neg, writeWords_zero_word?, if_neg]
    · rintro ⟨rfl, h⟩; exact hno ⟨.inl rfl, by simpa using h⟩
    · rintro ⟨rfl, h⟩; exact hno ⟨.inr rfl, by simpa using h⟩

/-- Settles O44: the inverse transform is written to SCR from index 0 on. -/
theorem fftInvFillsScratch : Obligations.FftInvFillsScratch := by
  intro s mode L k hg hN hL hk
  obtain ⟨t, ht, hans, hregs, hwords, -⟩ := (fftInv_completes hg hN hL hk mode).next (op := .fftInv) rfl
  simp only [SameWords, effect, tinSlot_of_mem hk, hN, Nat.log2_two_pow, readWords_zero, List.zip_map'] at hwords
  refine ⟨t, _, ht, rfl, inverseTransform_length .., ?_, ?_, fun i hi => ?_, fun sp a hno => ?_⟩
  · rw [← zext32_toNat]; exact hans
  · rw [hregs, effect]; simp
  · rw [hwords, writeWords_zero_word?, if_pos ⟨rfl, hi⟩, List.getElem?_eq_getElem hi]
  · rw [hwords, writeWords_zero_word?, if_neg]
    rintro ⟨rfl, h⟩
    exact hno ⟨rfl, by simpa using h⟩

end Sys2Proof.Machine
end

section
/-! Bit reversal, butterflies and stages of the network, and the transforms made of them (41_fft.md R186 to R199). Each stage is a fold of
butterflies on disjoint pairs of words, so that a pair is changed by its own butterfly only. -/

namespace Sys2Proof.Machine

/-- In a fold over 0, …, n - 1 one step matters: the steps before it keep `P`, it turns `P` into `Q`, the steps after it keep `Q`. -/
theorem foldl_range_isolated {β : Type} {step : β → Nat → β} {P Q : β → Prop} {n i : Nat} (hi : i < n)
    (before : ∀ j, j < i → ∀ b, P b → P (step b j)) (own : ∀ b, P b → Q (step b i))
    (after : ∀ j, i < j → j < n → ∀ b, Q b → Q (step b j)) {b : β} (hb : P b) : Q ((List.range n).foldl step b) := by
  have hkept : ∀ m, m ≤ i → P ((List.range m).foldl step b) := by
    intro m
    induction m with
    | zero => exact fun _ => hb
    | succ m ih =>
      intro hm
      rw [List.range_succ, List.foldl_append]
      exact before m (by omega) _ (ih (by omega))
  induction n with
  | zero => omega
  | succ n ih =>
    rw [List.range_succ, List.foldl_append]
    obtain rfl | hne := eq_or_ne i n
    · exact own _ (hkept i le_rfl)
    · exact after n (by omega) (by omega) _ (ih (by omega) fun j hj hjn => after j hj (by omega))

/-! ### The permutation -/

/-- The reversal is its own inverse below `2 ^ L`, so it takes each index to one of its own. -/
theorem bitrev_inj {L i j : Nat} (hi : i < 2 ^ L) (hj : j < 2 ^ L) (h : bitrev L i = bitrev L j) : i = j := by
  rw [← bitrev_bitrev hi, h, bitrev_bitrev hj]

theorem permute_bitrev (L : Nat) (x : List Cx) {i : Nat} (hi : i < 2 ^ L) :
    (permute L x)[bitrev L i]? = some (x.getD i (0, 0)) := by
  refine foldl_range_isolated (P := fun p => p.length = 2 ^ L) (Q := fun p => p[bitrev L i]? = some (x.getD i (0, 0))) hi ?_ ?_ ?_
    List.length_replicate
  · exact fun j _ p hp => by rw [List.length_set, hp]
  · exact fun p hp => List.getElem?_set_self (hp ▸ bitrev_lt L i)
  · exact fun j hij hj p hp => by rw [List.getElem?_set_ne fun e => hij.ne' (bitrev_inj hj hi e), hp]

/-- The permuted array is the one that holds `x[i]` at index `bitrev L i`. -/
theorem eq_permute {L : Nat} {x p : List Cx} (hx : x.length = 2 ^ L) (hp : p.length = 2 ^ L)
    (h : ∀ i (hi : i < x.length), p[bitrev L i]? = some x[i]) : p = permute L x := by
  refine List.ext_getElem? fun c => ?_
  obtain hc | hc := Nat.lt_or_ge c (2 ^ L)
  · have hrev : bitrev L c < x.length := hx ▸ bitrev_lt L c
    have hp' := h (bitrev L c) hrev
    have hpermute := permute_bitrev L x (bitrev_lt L c)
    rw [bitrev_bitrev hc] at hp' hpermute
    rw [hp', hpermute, List.getD_eq_getElem _ _ hrev]
  · rw [List.getElem?_eq_none (hp ▸ hc), List.getElem?_eq_none (permute_length L x ▸ hc)]

/-- Settles O46: each index is the reversal of one, and written once. -/
theorem permuteIsBitReversal : Obligations.PermuteIsBitReversal := by
  refine fun L x hx => ⟨permute_length L x, fun i hi => ?_, ?_⟩
  · rw [permute_bitrev L x hi, List.getD_eq_getElem _ _ (hx ▸ hi), List.getElem?_eq_getElem]
  · rintro rfl
    obtain ⟨z, rfl⟩ := List.length_eq_one_iff.1 hx
    rfl

/-! ### Butterflies and stages -/

/-- The words `u` and `z` stand at the indices `k` and `k2`. -/
def PairAt (k k2 : Nat) (u z : Cx) (a : List Cx) : Prop := a[k]? = some u ∧ a[k2]? = some z

/-- The word a butterfly writes at its first index, from the two it reads (41_fft.md R188). -/
def butterflyUpper (nu : NanSource) (site : List Nat) (w u z : Cx) : Cx :=
  (fadd (nu (6 :: site)) u.1 (cmul nu site w z).1, fadd (nu (7 :: site)) u.2 (cmul nu site w z).2)

/-- The word a butterfly writes at its second index (41_fft.md R188). -/
def butterflyLower (nu : NanSource) (site : List Nat) (w u z : Cx) : Cx :=
  (fsub (nu (8 :: site)) u.1 (cmul nu site w z).1, fsub (nu (9 :: site)) u.2 (cmul nu site w z).2)

variable {nu : NanSource} {site : List Nat} {w u z : Cx} {k k2 c c2 : Nat} {a : List Cx}

theorem butterfly_pairAt (hne : k ≠ k2) (h : PairAt k k2 u z a) :
    PairAt k k2 (butterflyUpper nu site w u z) (butterflyLower nu site w u z) (butterfly nu site w k k2 a) := by
  obtain ⟨hu, hz⟩ := h
  obtain ⟨hk, -⟩ := List.getElem?_eq_some_iff.1 hu
  obtain ⟨hk2, -⟩ := List.getElem?_eq_some_iff.1 hz
  unfold butterfly
  simp only [List.getD_eq_getElem?_getD, hu, hz, Option.getD_some]
  constructor
  · rw [List.getElem?_set_ne hne.symm, List.getElem?_set_self hk]
    rfl
  · rw [List.getElem?_set_self (by rwa [List.length_set])]
    rfl

theorem butterfly_pairAt_other (hc : c ≠ k ∧ c ≠ k2) (hc2 : c2 ≠ k ∧ c2 ≠ k2) (h : PairAt c c2 u z a) :
    PairAt c c2 u z (butterfly nu site w k k2 a) := by
  obtain ⟨hu, hz⟩ := h
  unfold butterfly
  constructor
  · rw [List.getElem?_set_ne hc.2.symm, List.getElem?_set_ne hc.1.symm, hu]
  · rw [List.getElem?_set_ne hc2.2.symm, List.getElem?_set_ne hc2.1.symm, hz]

section stage
variable {s j g : Nat} (hs : 1 ≤ s) (hj : j < 2 ^ (s - 1))

theorem two_mul_half (hs : 1 ≤ s) : 2 ^ s = 2 * 2 ^ (s - 1) := by rw [← pow_succ', Nat.sub_add_cancel hs]

include hs hj

/-- The pair of position `j` in group `g` has no index in common with another pair of the stage (41_fft.md R194). -/
theorem pair_disjoint {j' g' : Nat} (hj' : j' < 2 ^ (s - 1)) (hne : j ≠ j' ∨ g ≠ g') :
    j + g * 2 ^ s ∉ [j' + g' * 2 ^ s, j' + g' * 2 ^ s + 2 ^ (s - 1)] ∧
      j + g * 2 ^ s + 2 ^ (s - 1) ∉ [j' + g' * 2 ^ s, j' + g' * 2 ^ s + 2 ^ (s - 1)] := by
  have hM := two_mul_half hs
  have hparts : ∀ r q, r < 2 ^ s → (r + q * 2 ^ s) % 2 ^ s = r ∧ (r + q * 2 ^ s) / 2 ^ s = q := fun r q hr =>
    ⟨by rw [Nat.add_mul_mod_self_right, Nat.mod_eq_of_lt hr],
      by rw [Nat.add_mul_div_right _ _ (Nat.two_pow_pos s), Nat.div_eq_of_lt hr, Nat.zero_add]⟩
  have hinj : ∀ r q r' q', r < 2 ^ s → r' < 2 ^ s → r + q * 2 ^ s = r' + q' * 2 ^ s → r = r' ∧ q = q' := by
    intro r q r' q' hr hr' e
    obtain ⟨hr1, hq1⟩ := hparts r q hr
    obtain ⟨hr2, hq2⟩ := hparts r' q' hr'
    rw [e] at hr1 hq1
    exact ⟨hr1.symm.trans hr2, hq1.symm.trans hq2⟩
  simp only [List.mem_cons, List.not_mem_nil, or_false, not_or, add_right_comm _ _ (2 ^ (s - 1))]
  refine ⟨⟨fun e => ?_, fun e => ?_⟩, fun e => ?_, fun e => ?_⟩ <;>
  · have := hinj _ _ _ _ (by omega) (by omega) e
    omega

/-- The butterflies of another position leave the pair. -/
theorem groupLoop_pairAt_other {j' G : Nat} (hj' : j' < 2 ^ (s - 1)) (hne : j ≠ j')
    (h : PairAt (j + g * 2 ^ s) (j + g * 2 ^ s + 2 ^ (s - 1)) u z a) :
    PairAt (j + g * 2 ^ s) (j + g * 2 ^ s + 2 ^ (s - 1)) u z (groupLoop nu s j' G w a) := by
  refine List.foldlRecOn _ _ h fun b hb g' _ => ?_
  obtain ⟨hupper, hlower⟩ := pair_disjoint (g := g) (g' := g') hs hj hj' (.inl hne)
  exact butterfly_pairAt_other (by simpa using hupper) (by simpa using hlower) hb

/-- Of the butterflies of its own position, the one of its group changes the pair. -/
theorem groupLoop_pairAt {G : Nat} (hg : g < G) (h : PairAt (j + g * 2 ^ s) (j + g * 2 ^ s + 2 ^ (s - 1)) u z a) :
    PairAt (j + g * 2 ^ s) (j + g * 2 ^ s + 2 ^ (s - 1)) (butterflyUpper nu [j + g * 2 ^ s, j, s] w u z)
      (butterflyLower nu [j + g * 2 ^ s, j, s] w u z) (groupLoop nu s j G w a) := by
  have hother : ∀ {u z : Cx} g', g ≠ g' → ∀ b, PairAt (j + g * 2 ^ s) (j + g * 2 ^ s + 2 ^ (s - 1)) u z b →
      PairAt (j + g * 2 ^ s) (j + g * 2 ^ s + 2 ^ (s - 1)) u z
        (butterfly nu [j + g' * 2 ^ s, j, s] w (j + g' * 2 ^ s) (j + g' * 2 ^ s + 2 ^ (s - 1)) b) := by
    intro u z g' hne b hb
    obtain ⟨hupper, hlower⟩ := pair_disjoint hs hj hj (.inr hne)
    exact butterfly_pairAt_other (by simpa using hupper) (by simpa using hlower) hb
  have hne : j + g * 2 ^ s ≠ j + g * 2 ^ s + 2 ^ (s - 1) := by have := Nat.two_pow_pos (s - 1); omega
  exact foldl_range_isolated hg (fun g' hg' => hother g' hg'.ne') (fun b hb => butterfly_pairAt hne hb)
    (fun g' hg' _ => hother g' hg'.ne) h

end stage

/-- The loop over the positions as a fold, with the twiddles it goes through as a sequence (41_fft.md R189). -/
theorem positionLoop_eq_foldl {s G : Nat} {o : Cx} {w : Nat → Cx} (hw : ∀ j, w (j + 1) = cmul nu [j, s] (w j) o) (H j : Nat)
    (a : List Cx) :
    positionLoop nu s G o H j (w j) a = (List.range H).foldl (fun a i => groupLoop nu s (j + i) G (w (j + i)) a) a := by
  induction H generalizing j a with
  | zero => rfl
  | succ H ih =>
    rw [positionLoop, ← hw, ih, List.range_succ_eq_map, List.foldl_cons, List.foldl_map]
    simp only [Nat.add_zero, Nat.succ_eq_add_one, Nat.add_right_comm _ 1, Nat.add_assoc]

/-- Settles O47: of all butterflies of the stage, the pair's own one changes the pair. -/
theorem stageIsButterfliesOnDisjointPairs : Obligations.StageIsButterfliesOnDisjointPairs := by
  rintro nu p L s a w o hs hL ha rfl hw0 hw
  refine ⟨by rw [networkStage_length, ha], ?_⟩
  rintro g j hj hg k u z t rfl hu hz rfl
  rw [networkStage, ← hw0, positionLoop_eq_foldl hw]
  exact foldl_range_isolated (P := PairAt _ _ u z) (Q := PairAt _ _ (butterflyUpper nu _ (w j) u z) (butterflyLower nu _ (w j) u z)) hj
    (fun i hi b hb => groupLoop_pairAt_other hs hj (by omega) (by omega) hb)
    (fun b hb => by rw [Nat.zero_add]; exact groupLoop_pairAt hs hj hg hb)
    (fun i hi hlt b hb => groupLoop_pairAt_other hs hj (by omega) (by omega) hb) ⟨hu, hz⟩

/-! ### The transforms -/

/-- The network is any sequence of arrays that starts at its input and goes from stage to stage. -/
theorem butterflyNetwork_eq {p : Params} {L : Nat} {a : Nat → List Cx}
    (h : ∀ s, s < L → a (s + 1) = networkStage nu p L (s + 1) (a s)) : butterflyNetwork nu p L (a 0) = a L :=
  foldl_range_eq (fun a i => networkStage nu p L (i + 1) a) a L h

/-- Settles O48: the sequences the statement speaks of are the folds the transforms are. -/
theorem forwardTransformsFollowTheirRules : Obligations.ForwardTransformsFollowTheirRules := by
  refine fun nu p L x hx => ⟨fun a ha0 hperm hstage => ?_, forwardTransform_length .., fun k acc hk h0 hstep => ?_⟩
  · rw [forwardTransform, forwardIterative, ← butterflyNetwork_eq hstage,
      eq_permute (x := x.map fun w => (w, 0x00000000#32)) (by rw [List.length_map, hx]) ha0 fun i hi => ?_]
    rw [hperm i (by simpa using hi), List.getElem_map]
  · have hsum : (List.range (2 ^ L)).foldl (directForwardStep nu p L x k) (acc 0) = acc (2 ^ L) := by
      refine foldl_range_eq _ acc _ fun n hn => ?_
      rw [hstep n (hx ▸ hn) _ rfl, directForwardStep, List.getD_eq_getElem _ _ (hx ▸ hn)]
      rfl
    rw [forwardTransform, forwardDirect, List.getElem?_map, List.getElem?_range hk, Option.map_some, ← h0, hsum]

/-- Settles O49: as O48, on the conjugated words, and scaled. -/
theorem inverseTransformsFollowTheirRules : Obligations.InverseTransformsFollowTheirRules := by
  rintro nu p L x _ hx rfl
  refine ⟨fun mode => inverseTransform_length .., fun a ha0 hperm hstage i hi => ?_, fun n acc hn h0 hstep => ?_⟩
  · have hnetwork : butterflyNetwork nu p L (permute L (x.map fun z => (z.1, fneg z.2))) = a L := by
      rw [← butterflyNetwork_eq hstage, eq_permute (x := x.map fun z => (z.1, fneg z.2)) (by rw [List.length_map, hx]) ha0]
      intro i hi
      rw [hperm i (by simpa using hi), List.getElem_map]
      rfl
    have hi' : i < 2 ^ L := by rwa [← hnetwork, butterflyNetwork_length, permute_length] at hi
    rw [inverseTransform, inverseIterative, hnetwork, List.getElem?_map, List.getElem?_range hi', Option.map_some,
      List.getD_eq_getElem _ _ hi, invScale]
  · have hsum : (List.range (2 ^ L)).foldl (directInverseStep nu p L x n) (acc 0) = acc (2 ^ L) := by
      refine foldl_range_eq _ acc _ fun k hk => ?_
      rw [hstep k (hx ▸ hk) _ rfl, directInverseStep, List.getD_eq_getElem _ _ (hx ▸ hk)]
      rfl
    rw [inverseTransform, inverseDirect, List.getElem?_map, List.getElem?_range hn, Option.map_some, ← h0, hsum, invScale]

end Sys2Proof.Machine
end

section
/-! Rounding to nearest, ties to even (00_scope.md R14, 41_fft.md R181). The bits 30:0 of the words of one sign count the binary32
magnitudes in rising order, so `roundMag` has to choose between two consecutive counts, and everything about it is said by where their
midpoint lies. -/

namespace Sys2Proof.Machine

/-! ### Magnitudes in rising order -/

/-- The bits 30:0 of a word. -/
def magBits (w : Word) : Nat := fExp w * 2 ^ 23 + fFrac w

/-- The magnitude of the word with these bits 30:0, in units of 2^-149; the bits of infinity and beyond as further exponents. -/
def bitsMag (b : Nat) : Nat := if b / 2 ^ 23 = 0 then b % 2 ^ 23 else (2 ^ 23 + b % 2 ^ 23) * 2 ^ (b / 2 ^ 23 - 1)

theorem magBits_div_mod (w : Word) : magBits w / 2 ^ 23 = fExp w ∧ magBits w % 2 ^ 23 = fFrac w := by
  obtain ⟨-, hf, -⟩ := word_fields w
  unfold magBits
  omega

@[simp] theorem bitsMag_magBits (w : Word) : bitsMag (magBits w) = fMag w := by
  obtain ⟨he, hf⟩ := magBits_div_mod w
  rw [bitsMag, he, hf, fMag]

theorem magBits_lt {w : Word} (h : fExp w ≠ 255) : magBits w < 0x7F800000 := by
  obtain ⟨-, hf, he⟩ := word_fields w
  unfold magBits
  omega

theorem magBits_fPack (neg : Bool) {b : Nat} (hb : b ≤ 0x7F800000) : magBits (fPack neg b) = b := by
  obtain ⟨-, he, hf⟩ := fPack_fields neg b (by omega)
  rw [magBits, he, hf]
  omega

/-- A significand `m` with an exponent in which it is normal, or the least exponent. -/
theorem bitsMag_scaled {E m : Nat} (hE : E = 0 ∨ 2 ^ 23 ≤ m) (hm : m ≤ 2 ^ 24) : bitsMag (E * 2 ^ 23 + m) = m * 2 ^ E := by
  unfold bitsMag
  obtain hlt | hge := Nat.lt_or_ge m (2 ^ 23)
  · obtain rfl : E = 0 := by omega
    rw [if_pos (by omega), pow_zero]
    omega
  rw [if_neg (by omega)]
  obtain hlt | rfl := hm.lt_or_eq
  · rw [show (E * 2 ^ 23 + m) / 2 ^ 23 - 1 = E by omega, show 2 ^ 23 + (E * 2 ^ 23 + m) % 2 ^ 23 = m by omega]
  · rw [show (E * 2 ^ 23 + 2 ^ 24) / 2 ^ 23 - 1 = E + 1 by omega, show 2 ^ 23 + (E * 2 ^ 23 + 2 ^ 24) % 2 ^ 23 = 2 ^ 23 by omega]
    ring

theorem bitsMag_strictMono : StrictMono bitsMag := by
  refine strictMono_nat_of_lt_succ fun b => ?_
  obtain ⟨E, m, rfl, hE, hm⟩ : ∃ E m, b = E * 2 ^ 23 + m ∧ (E = 0 ∨ 2 ^ 23 ≤ m) ∧ m < 2 ^ 24 :=
    ⟨b / 2 ^ 23 - 1, b - (b / 2 ^ 23 - 1) * 2 ^ 23, by omega, by omega, by omega⟩
  rw [Nat.add_assoc, bitsMag_scaled hE hm.le, bitsMag_scaled (by omega) hm]
  exact Nat.mul_lt_mul_of_pos_right (Nat.lt_succ_self m) (Nat.two_pow_pos E)

/-! ### `roundMag` -/

/-- The significand of `roundMag` fits 24 bits, and is normal if the unit is larger than the least. -/
theorem roundMag_significand (n k : Nat) :
    n / 2 ^ max k (Nat.log2 n - 23) < 2 ^ 24 ∧ (max k (Nat.log2 n - 23) - k = 0 ∨ 2 ^ 23 ≤ n / 2 ^ max k (Nat.log2 n - 23)) := by
  constructor
  · rw [Nat.div_lt_iff_lt_mul (Nat.two_pow_pos _), ← pow_add]
    exact Nat.lt_log2_self.trans_le (Nat.pow_le_pow_right Nat.two_pos (by omega))
  · obtain hlt | hle := Nat.lt_or_ge k (Nat.log2 n - 23)
    · have hn : n ≠ 0 := by rintro rfl; simp at hlt
      rw [Nat.max_eq_right hlt.le, Nat.le_div_iff_mul_le (Nat.two_pow_pos _), ← pow_add]
      exact .inr ((Nat.pow_le_pow_right Nat.two_pos (by omega)).trans (Nat.log2_self_le hn))
    · exact .inl (by omega)

/-- `roundMag` brackets its argument by two consecutive magnitudes and compares it with their midpoint, a tie going to the even bits. -/
theorem roundMag_bracket (n k : Nat) : ∃ b, bitsMag b * 2 ^ k ≤ n ∧ n < bitsMag (b + 1) * 2 ^ k ∧
    roundMag n k = min (if (bitsMag b + bitsMag (b + 1)) * 2 ^ k < 2 * n ∨
      ((bitsMag b + bitsMag (b + 1)) * 2 ^ k = 2 * n ∧ b % 2 = 1) then b + 1 else b) 0x7F800000 := by
  obtain ⟨hm, hE⟩ := roundMag_significand n k
  unfold roundMag
  generalize hq : max k (Nat.log2 n - 23) = q at *
  have hpow : 2 ^ (q - k) * 2 ^ k = 2 ^ q := by rw [← pow_add, Nat.sub_add_cancel (hq ▸ Nat.le_max_left ..)]
  have hlo : bitsMag ((q - k) * 2 ^ 23 + n / 2 ^ q) * 2 ^ k = n / 2 ^ q * 2 ^ q := by
    rw [bitsMag_scaled hE hm.le, Nat.mul_assoc, hpow]
  have hhi : bitsMag ((q - k) * 2 ^ 23 + n / 2 ^ q + 1) * 2 ^ k = n / 2 ^ q * 2 ^ q + 2 ^ q := by
    rw [Nat.add_assoc, bitsMag_scaled (by omega) hm, Nat.mul_assoc, hpow, Nat.succ_mul]
  have hn := Nat.div_add_mod' n (2 ^ q)
  have hr := Nat.mod_lt n (Nat.two_pow_pos q)
  refine ⟨(q - k) * 2 ^ 23 + n / 2 ^ q, by omega, by omega, ?_⟩
  rw [Nat.add_mul, hlo, hhi]
  dsimp only
  congr 1
  split <;> split <;> omega

theorem scaledMag_strictMono (k : Nat) : StrictMono fun b => bitsMag b * 2 ^ k := fun _ _ h =>
  Nat.mul_lt_mul_of_pos_right (bitsMag_strictMono h) (Nat.two_pow_pos k)

/-- The argument lies on the side of `roundMag n k` of its midpoint with every other magnitude up to infinity, on the midpoint only if
the bits delivered are even. -/
theorem roundMag_midpoints {n k c : Nat} :
    (c < roundMag n k → bitsMag c * 2 ^ k + bitsMag (roundMag n k) * 2 ^ k ≤ 2 * n) ∧
    (roundMag n k < c → c ≤ 0x7F800000 → 2 * n ≤ bitsMag (roundMag n k) * 2 ^ k + bitsMag c * 2 ^ k) ∧
    (c ≠ roundMag n k → c ≤ 0x7F800000 → bitsMag c * 2 ^ k + bitsMag (roundMag n k) * 2 ^ k = 2 * n → roundMag n k % 2 = 0) := by
  obtain ⟨b, hlo, hhi, e⟩ := roundMag_bracket n k
  have hmono : ∀ {i j}, i ≤ j → bitsMag i * 2 ^ k ≤ bitsMag j * 2 ^ k := @(scaledMag_strictMono k).monotone
  have hstrict : ∀ {i j}, i < j → bitsMag i * 2 ^ k < bitsMag j * 2 ^ k := @(scaledMag_strictMono k)
  generalize roundMag n k = r at *
  rw [Nat.add_mul] at e
  split at e
  case isTrue hup =>
    have hr : r ≤ b + 1 := by omega
    have hr' := hmono hr
    have hbelow : c < r → bitsMag c * 2 ^ k ≤ bitsMag b * 2 ^ k := fun h => hmono (by omega)
    have habove : r < c → c ≤ 0x7F800000 → r = b + 1 ∧ bitsMag (b + 1) * 2 ^ k ≤ bitsMag c * 2 ^ k := fun h hc =>
      ⟨by omega, hmono (by omega)⟩
    refine ⟨fun h => by have := hbelow h; omega, fun h hc => by obtain ⟨rfl, h'⟩ := habove h hc; omega, fun hne hc heq => ?_⟩
    obtain h | h := hne.lt_or_gt
    · obtain rfl | hlt := hr.eq_or_lt
      · have := hbelow h; omega
      · have := hbelow h; have := hmono (Nat.lt_succ_iff.1 hlt); have := hstrict h; omega
    · obtain ⟨rfl, h'⟩ := habove h hc; omega
  case isFalse hup =>
    have hr : r ≤ b := by omega
    have hr' := hmono hr
    have habove : r < c → c ≤ 0x7F800000 → r = b ∧ bitsMag (b + 1) * 2 ^ k ≤ bitsMag c * 2 ^ k := fun h hc =>
      ⟨by omega, hmono (by omega)⟩
    refine ⟨fun h => by have := hstrict h; omega, fun h hc => by obtain ⟨rfl, h'⟩ := habove h hc; omega, fun hne hc heq => ?_⟩
    obtain h | h := hne.lt_or_gt
    · have := hstrict h; omega
    · obtain ⟨rfl, h'⟩ := habove h hc; omega

/-- A magnitude of binary32 is delivered as it is. -/
theorem roundMag_exact {b k : Nat} (hb : b ≤ 0x7F800000) : roundMag (bitsMag b * 2 ^ k) k = b := by
  obtain ⟨hbelow, habove, -⟩ := roundMag_midpoints (n := bitsMag b * 2 ^ k) (k := k) (c := b)
  obtain hlt | he | hlt := Nat.lt_trichotomy b (roundMag (bitsMag b * 2 ^ k) k)
  · have hmid := hbelow hlt
    have := scaledMag_strictMono k hlt
    dsimp only at this
    omega
  · exact he.symm
  · have hmid := habove hlt hb
    have := scaledMag_strictMono k hlt
    dsimp only at this
    omega

/-- Infinity is delivered from the midpoint of the largest finite magnitude and the next on; the bits of the largest are odd
(41_fft.md R181). -/
theorem roundMag_eq_inf_iff {n k : Nat} : roundMag n k = 0x7F800000 ↔ (2 ^ 25 - 1) * 2 ^ 252 * 2 ^ k ≤ n := by
  have hmid : bitsMag 0x7F7FFFFF * 2 ^ k + bitsMag 0x7F800000 * 2 ^ k = (2 ^ 25 - 1) * 2 ^ 252 * 2 ^ k * 2 := by
    rw [← Nat.add_mul, Nat.mul_right_comm, show bitsMag 0x7F7FFFFF + bitsMag 0x7F800000 = (2 ^ 25 - 1) * 2 ^ 252 * 2 from rfl]
  have hle := roundMag_le n k
  constructor
  · intro h
    obtain ⟨hbelow, -, -⟩ := roundMag_midpoints (n := n) (k := k) (c := 0x7F7FFFFF)
    rw [h, hmid] at hbelow
    have := hbelow (by omega)
    omega
  · intro h
    by_contra hne
    obtain ⟨-, habove, heven⟩ := roundMag_midpoints (n := n) (k := k) (c := 0x7F800000)
    have hmid' := habove (by omega) le_rfl
    obtain hlt | heq := (show roundMag n k ≤ 0x7F7FFFFF by omega).lt_or_eq
    · have := scaledMag_strictMono k hlt
      dsimp only at this
      omega
    · rw [heq] at hmid' heven
      have := heven (by decide) le_rfl (by omega)
      omega

/-! ### Nearest values -/

section nearest
variable {R : Type} [CommRing R] [LinearOrder R] [IsStrictOrderedRing R]

/-- `y`, in units of 2^-(149 + k), lies on the side of the magnitude of `b` of its midpoint with every other magnitude. -/
def IsNearest (k b : Nat) (y : R) : Prop :=
  (∀ c, c < b → (bitsMag c : R) * 2 ^ k + bitsMag b * 2 ^ k ≤ 2 * y) ∧
  ∀ c, b < c → c ≤ 0x7F800000 → 2 * y ≤ (bitsMag b : R) * 2 ^ k + bitsMag c * 2 ^ k

theorem roundMag_isNearest (n k : Nat) : IsNearest k (roundMag n k) (n : R) :=
  ⟨fun _ h => by exact_mod_cast roundMag_midpoints.1 h, fun _ h hc => by exact_mod_cast roundMag_midpoints.2.1 h hc⟩

/-- Nearest means: no magnitude is nearer. -/
theorem IsNearest.abs_sub_le {k b c : Nat} {y : R} (h : IsNearest k b y) (hc : c ≤ 0x7F800000) :
    |(bitsMag b : R) * 2 ^ k - y| ≤ |(bitsMag c : R) * 2 ^ k - y| := by
  obtain ⟨hbelow, habove⟩ := h
  have hmono : ∀ {i j}, i < j → (bitsMag i : R) * 2 ^ k < bitsMag j * 2 ^ k := fun hij => by
    exact_mod_cast scaledMag_strictMono k hij
  obtain hlt | rfl | hlt := Nat.lt_trichotomy c b
  · have := hbelow c hlt
    have := hmono hlt
    rw [abs_sub_comm _ y, abs_sub_comm _ y]
    exact abs_le.2 ⟨by linarith [le_abs_self (y - bitsMag c * 2 ^ k)], by linarith [le_abs_self (y - bitsMag c * 2 ^ k)]⟩
  · exact le_rfl
  · have := habove c hlt hc
    have := hmono hlt
    exact abs_le.2 ⟨by linarith [le_abs_self (bitsMag c * 2 ^ k - y)], by linarith [le_abs_self (bitsMag c * 2 ^ k - y)]⟩

/-- A sign bit on a magnitude, as a number. -/
theorem abs_fInt (w : Word) : |((fInt w : ℤ) : R)| = fMag w := by
  rw [← Int.cast_abs, Int.abs_eq_natAbs, fInt_natAbs, Int.cast_natCast]

theorem fInt_fPack (neg : Bool) {b : Nat} (hb : b ≤ 0x7F800000) :
    fInt (fPack neg b) = if neg = true then -(bitsMag b : ℤ) else bitsMag b := by
  obtain ⟨hs, -, -⟩ := fPack_fields neg b (by omega)
  rw [fInt, hs, ← bitsMag_magBits, magBits_fPack neg hb]

/-- `x` has the sign that `neg` says, zero either. -/
def SignOf (neg : Bool) (x : R) : Prop := if neg = true then x ≤ 0 else 0 ≤ x

/-- A word with the sign of `x` is as far from `x` as its magnitude is from the magnitude of `x`. -/
theorem abs_fInt_fPack_sub {k b : Nat} {x : R} {neg : Bool} (hb : b ≤ 0x7F800000) (hneg : SignOf neg x) :
    |((fInt (fPack neg b) : ℤ) : R) * 2 ^ k - x| = |(bitsMag b : R) * 2 ^ k - abs x| := by
  rw [fInt_fPack neg hb]
  cases neg with
  | false =>
    have hx : 0 ≤ x := hneg
    rw [abs_of_nonneg hx]
    simp
  | true =>
    have hx : x ≤ 0 := hneg
    rw [abs_of_nonpos hx, ← abs_neg, if_pos rfl]
    push_cast
    ring_nf

/-- The magnitude of a word is no farther from the magnitude of `x` than the word from `x`. -/
theorem abs_bitsMag_sub_le (k : Nat) (x : R) (c : Word) :
    |(bitsMag (magBits c) : R) * 2 ^ k - abs x| ≤ |((fInt c : ℤ) : R) * 2 ^ k - x| := by
  have := abs_abs_sub_abs_le (((fInt c : ℤ) : R) * 2 ^ k) x
  rwa [abs_mul, abs_fInt, abs_pow, abs_two, ← bitsMag_magBits] at this

/-- The word with the sign of `x` and the bits nearest to its magnitude is no farther from `x` than any other finite word. -/
theorem IsNearest.fPack_abs_sub_le {k b : Nat} {x : R} {neg : Bool} (h : IsNearest k b |x|) (hb : b ≤ 0x7F800000)
    (hneg : SignOf neg x) {c : Word} (hc : fExp c ≠ 255) :
    |((fInt (fPack neg b) : ℤ) : R) * 2 ^ k - x| ≤ |((fInt c : ℤ) : R) * 2 ^ k - x| := by
  rw [abs_fInt_fPack_sub hb hneg]
  exact (h.abs_sub_le (magBits_lt hc).le).trans (abs_bitsMag_sub_le k x c)

end nearest

/-! ### Finite sums and products -/

/-- `r` is the exact value `x`, in units of 2^-(149 + k), rounded once: the sign of `x` and the bits `roundMag` gives. -/
def Rounds (k : Nat) (x : ℤ) (r : Word) : Prop := ∃ neg, SignOf neg x ∧ r = fPack neg (roundMag x.natAbs k)

theorem signOf_decide (x : ℤ) : SignOf (decide (x < 0)) x := by
  unfold SignOf
  split
  · next h => exact (of_decide_eq_true h).le
  · next h => exact not_lt.1 (by simpa using h)

theorem not_isInf_of_finite {a : Word} (h : fExp a ≠ 255) : isNaN a = false ∧ isInf a = false := by
  simp [isNaN, isInf, h]

theorem fadd_rounds (nan : Word) {a b : Word} (ha : fExp a ≠ 255) (hb : fExp b ≠ 255) :
    Rounds 0 (fInt a + fInt b) (fadd nan a b) := by
  obtain ⟨hna, hia⟩ := not_isInf_of_finite ha
  obtain ⟨hnb, hib⟩ := not_isInf_of_finite hb
  simp only [fadd, hna, hnb, hia, hib, Bool.or_self, Bool.false_eq_true, if_false]
  split
  · next h =>
    rw [h]
    exact ⟨_, by unfold SignOf; split <;> exact le_rfl, rfl⟩
  · exact ⟨_, signOf_decide _, rfl⟩

theorem signOf_fInt (w : Word) : SignOf (fSign w) (fInt w) := by
  unfold SignOf fInt
  cases fSign w <;> simp

theorem SignOf.mul {x y : ℤ} {m n : Bool} (hx : SignOf m x) (hy : SignOf n y) : SignOf (m != n) (x * y) := by
  cases m <;> cases n
  · exact mul_nonneg hx hy
  · exact mul_nonpos_of_nonneg_of_nonpos hx hy
  · exact mul_nonpos_of_nonpos_of_nonneg hx hy
  · exact mul_nonneg_of_nonpos_of_nonpos hx hy

theorem fmul_finite (nan : Word) {a b : Word} (ha : fExp a ≠ 255) (hb : fExp b ≠ 255) :
    fmul nan a b = fPack (fSign a != fSign b) (roundMag (fMag a * fMag b) 149) := by
  obtain ⟨hna, hia⟩ := not_isInf_of_finite ha
  obtain ⟨hnb, hib⟩ := not_isInf_of_finite hb
  simp [fmul, hna, hnb, hia, hib]

theorem fmul_rounds (nan : Word) {a b : Word} (ha : fExp a ≠ 255) (hb : fExp b ≠ 255) :
    Rounds 149 (fInt a * fInt b) (fmul nan a b) :=
  ⟨_, (signOf_fInt a).mul (signOf_fInt b), by rw [fmul_finite nan ha hb, Int.natAbs_mul, fInt_natAbs, fInt_natAbs]⟩

section rounds
variable {k : Nat} {x : ℤ} {r : Word} (h : Rounds k x r)
include h

theorem Rounds.not_isNaN : isNaN r = false := by
  obtain ⟨neg, -, rfl⟩ := h
  exact isNaN_fPack neg _ (roundMag_le ..)

theorem Rounds.isInf_iff : isInf r = true ↔ (2 ^ 25 - 1) * 2 ^ 252 * 2 ^ k ≤ x.natAbs := by
  obtain ⟨neg, -, rfl⟩ := h
  rw [isInf_fPack neg _ (roundMag_le ..), roundMag_eq_inf_iff]

/-- The sign of an exact value other than zero. -/
theorem Rounds.fSign_iff (hx : x ≠ 0) : fSign r = true ↔ x < 0 := by
  obtain ⟨neg, hneg, rfl⟩ := h
  obtain ⟨hs, -, -⟩ := fPack_fields neg (roundMag x.natAbs k) ((roundMag_le ..).trans_lt (by decide))
  rw [hs]
  cases neg with
  | false => simpa using (show 0 ≤ x from hneg)
  | true => simpa using lt_of_le_of_ne hneg hx

theorem Rounds.natAbs_sub_le {c : Word} (hc : fExp c ≠ 255) : (fInt r * 2 ^ k - x).natAbs ≤ (fInt c * 2 ^ k - x).natAbs := by
  obtain ⟨neg, hneg, rfl⟩ := h
  have hnear : IsNearest k (roundMag x.natAbs k) |x| := by
    rw [Int.abs_eq_natAbs]
    exact roundMag_isNearest ..
  have := hnear.fPack_abs_sub_le (roundMag_le ..) hneg hc
  rwa [Int.cast_id, Int.cast_id, Int.abs_eq_natAbs, Int.abs_eq_natAbs, Nat.cast_le] at this

/-- A finite word of another value that is as near has the exact value on its midpoint with the word delivered, which is then even. It is
not the word delivered with the other sign: no value but zero is as near to both, and zero is delivered as zero. -/
theorem Rounds.even_of_tie {c : Word} (hc : fExp c ≠ 255) (htie : (fInt r * 2 ^ k - x).natAbs = (fInt c * 2 ^ k - x).natAbs)
    (hne : fInt c ≠ fInt r) : fFrac r % 2 = 0 := by
  have hle := h.natAbs_sub_le hc
  obtain ⟨neg, hneg, rfl⟩ := h
  have hb := roundMag_le x.natAbs k
  obtain ⟨-, -, hfrac⟩ := fPack_fields neg (roundMag x.natAbs k) (by omega)
  by_cases heq : magBits c = roundMag x.natAbs k
  case pos =>
    have hmag : (fInt c).natAbs = (fInt (fPack neg (roundMag x.natAbs k))).natAbs := by
      rw [fInt_natAbs, fInt_natAbs, ← bitsMag_magBits, ← bitsMag_magBits, magBits_fPack neg hb, heq]
    have hopp : fInt c = -fInt (fPack neg (roundMag x.natAbs k)) := (Int.natAbs_eq_natAbs_iff.1 hmag).resolve_left hne
    rw [hopp, neg_mul] at htie
    have hzero : fInt (fPack neg (roundMag x.natAbs k)) = 0 := by
      obtain hx | hx := eq_or_ne x 0
      · have hbits : roundMag x.natAbs k = 0 := by simpa [hx, bitsMag] using roundMag_exact (b := 0) (k := k) (by decide)
        rw [fInt_eq_zero_iff, ← bitsMag_magBits, magBits_fPack neg hb, hbits]
        rfl
      · exact (mul_eq_zero.1 (show fInt (fPack neg (roundMag x.natAbs k)) * 2 ^ k = 0 by omega)).resolve_right (by positivity)
    exact absurd (by rw [hopp, hzero, neg_zero]) hne
  case neg =>
    have hmid : bitsMag (magBits c) * 2 ^ k + bitsMag (roundMag x.natAbs k) * 2 ^ k = 2 * x.natAbs := by
      have hr := abs_fInt_fPack_sub (k := k) hb hneg
      have hc' := abs_bitsMag_sub_le k x c
      have hne' : (bitsMag (magBits c) : ℤ) * 2 ^ k ≠ bitsMag (roundMag x.natAbs k) * 2 ^ k := fun e =>
        heq ((scaledMag_strictMono k).injective (by exact_mod_cast e))
      have hnear := (roundMag_isNearest (R := ℤ) x.natAbs k).abs_sub_le (magBits_lt hc).le
      simp only [Int.cast_id, Int.abs_eq_natAbs] at hr hc' hnear
      have : (bitsMag (magBits c) : ℤ) * 2 ^ k + bitsMag (roundMag x.natAbs k) * 2 ^ k = 2 * (x.natAbs : ℤ) := by omega
      exact_mod_cast this
    have heven := roundMag_midpoints.2.2 heq (magBits_lt hc).le hmid
    omega

end rounds

/-- Settles O51: the sum is rounded once, in units of 2^-149. -/
theorem faddRoundsToNearestEven : Obligations.FaddRoundsToNearestEven := by
  intro nan a b ha hb
  have h := fadd_rounds nan ha hb
  refine ⟨h.not_isNaN, by simpa using h.isInf_iff, fun hinf => h.fSign_iff ?_, fun _ c hc => ?_⟩
  · have := h.isInf_iff.1 hinf
    omega
  · have hle := h.natAbs_sub_le hc
    have heven := h.even_of_tie hc
    rw [pow_zero, mul_one, mul_one] at hle heven
    exact ⟨hle, heven⟩

/-- Settles O52: the product is rounded once, in units of 2^-298. -/
theorem fmulRoundsToNearestEven : Obligations.FmulRoundsToNearestEven := by
  intro nan a b ha hb
  have h := fmul_rounds nan ha hb
  refine ⟨h.not_isNaN, ?_, h.isInf_iff, fun _ c hc => ⟨h.natAbs_sub_le hc, h.even_of_tie hc⟩⟩
  rw [fmul_finite nan ha hb]
  exact (fPack_fields _ _ ((roundMag_le ..).trans_lt (by decide))).1

end Sys2Proof.Machine
end

section
/-! NaN results, infinities and zero sums (41_fft.md R181, R183), by the classes of the operands: NaN, infinite, finite. -/

namespace Sys2Proof.Machine

variable {nan a b : Word}

/-- A word is a NaN, an infinity or finite. -/
theorem word_classes (w : Word) :
    (isNaN w = true ∧ isInf w = false ∧ fExp w = 255) ∨ (isNaN w = false ∧ isInf w = true ∧ fExp w = 255) ∨
      (isNaN w = false ∧ isInf w = false ∧ fExp w ≠ 255) := by
  by_cases he : fExp w = 255 <;> by_cases hf : fFrac w = 0 <;> simp [isNaN, isInf, he, hf]

theorem fadd_of_isNaN (h : isNaN a = true ∨ isNaN b = true) : fadd nan a b = nan := by simp [fadd, h]

theorem fmul_of_isNaN (h : isNaN a = true ∨ isNaN b = true) : fmul nan a b = nan := by simp [fmul, h]

theorem isNaN_eq_false_of_isInf {w : Word} (h : isInf w = true) : isNaN w = false := by
  obtain ⟨-, hi, -⟩ | ⟨hn, -⟩ | ⟨hn, -⟩ := word_classes w
  · simp [hi] at h
  · exact hn
  · exact hn

theorem fadd_inf_inf (ha : isInf a = true) (hb : isInf b = true) : fadd nan a b = if fSign a = fSign b then a else nan := by
  by_cases hs : fSign a = fSign b <;>
    simp [fadd, isNaN_eq_false_of_isInf ha, isNaN_eq_false_of_isInf hb, ha, hb, hs]

theorem fadd_inf_finite (ha : isInf a = true) (hb : fExp b ≠ 255) : fadd nan a b = a := by
  obtain ⟨hnb, hib⟩ := not_isInf_of_finite hb
  simp [fadd, isNaN_eq_false_of_isInf ha, hnb, ha, hib]

theorem fadd_finite_inf (ha : fExp a ≠ 255) (hb : isInf b = true) : fadd nan a b = b := by
  obtain ⟨hna, hia⟩ := not_isInf_of_finite ha
  simp [fadd, isNaN_eq_false_of_isInf hb, hna, hb, hia]

theorem fMag_ne_zero_of_isInf {w : Word} (h : isInf w = true) : fMag w ≠ 0 := by
  obtain ⟨he, -⟩ := (isInf_iff w).1 h
  rw [Ne, fMag_eq_zero_iff, he]
  omega

/-- An infinite operand and no NaN: the product with zero is a NaN, every other an infinity. -/
theorem fmul_of_isInf (hna : isNaN a = false) (hnb : isNaN b = false) (h : isInf a = true ∨ isInf b = true) :
    fmul nan a b = if fMag a = 0 ∨ fMag b = 0 then nan else fPack (fSign a != fSign b) 0x7F800000 := by
  simp [fmul, hna, hnb, h]

/-- The sums that are invalid: a NaN operand, or infinities of opposite signs. -/
def AddInvalid (a b : Word) : Prop := isNaN a = true ∨ isNaN b = true ∨ (isInf a = true ∧ isInf b = true ∧ fSign a ≠ fSign b)

/-- An invalid sum delivers the NaN word, every other sum no NaN. -/
theorem fadd_cases (nan a b : Word) :
    (AddInvalid a b ∧ fadd nan a b = nan) ∨ (¬ AddInvalid a b ∧ isNaN (fadd nan a b) = false) := by
  unfold AddInvalid
  obtain ⟨hna, hia, hea⟩ | ⟨hna, hia, hea⟩ | ⟨hna, hia, hea⟩ := word_classes a
  · exact .inl ⟨.inl hna, fadd_of_isNaN (.inl hna)⟩
  · obtain ⟨hnb, hib, heb⟩ | ⟨hnb, hib, heb⟩ | ⟨hnb, hib, heb⟩ := word_classes b
    · exact .inl ⟨.inr (.inl hnb), fadd_of_isNaN (.inr hnb)⟩
    · rw [fadd_inf_inf hia hib]
      split <;> simp [*]
    · simp [fadd_inf_finite hia heb, hna, hnb, hib]
  · obtain ⟨hnb, hib, heb⟩ | ⟨hnb, hib, heb⟩ | ⟨hnb, hib, heb⟩ := word_classes b
    · exact .inl ⟨.inr (.inl hnb), fadd_of_isNaN (.inr hnb)⟩
    · simp [fadd_finite_inf hea hib, hna, hnb, hia]
    · simp [(fadd_rounds nan hea heb).not_isNaN, hna, hnb, hia]

/-- The products that are invalid: a NaN operand, or an infinity times a zero. -/
def MulInvalid (a b : Word) : Prop :=
  isNaN a = true ∨ isNaN b = true ∨ (isInf a = true ∧ fMag b = 0) ∨ (fMag a = 0 ∧ isInf b = true)

/-- An invalid product delivers the NaN word, every other product no NaN. -/
theorem fmul_cases (nan a b : Word) :
    (MulInvalid a b ∧ fmul nan a b = nan) ∨ (¬ MulInvalid a b ∧ isNaN (fmul nan a b) = false) := by
  unfold MulInvalid
  by_cases hn : isNaN a = true ∨ isNaN b = true
  · rw [fmul_of_isNaN hn]
    exact .inl ⟨by tauto, rfl⟩
  obtain ⟨hna, hnb⟩ : isNaN a = false ∧ isNaN b = false := by simpa using hn
  by_cases hi : isInf a = true ∨ isInf b = true
  · have hza := @fMag_ne_zero_of_isInf a
    have hzb := @fMag_ne_zero_of_isInf b
    rw [fmul_of_isInf hna hnb hi]
    split
    · exact .inl ⟨by tauto, rfl⟩
    · exact .inr ⟨by simp only [hna, hnb]; tauto, isNaN_fPack _ _ le_rfl⟩
  · obtain ⟨hia, hib⟩ : isInf a = false ∧ isInf b = false := by simpa using hi
    have hea : fExp a ≠ 255 := by simpa [hna, hia] using word_classes a
    have heb : fExp b ≠ 255 := by simpa [hnb, hib] using word_classes b
    simp [(fmul_rounds nan hea heb).not_isNaN, hna, hnb, hia, hib]

/-- From the two cases of an operation: it delivers a NaN exactly when it is invalid, and then the NaN word. -/
theorem nan_of_cases {P : Prop} {r : Word} (hnan : isNaN nan = true) (h : (P ∧ r = nan) ∨ (¬ P ∧ isNaN r = false)) :
    (isNaN r = true ↔ P) ∧ (isNaN r = true → r = nan) := by
  obtain ⟨hP, rfl⟩ | ⟨hP, hr⟩ := h
  · exact ⟨iff_of_true hnan hP, fun _ => rfl⟩
  · simp [hP, hr]

/-- A zero, of either sign, is finite. -/
theorem fInt_zero_iff_fMag (w : Word) : fInt w = 0 ∧ fExp w ≠ 255 ↔ fMag w = 0 := by
  rw [fInt_eq_zero_iff]
  refine and_iff_left_of_imp fun h => ?_
  obtain ⟨he, -⟩ := (fMag_eq_zero_iff w).1 h
  omega

theorem isNaN_nanSource (s : State) (site : List Nat) : isNaN (s.nanSource site) = true := by
  have hcanonical : isNaN canonicalNaN = true := rfl
  unfold State.nanSource asNaN
  split
  · exact hcanonical
  · split <;> assumption

/-- A product with an infinity that is no NaN is the infinity of its sign. -/
theorem fmul_inf_of_not_isNaN (hnan : isNaN nan = true) (hi : isInf a = true ∨ isInf b = true) (hno : isNaN (fmul nan a b) = false) :
    fmul nan a b = if fSign a = fSign b then 0x7F800000#32 else 0xFF800000#32 := by
  obtain ⟨-, e⟩ | ⟨hvalid, -⟩ := fmul_cases nan a b
  · rw [e, hnan] at hno
    cases hno
  · simp only [MulInvalid, not_or, not_and, Bool.not_eq_true] at hvalid
    obtain ⟨hna, hnb, hzb, hza⟩ := hvalid
    have hzero : ¬ (fMag a = 0 ∨ fMag b = 0) := by
      rintro (h | h)
      · exact fMag_ne_zero_of_isInf (hi.resolve_right (by simp [hza h])) h
      · exact hzb (hi.resolve_right fun hib => fMag_ne_zero_of_isInf hib h) h
    rw [fmul_of_isInf hna hnb hi, if_neg hzero]
    cases fSign a <;> cases fSign b <;> rfl

/-- The sign of a sum that is exactly zero. -/
theorem fadd_zero_sum (nan : Word) (ha : fExp a ≠ 255) (hb : fExp b ≠ 255) (h : fInt a + fInt b = 0) :
    fadd nan a b = if fSign a = true ∧ fSign b = true then 0x80000000#32 else 0x00000000#32 := by
  obtain ⟨hna, hia⟩ := not_isInf_of_finite ha
  obtain ⟨hnb, hib⟩ := not_isInf_of_finite hb
  simp only [fadd, hna, hnb, hia, hib, h, Bool.or_self, Bool.false_eq_true, if_false, if_true]
  cases fSign a <;> cases fSign b <;> rfl

/-- Settles O53: the classes of the operands decide each case. -/
theorem specialValuesFollowIeee : Obligations.SpecialValuesFollowIeee := by
  refine ⟨fun nan a b hnan => ?_, fun nan a b => fadd_zero_sum nan, fun nan a b => rfl,
    fun s site => ⟨isNaN_nanSource s site, fun h => ?_⟩⟩
  · obtain ⟨hadd, hadd'⟩ := nan_of_cases hnan (fadd_cases nan a b)
    obtain ⟨hmul, hmul'⟩ := nan_of_cases hnan (fmul_cases nan a b)
    refine ⟨hadd, ?_, hadd', hmul', fadd_inf_finite, fadd_finite_inf, fun ha hb hs => ?_, fmul_inf_of_not_isNaN hnan⟩
    · rw [hmul, MulInvalid, ← fInt_zero_iff_fMag a, ← fInt_zero_iff_fMag b, and_assoc]
    · rw [fadd_inf_inf ha hb, if_pos hs]
  · rw [State.nanSource, h]
    rfl

end Sys2Proof.Machine
end

section
/-! The twiddle tables (41_fft.md R184, R185): an entry by its quadrant, the quarter points, and that an entry depends on its angle only. -/

namespace Sys2Proof.Machine

/-! ### Entries by quadrant -/

section quadrant
variable {l r : Nat} (hr : r < 2 ^ l / 4)
include hr

theorem quadrant_div_mod (q : Nat) : (q * (2 ^ l / 4) + r) / (2 ^ l / 4) = q ∧ (q * (2 ^ l / 4) + r) % (2 ^ l / 4) = r :=
  ⟨by rw [Nat.mul_comm, Nat.mul_add_div (by omega), Nat.div_eq_of_lt hr, Nat.add_zero], by rw [Nat.mul_add_mod', Nat.mod_eq_of_lt hr]⟩

theorem romCosAt_quadrants :
    romCosAt l (0 * (2 ^ l / 4) + r) = romRound false (romCosFirst l r) ∧
    romCosAt l (1 * (2 ^ l / 4) + r) = romRound true (romSinFirst l r) ∧
    romCosAt l (2 * (2 ^ l / 4) + r) = romRound true (romCosFirst l r) ∧
    romCosAt l (3 * (2 ^ l / 4) + r) = romRound false (romSinFirst l r) := by
  simp only [romCosAt, quadrant_div_mod hr, and_self]

theorem romSinAt_quadrants :
    romSinAt l (0 * (2 ^ l / 4) + r) = romRound false (romSinFirst l r) ∧
    romSinAt l (1 * (2 ^ l / 4) + r) = romRound false (romCosFirst l r) ∧
    romSinAt l (2 * (2 ^ l / 4) + r) = romRound true (romSinFirst l r) ∧
    romSinAt l (3 * (2 ^ l / 4) + r) = romRound true (romCosFirst l r) := by
  simp only [romSinAt, quadrant_div_mod hr, and_self]

end quadrant

/-! ### Quarter points -/

theorem romCosSeries_zero : romCosSeries 0 = romOne := by decide +kernel

theorem romSinSeries_zero : romSinSeries 0 = 0 := by
  unfold romSinSeries
  rw [Nat.zero_mul, Nat.zero_div]

@[simp] theorem romAngle_zero (l : Nat) : romAngle l 0 = 0 := by simp [romAngle]

theorem romCosFirst_zero (l : Nat) : romCosFirst l 0 = romOne := by simp [romCosFirst, romCosSeries_zero]

theorem romSinFirst_zero (l : Nat) : romSinFirst l 0 = 0 := by simp [romSinFirst, romSinSeries_zero]

theorem romRound_zero (neg : Bool) : romRound neg 0 = 0x00000000#32 := by cases neg <;> decide

theorem romRound_one : romRound false romOne = 0x3F800000#32 ∧ romRound true romOne = 0xBF800000#32 := by decide +kernel

theorem quarter_pos {l : Nat} (hl : 2 ≤ l) : 0 < 2 ^ l / 4 :=
  Nat.div_pos (Nat.pow_le_pow_right Nat.two_pos hl) (by decide)

/-- The entries at the angles 0, π/2, π and 3π/2. -/
theorem rom_quarter_points {l : Nat} (hl : 2 ≤ l) :
    (romCosAt l (0 * (2 ^ l / 4)), romSinAt l (0 * (2 ^ l / 4))) = (0x3F800000#32, 0x00000000#32) ∧
    (romCosAt l (1 * (2 ^ l / 4)), romSinAt l (1 * (2 ^ l / 4))) = (0x00000000#32, 0x3F800000#32) ∧
    (romCosAt l (2 * (2 ^ l / 4)), romSinAt l (2 * (2 ^ l / 4))) = (0xBF800000#32, 0x00000000#32) ∧
    (romCosAt l (3 * (2 ^ l / 4)), romSinAt l (3 * (2 ^ l / 4))) = (0x00000000#32, 0xBF800000#32) := by
  have hcos := romCosAt_quadrants (quarter_pos hl)
  have hsin := romSinAt_quadrants (quarter_pos hl)
  simp only [Nat.add_zero, romCosFirst_zero, romSinFirst_zero, romRound_zero, romRound_one] at hcos hsin
  simp only [hcos, hsin, and_self]

/-! ### Angles -/

/-- The quarter of a table is twice that of the next smaller one. -/
theorem quarter_succ {l : Nat} (hl : 2 ≤ l) : 2 ^ (l + 1) / 4 = 2 * (2 ^ l / 4) := by
  obtain ⟨k, rfl⟩ := Nat.exists_eq_add_of_le hl
  rw [Nat.pow_succ, Nat.pow_add]
  omega

theorem romAngle_double (l r : Nat) : romAngle (l + 1) (2 * r) = romAngle l r := by
  rw [romAngle, romAngle, Nat.pow_succ', Nat.mul_left_comm, Nat.mul_div_mul_left _ _ Nat.two_pos]

theorem eighth_double (l r : Nat) : 8 * (2 * r) ≤ 2 ^ (l + 1) ↔ 8 * r ≤ 2 ^ l := by rw [Nat.pow_succ]; omega

theorem romCosFirst_double {l : Nat} (hl : 2 ≤ l) (r : Nat) : romCosFirst (l + 1) (2 * r) = romCosFirst l r := by
  simp only [romCosFirst, eighth_double, quarter_succ hl, ← Nat.mul_sub, romAngle_double]

theorem romSinFirst_double {l : Nat} (hl : 2 ≤ l) (r : Nat) : romSinFirst (l + 1) (2 * r) = romSinFirst l r := by
  simp only [romSinFirst, eighth_double, quarter_succ hl, ← Nat.mul_sub, romAngle_double]

/-- An entry of a table at an angle the next smaller one has, too. -/
theorem romAt_double {l : Nat} (hl : 2 ≤ l) (m : Nat) :
    romCosAt (l + 1) (2 * m) = romCosAt l m ∧ romSinAt (l + 1) (2 * m) = romSinAt l m := by
  simp only [romCosAt, romSinAt, quarter_succ hl, Nat.mul_div_mul_left _ _ Nat.two_pos, Nat.mul_mod_mul_left,
    romCosFirst_double hl, romSinFirst_double hl, and_self]

/-- `tw` in terms of the table of NMAX words (41_fft.md R185). -/
theorem tw_eq (p : Params) (m : Nat) : tw p m = (romCosAt p.log2Nmax.toNat m,
    match p.twiddleSign with
    | .plus => romSinAt p.log2Nmax.toNat m
    | .minus => fneg (romSinAt p.log2Nmax.toNat m)) := by
  unfold tw
  cases p.twiddleSign <;> rfl

/-- Settles O54: the quarter points are those of every table of at least four words. -/
theorem romEntriesDependOnTheAngle : Obligations.RomEntriesDependOnTheAngle := by
  refine ⟨fun l hl _ => ?_, fun l m hl => romAt_double hl m, fun p l m h => ?_⟩
  · have hhalf : 2 ^ l / 2 = 2 * (2 ^ l / 4) := by
      obtain ⟨k, rfl⟩ := Nat.exists_eq_add_of_le hl
      rw [Nat.pow_add]
      omega
    have hquarters := rom_quarter_points (show 2 ≤ l by omega)
    rw [hhalf]
    simpa only [Nat.zero_mul, Nat.one_mul] using hquarters
  · obtain rfl : p.log2Nmax.toNat = l := Nat.pow_right_injective le_rfl h
    exact ⟨fun hs => by rw [tw_eq, hs], fun hs => by rw [tw_eq, hs]; rfl⟩

end Sys2Proof.Machine
end

section
/-! The transforms of one word (41_fft.md R195, R192, R193, R198, R199): sums with a zero, products with 1.0 and with a zero, and NaN words
handed on. -/

namespace Sys2Proof.Machine

variable {nan a x : Word}

/-! ### Exact operations -/

/-- A word is its sign bit and its other bits. -/
theorem fPack_magBits (w : Word) : fPack (fSign w) (magBits w) = w := by
  obtain ⟨-, hf, he⟩ := word_fields w
  obtain ⟨hs, he', hf'⟩ := fPack_fields (fSign w) (magBits w) (by unfold magBits; omega)
  obtain ⟨hdiv, hmod⟩ := magBits_div_mod w
  exact word_ext hs (he'.trans hdiv) (hf'.trans hmod)

/-- A zero is its sign bit. -/
theorem fPack_of_fMag_eq_zero {w : Word} (h : fMag w = 0) : fPack (fSign w) 0 = w := by
  obtain ⟨he, hf⟩ := (fMag_eq_zero_iff w).1 h
  have hbits : magBits w = 0 := by simp [magBits, he, hf]
  simpa only [hbits] using fPack_magBits w

theorem magBits_of_isInf {w : Word} (h : isInf w = true) : magBits w = 0x7F800000 := by
  obtain ⟨he, hf⟩ := (isInf_iff w).1 h
  simp [magBits, he, hf]

theorem roundMag_zero (k : Nat) : roundMag 0 k = 0 := by
  simpa [bitsMag] using roundMag_exact (b := 0) (k := k) (by decide)

/-- 1.0 is neutral in products. -/
theorem fmul_one (h : isNaN a = false) : fmul nan a 0x3F800000#32 = a := by
  have hone : fMag 0x3F800000#32 = 2 ^ 149 := by decide +kernel
  obtain ⟨hn, -⟩ | ⟨-, hi, -⟩ | ⟨-, -, he⟩ := word_classes a
  · rw [h] at hn
    cases hn
  · have hzero : ¬ (fMag a = 0 ∨ fMag 0x3F800000#32 = 0) := by simp [fMag_ne_zero_of_isInf hi, hone]
    rw [fmul_of_isInf h rfl (.inl hi), if_neg hzero, ← magBits_of_isInf hi]
    exact (congrArg (fPack · _) (Bool.xor_false _)).trans (fPack_magBits a)
  · rw [fmul_finite nan he (by decide), hone, ← bitsMag_magBits, roundMag_exact (magBits_lt he).le]
    exact (congrArg (fPack · _) (Bool.xor_false _)).trans (fPack_magBits a)

/-- The product of a finite word with a zero is a zero. -/
theorem fmul_zero {z : Word} (ha : fExp a ≠ 255) (hz : fMag z = 0) : fmul nan a z = fPack (fSign a != fSign z) 0 := by
  obtain ⟨-, hez⟩ := (fInt_zero_iff_fMag z).2 hz
  rw [fmul_finite nan ha hez, hz, Nat.mul_zero, roundMag_zero]

/-- A number other than zero has one sign. -/
theorem SignOf.unique {x : ℤ} {m n : Bool} (hm : SignOf m x) (hx : x ≠ 0) (hn : SignOf n x) : m = n := by
  cases m <;> cases n
  · rfl
  · exact absurd (le_antisymm hn hm) hx
  · exact absurd (le_antisymm hm hn) hx
  · rfl

/-- A sum that is the value of a finite word other than zero is delivered as that word. -/
theorem fadd_exact {b c : Word} (ha : fExp a ≠ 255) (hb : fExp b ≠ 255) (hc : fExp c ≠ 255) (h : fInt a + fInt b = fInt c)
    (hne : fInt c ≠ 0) : fadd nan a b = c := by
  obtain ⟨neg, hneg, e⟩ := fadd_rounds nan ha hb
  have hexact := roundMag_exact (k := 0) (magBits_lt hc).le
  have hsign := signOf_fInt c
  rw [h] at e hneg
  rw [fInt_natAbs, ← bitsMag_magBits] at e
  rw [pow_zero, Nat.mul_one] at hexact
  rw [e, hexact]
  obtain rfl : neg = fSign c := hneg.unique hne hsign
  exact fPack_magBits c

/-- A word after a sum with zeros, one of them +0.0: -0.0 becomes +0.0. -/
def posZero (x : Word) : Word := if x = 0x80000000#32 then 0x00000000#32 else x

theorem posZero_of_fMag_eq_zero {w : Word} (h : fMag w = 0) : posZero w = 0x00000000#32 := by
  rw [← fPack_of_fMag_eq_zero h]
  cases fSign w <;> rfl

theorem posZero_of_fMag_ne_zero {w : Word} (h : fMag w ≠ 0) : posZero w = w := if_neg (by rintro rfl; exact h rfl)

/-- A sum with a zero keeps a word that is no zero and no NaN. -/
theorem fadd_zero {z : Word} (hx : isNaN x = false) (hne : fMag x ≠ 0) (hz : fMag z = 0) :
    fadd nan x z = x ∧ fadd nan z x = x := by
  obtain ⟨hiz, hez⟩ := (fInt_zero_iff_fMag z).2 hz
  obtain ⟨hn, -⟩ | ⟨-, hi, -⟩ | ⟨-, -, he⟩ := word_classes x
  · rw [hx] at hn
    cases hn
  · exact ⟨fadd_inf_finite hi hez, fadd_finite_inf hez hi⟩
  · have hne' : fInt x ≠ 0 := mt (fInt_eq_zero_iff x).1 hne
    exact ⟨fadd_exact he hez he (by rw [hiz, add_zero]) hne', fadd_exact hez he he (by rw [hiz, zero_add]) hne'⟩

theorem posZero_fadd (hx : isNaN x = false) : fadd nan 0x00000000#32 x = posZero x := by
  by_cases hne : fMag x = 0
  · obtain ⟨hix, hex⟩ := (fInt_zero_iff_fMag x).2 hne
    rw [fadd_zero_sum nan (by decide) hex (by rw [hix]; rfl), posZero_of_fMag_eq_zero hne]
    exact if_neg fun h => absurd h.1 (by decide)
  · rw [posZero_of_fMag_ne_zero hne, (fadd_zero hx hne rfl).2]

/-- After a sum with +0.0 a further zero summand has left no trace. -/
theorem posZero_fadd_fadd {z : Word} {nan' : Word} (hx : isNaN x = false) (hz : fMag z = 0) :
    fadd nan 0x00000000#32 (fadd nan' x z) = posZero x := by
  obtain ⟨hiz, hez⟩ := (fInt_zero_iff_fMag z).2 hz
  by_cases hne : fMag x = 0
  · obtain ⟨hix, hex⟩ := (fInt_zero_iff_fMag x).2 hne
    rw [posZero_of_fMag_eq_zero hne, fadd_zero_sum nan' hex hez (by rw [hix, hiz]; rfl)]
    split <;> rw [posZero_fadd (by decide)] <;> rfl
  · rw [(fadd_zero hx hne hz).1, posZero_fadd hx]

/-! ### The transforms of one word -/

/-- tw(0) is 1.0 and a zero (41_fft.md R185). -/
theorem tw_zero {p : Params} (hp : p.legal = true) : ∃ z, tw p 0 = (0x3F800000#32, z) ∧ fMag z = 0 := by
  have hl : 2 ≤ p.log2Nmax.toNat := by
    simp only [Params.legal, decide_eq_true_eq] at hp
    omega
  obtain ⟨h0, -⟩ := rom_quarter_points hl
  rw [Nat.zero_mul, Prod.mk.injEq] at h0
  obtain ⟨hcos, hsin⟩ := h0
  rw [tw_eq, hcos, hsin]
  cases p.twiddleSign
  · exact ⟨_, rfl, rfl⟩
  · exact ⟨_, rfl, rfl⟩

theorem directTwiddle_zero (p : Params) : directTwiddle p 0 0 0 = tw p 0 := by simp [directTwiddle]

theorem forwardDirect_one (nu : NanSource) (p : Params) (x : Word) : forwardDirect nu p 0 [x] =
    [(fadd (nu [2, 0, 0]) 0x00000000#32 (fmul (nu [0, 0, 0]) x (tw p 0).1),
      fadd (nu [3, 0, 0]) 0x00000000#32 (fmul (nu [1, 0, 0]) x (tw p 0).2))] := by
  rw [← directTwiddle_zero]
  rfl

theorem inverseDirect_one (nu : NanSource) (p : Params) (re im : Word) : inverseDirect nu p 0 [(re, im)] =
    [fmul (nu [0]) (fadd (nu [3, 0, 0]) 0x00000000#32 (fadd (nu [2, 0, 0]) (fmul (nu [0, 0, 0]) re (tw p 0).1)
      (fmul (nu [1, 0, 0]) im (tw p 0).2))) 0x3F800000#32] := by
  rw [← directTwiddle_zero]
  rfl

/-- An infinity times a zero gives the NaN word. -/
theorem fmul_inf_zero {z : Word} (h : isInf x = true) (hz : fMag z = 0) : fmul nan x z = nan := by
  obtain ⟨-, e⟩ | ⟨hno, -⟩ := fmul_cases nan x z
  · exact e
  · exact absurd (.inr (.inr (.inl ⟨h, hz⟩))) hno

/-- An infinite or NaN word times a zero gives the NaN word. -/
theorem fmul_zero_of_not_finite {z : Word} (h : fExp x = 255) (hz : fMag z = 0) : fmul nan x z = nan := by
  obtain ⟨hn, -⟩ | ⟨-, hi, -⟩ | ⟨-, -, he⟩ := word_classes x
  · exact fmul_of_isNaN (.inl hn)
  · exact fmul_inf_zero hi hz
  · exact absurd h he

theorem fMag_fPack_zero (neg : Bool) : fMag (fPack neg 0) = 0 := by cases neg <;> rfl

theorem forward_one (nu : NanSource) {p : Params} (hp : p.legal = true) (x : Word) :
    forwardIterative nu p 0 [x] = [(x, 0x00000000#32)] ∧
    (isNaN x = false → ∃ im, forwardDirect nu p 0 [x] = [(posZero x, im)] ∧
      (isInf x = false → im = 0x00000000#32) ∧ (isInf x = true → isNaN (nu [1, 0, 0]) = true → im = nu [3, 0, 0])) ∧
    (isNaN x = true → isNaN (nu [0, 0, 0]) = true → isNaN (nu [1, 0, 0]) = true →
      forwardDirect nu p 0 [x] = [(nu [2, 0, 0], nu [3, 0, 0])]) := by
  obtain ⟨z, htw, hz⟩ := tw_zero hp
  rw [forwardDirect_one, htw]
  dsimp only
  refine ⟨rfl, fun hx => ⟨_, by rw [fmul_one hx, posZero_fadd hx], fun hi => ?_, fun hi hnan => ?_⟩, fun hx h0 h1 => ?_⟩
  · have he : fExp x ≠ 255 := by simpa [hx, hi] using word_classes x
    rw [fmul_zero he hz, posZero_fadd (isNaN_fPack _ _ (Nat.zero_le _)), posZero_of_fMag_eq_zero (fMag_fPack_zero _)]
  · rw [fmul_inf_zero hi hz, fadd_of_isNaN (.inr hnan)]
  · rw [fmul_of_isNaN (.inl hx), fmul_of_isNaN (.inl hx), fadd_of_isNaN (.inr h0), fadd_of_isNaN (.inr h1)]

theorem inverse_one (nu : NanSource) {p : Params} (hp : p.legal = true) (re im : Word) :
    (isNaN re = false → inverseIterative nu p 0 [(re, im)] = [re]) ∧
    (isNaN re = true → inverseIterative nu p 0 [(re, im)] = [nu [0]]) ∧
    (isNaN re = false → fExp im ≠ 255 → inverseDirect nu p 0 [(re, im)] = [posZero re]) ∧
    (isNaN re = true ∨ fExp im = 255 → (∀ site, isNaN (nu site) = true) → inverseDirect nu p 0 [(re, im)] = [nu [0]]) := by
  obtain ⟨z, htw, hz⟩ := tw_zero hp
  have hiter : inverseIterative nu p 0 [(re, im)] = [fmul (nu [0]) re 0x3F800000#32] := rfl
  rw [inverseDirect_one, htw, hiter]
  dsimp only
  refine ⟨fun hre => by rw [fmul_one hre], fun hre => by rw [fmul_of_isNaN (.inl hre)], fun hre him => ?_, fun h hnu => ?_⟩
  · have hposZero : isNaN (posZero re) = false := by
      unfold posZero
      split
      · rfl
      · exact hre
    rw [fmul_one hre, fmul_zero him hz, posZero_fadd_fadd hre (fMag_fPack_zero _), fmul_one hposZero]
  · have hsum : fadd (nu [2, 0, 0]) (fmul (nu [0, 0, 0]) re 0x3F800000#32) (fmul (nu [1, 0, 0]) im z) = nu [2, 0, 0] := by
      obtain hre | him := h
      · rw [fmul_of_isNaN (.inl hre), fadd_of_isNaN (.inl (hnu _))]
      · rw [fmul_zero_of_not_finite him hz, fadd_of_isNaN (.inr (hnu _))]
    rw [hsum, fadd_of_isNaN (.inr (hnu _)), fmul_of_isNaN (.inl (hnu _))]

/-- Settles O50: with tw(0) = 1.0 and a zero, each transform is a sum with +0.0 or a product with 1.0. -/
theorem onePointTransforms : Obligations.OnePointTransforms :=
  ⟨fun nu _ x hp => forward_one nu hp x, fun nu _ re im hp => inverse_one nu hp re im⟩

end Sys2Proof.Machine
end

section
/-! The series of the twiddle tables (41_fft.md R184): the values `romHorner` goes through are fixed-point images of the tails of the cosine
and sine series, each tail `1` minus a multiple of the next, so that an error shrinks from step to step. -/

namespace Sys2Proof.Machine

open scoped Nat

/-! ### Tails of the cosine and sine series -/

/-- Term `j` of the series of `trigTail`. -/
noncomputable def trigTerm (n : Nat) (t : ℝ) (j : Nat) : ℝ := (-t ^ 2) ^ j * (n ! / (n + 2 * j)!)

/-- The series of cosine (`n = 0`) or sine (`n = 1`) from the power `n` on, divided by its first term. -/
noncomputable def trigTail (n : Nat) (t : ℝ) : ℝ := ∑' j, trigTerm n t j

theorem cos_eq_trigTail (t : ℝ) : Real.cos t = trigTail 0 t := by
  refine (Real.hasSum_cos t).tsum_eq.symm.trans (tsum_congr fun j => ?_)
  rw [trigTerm, neg_pow (t ^ 2), ← pow_mul, Nat.factorial_zero, Nat.zero_add]
  push_cast
  ring

theorem sin_eq_trigTail (t : ℝ) : Real.sin t = t * trigTail 1 t := by
  rw [trigTail, ← tsum_mul_left]
  refine (Real.hasSum_sin t).tsum_eq.symm.trans (tsum_congr fun j => ?_)
  rw [trigTerm, neg_pow (t ^ 2), ← pow_mul, Nat.factorial_one, Nat.add_comm 1]
  push_cast
  ring

theorem factorial_mul_two_pow_le (n j : Nat) : n ! * 2 ^ j ≤ (n + 2 * j)! :=
  calc n ! * 2 ^ j ≤ n ! * (2 ^ j * j !) := Nat.mul_le_mul_left _ (Nat.le_mul_of_pos_right _ j.factorial_pos)
    _ ≤ n ! * (2 * j)! := Nat.mul_le_mul_left _ (Nat.two_pow_mul_factorial_le_factorial_two_mul j)
    _ ≤ (n + 2 * j)! := Nat.le_of_dvd (Nat.factorial_pos _) (Nat.factorial_mul_factorial_dvd_factorial_add ..)

section unit
variable {t : ℝ} (ht0 : 0 ≤ t) (ht1 : t ≤ 1)
include ht0 ht1

theorem norm_trigTerm_le (n j : Nat) : ‖trigTerm n t j‖ ≤ (1 / 2) ^ j := by
  have hfact : (n ! / (n + 2 * j)! : ℝ) ≤ (1 / 2) ^ j := by
    rw [div_le_iff₀ (by positivity), one_div, inv_pow, ← div_eq_inv_mul, le_div_iff₀ (by positivity)]
    exact_mod_cast factorial_mul_two_pow_le n j
  have hpow : ‖(-t ^ 2) ^ j‖ ≤ 1 := by
    rw [norm_pow, norm_neg, norm_pow, Real.norm_of_nonneg ht0]
    exact pow_le_one₀ (by positivity) (pow_le_one₀ ht0 ht1)
  rw [trigTerm, norm_mul, Real.norm_of_nonneg (by positivity : (0 : ℝ) ≤ n ! / (n + 2 * j)!)]
  exact (mul_le_of_le_one_left (by positivity) hpow).trans hfact

theorem summable_trigTerm (n : Nat) : Summable (trigTerm n t) :=
  Summable.of_norm_bounded summable_geometric_two (norm_trigTerm_le ht0 ht1 n)

theorem abs_trigTail_le (n : Nat) : |trigTail n t| ≤ 2 :=
  tsum_of_norm_bounded hasSum_geometric_two (norm_trigTerm_le ht0 ht1 n)

/-- A tail is 1 minus a multiple of the next. -/
theorem trigTail_eq (n : Nat) : trigTail n t = 1 - t ^ 2 / ((n + 1) * (n + 2)) * trigTail (n + 2) t := by
  rw [trigTail, (summable_trigTerm ht0 ht1 n).tsum_eq_zero_add, trigTail, ← tsum_mul_left, sub_eq_add_neg, ← tsum_neg]
  congr 1
  · simp [trigTerm, Nat.factorial_ne_zero]
  · refine tsum_congr fun j => ?_
    rw [trigTerm, trigTerm, show n + 2 * (j + 1) = n + 2 + 2 * j by ring, Nat.factorial_succ (n + 1), Nat.factorial_succ n]
    push_cast
    field_simp
    ring

end unit

/-! ### One Horner step -/

theorem romHorner_le (x2 acc d : Nat) : romHorner x2 acc d ≤ romOne := Nat.sub_le ..

/-- A quotient of numbers is their real quotient cut. -/
theorem natDiv_bounds (m n : Nat) : ((m / n : Nat) : ℝ) ≤ m / n ∧ (m : ℝ) / n < (m / n : Nat) + 1 := by
  refine ⟨Nat.cast_div_le, ?_⟩
  rw [← Nat.floor_div_eq_div (K := ℝ)]
  exact Nat.lt_floor_add_one _

theorem romOne_pos : (0 : ℝ) < romOne := by norm_num [romOne]

/-- A Horner step with the squared angle cut to the fixed point errs by at most 2 units, besides the error of what it is given. -/
theorem abs_romHorner_sub_le {x acc d : Nat} {t u : ℝ} (hx : (x : ℝ) = romOne * t) (ht0 : 0 ≤ t) (ht1 : t ≤ 1)
    (hacc : acc ≤ romOne) (hd : 1 ≤ d) :
    |(romHorner (x * x / romOne) acc d : ℝ) - romOne * (1 - t ^ 2 / d * u)| ≤ |(acc : ℝ) - romOne * u| / d + 2 := by
  have hO := romOne_pos
  have hO' : 0 < romOne := by exact_mod_cast hO
  have hd' : (1 : ℝ) ≤ d := by exact_mod_cast hd
  have hacc' : (acc : ℝ) ≤ romOne := by exact_mod_cast hacc
  obtain ⟨hx2, hx2'⟩ := natDiv_bounds (x * x) romOne
  obtain ⟨hq, hq'⟩ := natDiv_bounds (x * x / romOne * acc) (romOne * d)
  have hsq : ((x * x : Nat) : ℝ) / romOne = romOne * t ^ 2 := by
    push_cast
    rw [hx]
    field_simp
  rw [hsq] at hx2 hx2'
  generalize x * x / romOne = x2 at *
  have hqle : x2 * acc / (romOne * d) ≤ romOne := by
    have hx2O : (x2 : ℝ) ≤ romOne := hx2.trans (mul_le_of_le_one_right hO.le (pow_le_one₀ ht0 ht1))
    exact Nat.div_le_of_le_mul (Nat.mul_le_mul ((show x2 ≤ romOne by exact_mod_cast hx2O).trans (Nat.le_mul_of_pos_right _ hd)) hacc)
  rw [romHorner, Nat.cast_sub hqle]
  generalize x2 * acc / (romOne * d) = q at *
  push_cast at hq hq'
  have hlo : (q : ℝ) ≤ t ^ 2 * acc / d := by
    refine hq.trans ?_
    rw [div_le_div_iff₀ (by positivity) (by positivity)]
    calc (x2 : ℝ) * acc * d ≤ romOne * t ^ 2 * acc * d := by gcongr
      _ = t ^ 2 * acc * (romOne * d) := by ring
  have hhi : t ^ 2 * acc / d ≤ q + 2 := by
    have hcut : t ^ 2 * acc / d ≤ (x2 + 1) * acc / (romOne * d) := by
      rw [div_le_div_iff₀ (by positivity) (by positivity)]
      calc t ^ 2 * acc * (romOne * d) = romOne * t ^ 2 * acc * d := by ring
        _ ≤ ((x2 : ℝ) + 1) * acc * d := by gcongr
    have hone : (acc : ℝ) / (romOne * d) ≤ 1 := (div_le_one (by positivity)).2 (hacc'.trans (le_mul_of_one_le_right hO.le hd'))
    rw [add_mul, one_mul, add_div] at hcut
    linarith
  have herr : |t ^ 2 / d * ((acc : ℝ) - romOne * u)| ≤ |(acc : ℝ) - romOne * u| / d := by
    rw [abs_mul, abs_of_nonneg (by positivity), div_mul_eq_mul_div]
    gcongr
    exact mul_le_of_le_one_left (abs_nonneg _) (pow_le_one₀ ht0 ht1)
  have hsplit : (romOne : ℝ) - q - romOne * (1 - t ^ 2 / d * u) = (t ^ 2 * acc / d - q) - t ^ 2 / d * (acc - romOne * u) := by ring
  rw [hsplit]
  refine (abs_sub _ _).trans ?_
  rw [abs_of_nonneg (sub_nonneg.2 hlo)]
  linarith

/-! ### The Horner loops -/

/-- The loop of `romCosSeries` (`c = 0`) or `romSinSeries` (`c = 1`) after `i` of its 24 steps. -/
def hornerLoop (c x i : Nat) : Nat :=
  (List.range i).foldl (fun acc i => romHorner (x * x / romOne) acc ((c + 2 * (23 - i) + 1) * (c + 2 * (23 - i) + 2))) romOne

theorem hornerLoop_zero (c x : Nat) : hornerLoop c x 0 = romOne := by rw [hornerLoop, List.range_zero, List.foldl_nil]

theorem hornerLoop_succ (c x i : Nat) : hornerLoop c x (i + 1) =
    romHorner (x * x / romOne) (hornerLoop c x i) ((c + 2 * (23 - i) + 1) * (c + 2 * (23 - i) + 2)) := by
  rw [hornerLoop, List.range_succ, List.foldl_append, List.foldl_cons, List.foldl_nil, ← hornerLoop]

/-- A loop over 24 divisors that are those of `hornerLoop`, however they are written. -/
theorem foldl_eq_hornerLoop {c : Nat} (x : Nat) {d : Nat → Nat}
    (hd : ∀ i, i < 24 → d i = (c + 2 * (23 - i) + 1) * (c + 2 * (23 - i) + 2)) :
    (List.range 24).foldl (fun acc i => romHorner (x * x / romOne) acc (d i)) romOne = hornerLoop c x 24 :=
  List.foldl_ext _ _ _ fun acc i hi => by rw [hd i (List.mem_range.1 hi)]

theorem romCosSeries_eq (x : Nat) : romCosSeries x = hornerLoop 0 x 24 := by
  rw [romCosSeries, foldl_eq_hornerLoop x fun i hi => ?_]
  rw [show 2 * (24 - i) - 1 = 0 + 2 * (23 - i) + 1 by omega, show 2 * (24 - i) = 0 + 2 * (23 - i) + 2 by omega]

theorem romSinSeries_eq (x : Nat) : romSinSeries x = x * hornerLoop 1 x 24 / romOne := by
  rw [romSinSeries, foldl_eq_hornerLoop x fun i hi => ?_]
  rw [show 2 * (24 - i) + 1 = 1 + 2 * (23 - i) + 2 by omega, show 2 * (24 - i) = 1 + 2 * (23 - i) + 1 by omega]

theorem hornerLoop_le (c x i : Nat) : hornerLoop c x i ≤ romOne := by
  cases i with
  | zero => exact (hornerLoop_zero c x).le
  | succ i => rw [hornerLoop_succ]; exact romHorner_le ..

section loop
variable {x : Nat} {t : ℝ} (hx : (x : ℝ) = romOne * t) (ht0 : 0 ≤ t) (ht1 : t ≤ 1)
include hx ht0 ht1

theorem hornerLoop_step (c : Nat) {i : Nat} (hi : i < 24) :
    |(hornerLoop c x (i + 1) : ℝ) - romOne * trigTail (c + 2 * (23 - i)) t| ≤
      |(hornerLoop c x i : ℝ) - romOne * trigTail (c + 2 * (24 - i)) t| /
        ((c + 2 * (23 - i) + 1) * (c + 2 * (23 - i) + 2) : Nat) + 2 := by
  have hstep := abs_romHorner_sub_le (u := trigTail (c + 2 * (24 - i)) t) hx ht0 ht1 (hornerLoop_le c x i)
    (d := (c + 2 * (23 - i) + 1) * (c + 2 * (23 - i) + 2)) (Nat.mul_pos (Nat.succ_pos _) (Nat.succ_pos _))
  have htail := trigTail_eq ht0 ht1 (c + 2 * (23 - i))
  rw [show c + 2 * (23 - i) + 2 = c + 2 * (24 - i) by omega] at htail
  rw [hornerLoop_succ, htail]
  exact_mod_cast hstep

/-- Before the last step every divisor is at least 12. -/
theorem hornerLoop_error (c : Nat) {i : Nat} (hi : i ≤ 23) :
    |(hornerLoop c x i : ℝ) - romOne * trigTail (c + 2 * (24 - i)) t| ≤ 3 * romOne / 12 ^ i + 3 := by
  have hO := romOne_pos
  induction i with
  | zero =>
    have htail := abs_trigTail_le ht0 ht1 (c + 2 * 24)
    rw [hornerLoop_zero, pow_zero, div_one, show (romOne : ℝ) - romOne * trigTail (c + 2 * (24 - 0)) t =
      romOne * (1 - trigTail (c + 2 * 24) t) by ring, abs_mul, abs_of_pos hO]
    have hone := abs_sub (1 : ℝ) (trigTail (c + 2 * 24) t)
    rw [abs_one] at hone
    linarith [mul_le_mul_of_nonneg_left (show |1 - trigTail (c + 2 * 24) t| ≤ 3 by linarith) hO.le]
  | succ i ih =>
    have hd : (12 : ℝ) ≤ ((c + 2 * (23 - i) + 1) * (c + 2 * (23 - i) + 2) : Nat) := by
      exact_mod_cast Nat.mul_le_mul (show 3 ≤ c + 2 * (23 - i) + 1 by omega) (show 4 ≤ c + 2 * (23 - i) + 2 by omega)
    have hi' : 24 - (i + 1) = 23 - i := by omega
    rw [hi']
    refine (hornerLoop_step hx ht0 ht1 c (show i < 24 by omega)).trans ?_
    calc _ ≤ (3 * (romOne : ℝ) / 12 ^ i + 3) / 12 + 2 := by gcongr; exact ih (by omega)
      _ ≤ 3 * romOne / 12 ^ (i + 1) + 3 := by rw [add_div, div_div, ← pow_succ]; linarith

/-- After the last step, whose divisor is at least 2. -/
theorem hornerLoop_last (c : Nat) : |(hornerLoop c x 24 : ℝ) - romOne * trigTail c t| ≤ 2 ^ 112 := by
  have hd : (2 : ℝ) ≤ ((c + 2 * (23 - 23) + 1) * (c + 2 * (23 - 23) + 2) : Nat) := by
    exact_mod_cast Nat.mul_le_mul (show 1 ≤ c + 2 * (23 - 23) + 1 by omega) (show 2 ≤ c + 2 * (23 - 23) + 2 by omega)
  refine (hornerLoop_step hx ht0 ht1 c (show 23 < 24 by decide)).trans ?_
  calc _ ≤ (3 * (romOne : ℝ) / 12 ^ 23 + 3) / 2 + 2 := by gcongr; exact hornerLoop_error hx ht0 ht1 c le_rfl
    _ ≤ 2 ^ 112 := by norm_num [romOne]

theorem abs_romCosSeries_sub_le : |(romCosSeries x : ℝ) - romOne * Real.cos t| ≤ 2 ^ 112 := by
  rw [romCosSeries_eq, cos_eq_trigTail]
  exact hornerLoop_last hx ht0 ht1 0

theorem abs_romSinSeries_sub_le : |(romSinSeries x : ℝ) - romOne * Real.sin t| ≤ 2 ^ 113 := by
  rw [romSinSeries_eq, sin_eq_trigTail]
  have hlast := hornerLoop_last hx ht0 ht1 1
  obtain ⟨hq, hq'⟩ := natDiv_bounds (x * hornerLoop 1 x 24) romOne
  have hprod : ((x * hornerLoop 1 x 24 : Nat) : ℝ) / romOne = t * hornerLoop 1 x 24 := by
    have hO := romOne_pos
    push_cast
    rw [hx]
    field_simp
  rw [hprod] at hq hq'
  have hmul : |t * (hornerLoop 1 x 24 : ℝ) - romOne * (t * trigTail 1 t)| ≤ 2 ^ 112 := by
    rw [show t * (hornerLoop 1 x 24 : ℝ) - romOne * (t * trigTail 1 t) = t * (hornerLoop 1 x 24 - romOne * trigTail 1 t) by ring,
      abs_mul, abs_of_nonneg ht0]
    exact (mul_le_of_le_one_left (abs_nonneg _) ht1).trans hlast
  rw [abs_le] at hmul ⊢
  constructor <;> linarith

end loop

end Sys2Proof.Machine
end

section
/-! The twiddle tables against the real cosine and sine (41_fft.md R184): the fixed-point values are within `2 ^ 125` units of 2^-192 of the
real ones, for tables of every size; in the table of 4096 words no value is so near to a midpoint of two binary32 values that this
could change what it is rounded to. -/

namespace Sys2Proof.Machine

/-! ### The angle -/

theorem abs_romPi_sub_le : |(romPi : ℝ) - romOne * Real.pi| ≤ romOne / 10 ^ 20 := by
  have hlo := mul_lt_mul_of_pos_left Real.pi_gt_d20 romOne_pos
  have hhi := mul_lt_mul_of_pos_left Real.pi_lt_d20 romOne_pos
  have hromPi : (romOne : ℝ) * 3.14159265358979323846 ≤ romPi ∧ (romPi : ℝ) ≤ romOne * 3.14159265358979323847 := by
    norm_num [romOne, romPi]
  rw [abs_le]
  constructor <;> linarith

/-- The angle of entry `r` of a table of `2 ^ l` words. -/
noncomputable def tableAngle (l r : Nat) : ℝ := 2 * Real.pi * r / 2 ^ l

section octant
variable {l r : Nat} (hr : 8 * r ≤ 2 ^ l)
include hr

theorem octant_ratio : (r : ℝ) / 2 ^ l ≤ 1 / 8 := by
  rw [div_le_div_iff₀ (by positivity) (by norm_num), one_mul, mul_comm]
  exact_mod_cast hr

theorem romAngle_error :
    |(romAngle l r : ℝ) - romOne * tableAngle l r| ≤ 2 ^ 124 ∧ (romAngle l r : ℝ) ≤ romOne := by
  have hratio := octant_ratio hr
  have hratio0 : (0 : ℝ) ≤ r / 2 ^ l := by positivity
  obtain ⟨hq, hq'⟩ := natDiv_bounds (romPi * 2 * r) (2 ^ l)
  have hexact : ((romPi * 2 * r : Nat) : ℝ) / (2 ^ l : Nat) = romPi * (2 * (r / 2 ^ l)) := by push_cast; ring
  have hangle : (romOne : ℝ) * tableAngle l r = romOne * Real.pi * (2 * (r / 2 ^ l)) := by rw [tableAngle]; ring
  have hpi : |romPi * (2 * ((r : ℝ) / 2 ^ l)) - romOne * Real.pi * (2 * (r / 2 ^ l))| ≤ romOne / 10 ^ 20 * (1 / 4) := by
    rw [← sub_mul, abs_mul, abs_of_nonneg (by positivity : (0 : ℝ) ≤ 2 * (r / 2 ^ l))]
    exact mul_le_mul abs_romPi_sub_le (by linarith) (by positivity) (by positivity)
  have hsmall : (romOne : ℝ) / 10 ^ 20 * (1 / 4) + 1 ≤ 2 ^ 124 := by norm_num [romOne]
  have hpiOne : (romPi : ℝ) * (1 / 4) ≤ romOne := by norm_num [romOne, romPi]
  rw [hexact] at hq hq'
  rw [hangle, romAngle]
  constructor
  · rw [abs_le] at hpi ⊢
    constructor <;> linarith
  · exact hq.trans ((mul_le_mul_of_nonneg_left (by linarith) (Nat.cast_nonneg romPi)).trans hpiOne)

/-- The series of an angle of the first octant, with the error of the angle itself. -/
theorem romSeries_error :
    |(romCosSeries (romAngle l r) : ℝ) - romOne * Real.cos (tableAngle l r)| ≤ 2 ^ 125 ∧
    |(romSinSeries (romAngle l r) : ℝ) - romOne * Real.sin (tableAngle l r)| ≤ 2 ^ 125 := by
  have hO := romOne_pos
  obtain ⟨herr, hle⟩ := romAngle_error hr
  have hx : (romAngle l r : ℝ) = romOne * (romAngle l r / romOne) := by field_simp
  have ht0 : (0 : ℝ) ≤ romAngle l r / romOne := by positivity
  have ht1 : (romAngle l r : ℝ) / romOne ≤ 1 := (div_le_one hO).2 hle
  have hcos := abs_romCosSeries_sub_le hx ht0 ht1
  have hsin := abs_romSinSeries_sub_le hx ht0 ht1
  generalize (romAngle l r : ℝ) / romOne = t at *
  rw [hx, ← mul_sub, abs_mul, abs_of_pos hO] at herr
  have hcos' : |romOne * Real.cos t - romOne * Real.cos (tableAngle l r)| ≤ 2 ^ 124 := by
    rw [← mul_sub, abs_mul, abs_of_pos hO]
    exact (mul_le_mul_of_nonneg_left (Real.abs_cos_sub_cos_le ..) hO.le).trans herr
  have hsin' : |romOne * Real.sin t - romOne * Real.sin (tableAngle l r)| ≤ 2 ^ 124 := by
    rw [← mul_sub, abs_mul, abs_of_pos hO]
    exact (mul_le_mul_of_nonneg_left (Real.abs_sin_sub_sin_le ..) hO.le).trans herr
  exact ⟨(abs_sub_le _ _ _).trans ((add_le_add hcos hcos').trans (by norm_num)),
    (abs_sub_le _ _ _).trans ((add_le_add hsin hsin').trans (by norm_num))⟩

end octant

/-! ### Rounding of approximations -/

/-- A value is rounded to the same bits if it is moved by `2 ^ 125` units up or down. -/
def unambiguous (v : Nat) : Bool :=
  decide (roundMag (v - 2 ^ 125) 43 = roundMag v 43 ∧ roundMag (v + 2 ^ 125) 43 = roundMag v 43)

/-- Between two values rounded to the same bits these are nearest. -/
theorem IsNearest.of_between {k b : Nat} {y lo hi : ℝ} (hlo : IsNearest k b lo) (hhi : IsNearest k b hi) (h : lo ≤ y) (h' : y ≤ hi) :
    IsNearest k b y :=
  ⟨fun c hc => (hlo.1 c hc).trans (by linarith), fun c hc hc' => le_trans (by linarith) (hhi.2 c hc hc')⟩

theorem isNearest_of_unambiguous {v : Nat} {y : ℝ} (h : unambiguous v = true) (hv : |(v : ℝ) - y| ≤ 2 ^ 125) (hy : 0 ≤ y) :
    IsNearest 43 (roundMag v 43) y := by
  obtain ⟨hdown, hup⟩ := of_decide_eq_true h
  obtain ⟨hlo, hhi⟩ := abs_le.1 hv
  refine IsNearest.of_between (hdown ▸ roundMag_isNearest (v - 2 ^ 125) 43) (hup ▸ roundMag_isNearest (v + 2 ^ 125) 43) ?_ ?_
  · obtain hle | hlt := Nat.le_total v (2 ^ 125)
    · rw [Nat.sub_eq_zero_of_le hle]
      simpa using hy
    · rw [Nat.cast_sub hlt]
      push_cast
      linarith
  · push_cast
    linarith

/-- `w` is finite and no finite word is nearer to `x`. -/
def NearestTo (w : Word) (x : ℝ) : Prop :=
  fExp w ≠ 255 ∧ ∀ c : Word, fExp c ≠ 255 → |(fInt w : ℝ) / 2 ^ 149 - x| ≤ |(fInt c : ℝ) / 2 ^ 149 - x|

/-- A fixed-point value that is rounded as the real number `x` would be. -/
def RoundsLike (v : Nat) (x : ℝ) : Prop := v < 2 ^ 200 ∧ 0 ≤ x ∧ IsNearest 43 (roundMag v 43) (x * 2 ^ 192)

/-- The sign of a zero does not matter for its value. -/
theorem fInt_romRound (neg : Bool) (v : Nat) : fInt (romRound neg v) = fInt (fPack neg (roundMag v 43)) := by
  obtain rfl | hv := eq_or_ne v 0
  · rw [romRound, fInt_fPack _ (roundMag_le ..), fInt_fPack _ (roundMag_le ..), roundMag_zero]
    cases neg <;> rfl
  · rw [romRound, decide_eq_true hv, Bool.and_true]

theorem fExp_romRound {neg : Bool} {v : Nat} (hv : v < 2 ^ 200) : fExp (romRound neg v) ≠ 255 := by
  have hle := roundMag_le v 43
  have hne : roundMag v 43 ≠ 0x7F800000 := by
    rw [Ne, roundMag_eq_inf_iff]
    omega
  obtain ⟨-, he, -⟩ := fPack_fields (neg && decide (v ≠ 0)) (roundMag v 43) (by omega)
  rw [romRound, he]
  omega

theorem nearestTo_romRound {neg : Bool} {v : Nat} {x : ℝ} (hv : v < 2 ^ 200) (hneg : SignOf neg x)
    (h : IsNearest 43 (roundMag v 43) (|x| * 2 ^ 192)) : NearestTo (romRound neg v) x := by
  refine ⟨fExp_romRound hv, fun c hc => ?_⟩
  have hscale : ∀ i : ℤ, |(i : ℝ) / 2 ^ 149 - x| = |(i : ℝ) * 2 ^ 43 - x * 2 ^ 192| / 2 ^ 192 := fun i => by
    rw [← abs_of_pos (show (0 : ℝ) < 2 ^ 192 by positivity), ← abs_div, abs_of_pos (show (0 : ℝ) < 2 ^ 192 by positivity)]
    congr 1
    field_simp
  rw [hscale, hscale, fInt_romRound]
  refine div_le_div_of_nonneg_right ?_ (by positivity)
  refine IsNearest.fPack_abs_sub_le ?_ (roundMag_le ..) ?_ hc
  · rwa [abs_mul, abs_of_pos (show (0 : ℝ) < 2 ^ 192 by positivity)]
  · cases neg
    · exact mul_nonneg hneg (by positivity)
    · exact mul_nonpos_of_nonpos_of_nonneg hneg (by positivity)

theorem RoundsLike.nearestTo {v : Nat} {x : ℝ} (h : RoundsLike v x) :
    NearestTo (romRound false v) x ∧ NearestTo (romRound true v) (-x) := by
  obtain ⟨hv, hx, hnear⟩ := h
  refine ⟨nearestTo_romRound hv hx (by rwa [abs_of_nonneg hx]), nearestTo_romRound hv ?_ (by rwa [abs_neg, abs_of_nonneg hx])⟩
  exact neg_nonpos.2 hx

/-! ### The table of 4096 words -/

/-- By evaluation of the model's series at the 513 angles of the first octant; the sine of 0 is exact. -/
theorem romSeries_unambiguous : ∀ r, r < 513 →
    unambiguous (romCosSeries (romAngle 12 r)) = true ∧ (r = 0 ∨ unambiguous (romSinSeries (romAngle 12 r)) = true) := by
  decide +kernel

theorem tableAngle_zero (l : Nat) : tableAngle l 0 = 0 := by simp [tableAngle]

/-- An approximation of a number from 0 to 1 that is nowhere near a midpoint. -/
theorem RoundsLike.of_unambiguous {v : Nat} {x : ℝ} (h : unambiguous v = true) (hv : |(v : ℝ) - romOne * x| ≤ 2 ^ 125) (hx : 0 ≤ x)
    (hx1 : x ≤ 1) : RoundsLike v x := by
  have hO : (romOne : ℝ) = 2 ^ 192 := by norm_num [romOne]
  have hnear := isNearest_of_unambiguous h hv (mul_nonneg romOne_pos.le hx)
  rw [hO] at hv hnear
  refine ⟨?_, hx, by rwa [mul_comm]⟩
  have hlt : (v : ℝ) < 2 ^ 200 := by
    have hle := (abs_le.1 hv).2
    have hbig : (2 : ℝ) ^ 125 + 2 ^ 192 < 2 ^ 200 := by norm_num
    linarith
  exact_mod_cast hlt

theorem roundsLike_zero : RoundsLike 0 0 :=
  ⟨by decide, le_rfl, by simpa using roundMag_isNearest (R := ℝ) 0 43⟩

theorem tableAngle_mem {r : Nat} (hr : r ≤ 1024) : 0 ≤ tableAngle 12 r ∧ tableAngle 12 r ≤ Real.pi / 2 := by
  have hr' : (r : ℝ) ≤ 1024 := by exact_mod_cast hr
  have hpi := Real.pi_pos
  refine ⟨by unfold tableAngle; positivity, ?_⟩
  rw [tableAngle, div_le_div_iff₀ (by positivity) (by positivity)]
  nlinarith

theorem roundsLike_octant {r : Nat} (hr : r ≤ 512) :
    RoundsLike (romCosSeries (romAngle 12 r)) (Real.cos (tableAngle 12 r)) ∧
    RoundsLike (romSinSeries (romAngle 12 r)) (Real.sin (tableAngle 12 r)) := by
  obtain ⟨hcos, hsin⟩ := romSeries_error (l := 12) (r := r) (by omega)
  obtain ⟨hucos, husin⟩ := romSeries_unambiguous r (by omega)
  obtain ⟨h0, hpi⟩ := tableAngle_mem (r := r) (by omega)
  constructor
  · exact .of_unambiguous hucos hcos (Real.cos_nonneg_of_neg_pi_div_two_le_of_le (by linarith) hpi) (Real.cos_le_one _)
  · obtain rfl | husin := husin
    · rw [romAngle_zero, romSinSeries_zero, tableAngle_zero, Real.sin_zero]
      exact roundsLike_zero
    · exact .of_unambiguous husin hsin (Real.sin_nonneg_of_nonneg_of_le_pi h0 (by linarith)) (Real.sin_le_one _)

/-- The rest of the first quadrant, by the complement of the angle. -/
theorem roundsLike_quadrant {r : Nat} (hr : r < 1024) :
    RoundsLike (romCosFirst 12 r) (Real.cos (tableAngle 12 r)) ∧ RoundsLike (romSinFirst 12 r) (Real.sin (tableAngle 12 r)) := by
  unfold romCosFirst romSinFirst
  by_cases hle : 8 * r ≤ 2 ^ 12
  · rw [if_pos hle, if_pos hle]
    exact roundsLike_octant (by omega)
  · rw [if_neg hle, if_neg hle]
    obtain ⟨hcos, hsin⟩ := roundsLike_octant (r := 2 ^ 12 / 4 - r) (by omega)
    have hcomplement : tableAngle 12 (2 ^ 12 / 4 - r) = Real.pi / 2 - tableAngle 12 r := by
      rw [tableAngle, tableAngle, Nat.cast_sub (by omega)]
      push_cast
      ring
    rw [hcomplement] at hcos hsin
    rw [Real.cos_pi_div_two_sub] at hcos
    rw [Real.sin_pi_div_two_sub] at hsin
    exact ⟨hsin, hcos⟩

/-- A quarter of the table is a right angle. -/
theorem tableAngle_quarter (q r : Nat) : tableAngle 12 (q * (2 ^ 12 / 4) + r) = tableAngle 12 r + q * (Real.pi / 2) := by
  unfold tableAngle
  push_cast
  ring

/-- Every entry, by its quadrant. -/
theorem romAt_nearestTo {m : Nat} (hm : m < 4096) :
    NearestTo (romCosAt 12 m) (Real.cos (tableAngle 12 m)) ∧ NearestTo (romSinAt 12 m) (Real.sin (tableAngle 12 m)) := by
  obtain ⟨q, r, hq, hr, rfl⟩ : ∃ q r, q < 4 ∧ r < 2 ^ 12 / 4 ∧ m = q * (2 ^ 12 / 4) + r :=
    ⟨m / (2 ^ 12 / 4), m % (2 ^ 12 / 4), by omega, by omega, by omega⟩
  obtain ⟨hcos, hsin⟩ := roundsLike_quadrant (r := r) (by omega)
  obtain ⟨hcos0, hcos1, hcos2, hcos3⟩ := romCosAt_quadrants hr
  obtain ⟨hsin0, hsin1, hsin2, hsin3⟩ := romSinAt_quadrants hr
  rw [tableAngle_quarter]
  obtain rfl | rfl | rfl | rfl : q = 0 ∨ q = 1 ∨ q = 2 ∨ q = 3 := by omega
  · rw [hcos0, hsin0, Nat.cast_zero, zero_mul, add_zero]
    exact ⟨hcos.nearestTo.1, hsin.nearestTo.1⟩
  · rw [hcos1, hsin1, Nat.cast_one, one_mul, Real.cos_add_pi_div_two, Real.sin_add_pi_div_two]
    exact ⟨hsin.nearestTo.2, hcos.nearestTo.1⟩
  · rw [hcos2, hsin2, Nat.cast_two, mul_div_cancel₀ _ two_ne_zero, Real.cos_add_pi, Real.sin_add_pi]
    exact ⟨hcos.nearestTo.2, hsin.nearestTo.2⟩
  · have hturn : tableAngle 12 r + (3 : Nat) * (Real.pi / 2) = tableAngle 12 r + Real.pi / 2 + Real.pi := by push_cast; ring
    rw [hcos3, hsin3, hturn, Real.cos_add_pi, Real.sin_add_pi, Real.cos_add_pi_div_two, Real.sin_add_pi_div_two, neg_neg]
    exact ⟨hsin.nearestTo.1, hcos.nearestTo.2⟩

/-- Settles O55: the error of the series, and that no entry of this table lies within it of a midpoint. -/
theorem referenceRomIsCorrectlyRounded : Obligations.ReferenceRomIsCorrectlyRounded := by
  intro m hm
  obtain ⟨⟨hcos, hcosle⟩, hsin, hsinle⟩ := romAt_nearestTo hm
  have hangle : tableAngle 12 m = 2 * Real.pi * m / 4096 := by rw [tableAngle]; norm_num
  rw [hangle] at hcosle hsinle
  exact ⟨hcos, hsin, fun c hc => ⟨hcosle c hc, hsinle c hc⟩⟩

end Sys2Proof.Machine
end

section
/-! The triple buffer (42_triple_buffer.md): the slot advanced to is the third slot (R231, R232); what each command does once its checks
have passed, and from it the completion statements; the indices stay apart under every step (R238). -/

namespace Sys2Proof.Machine

variable {i : Instr} {s t : State}

/-! ### The slot indices under a step -/

/-- Legal indices are a matter of the registers alone. -/
theorem State.IndicesLegal.congr (h : s.IndicesLegal) (hr : t.regs = s.regs) : t.IndicesLegal := by
  simp only [State.regs, Regs.mk.injEq] at hr
  obtain ⟨-, -, -, htin, htout, -⟩ := hr
  simpa [State.IndicesLegal, htin, htout] using h

theorem hostWrite_regs (s : State) (p : Port) (w : Word) : (s.hostWrite p w).regs = s.regs := by
  unfold State.hostWrite
  split
  · exact setPort_regs ..
  · rfl

theorem hostTake_regs (s : State) (p : Port) : (s.hostTake p).regs = s.regs := by
  unfold State.hostTake
  split
  · rfl
  · exact setPort_regs ..

theorem exec_indicesLegal (h : s.IndicesLegal) (he : exec i s = .next t) : t.IndicesLegal := by
  obtain hr | ⟨-, hr⟩ := exec_regs he
  · exact h.congr hr
  · exact (effect_indicesLegal h).congr hr

theorem runPort_indicesLegal {p : Port} (h : s.IndicesLegal) (he : runPort p s = .next t) : t.IndicesLegal := by
  obtain ⟨-, e⟩ | ⟨i, n, -, -, e⟩ | ⟨-, hd, n, -, -, e⟩ := runPort_cases p s <;> rw [e] at he
  · cases he; exact h
  · exact exec_indicesLegal (h.congr (consume_regs s p n)) he
  · cases he
    exact (h.congr (consume_regs s p n)).congr (respond_regs ..)

theorem step_indicesLegal (h : s.IndicesLegal) (hstep : step s = .next t) : t.IndicesLegal := by
  have hrest : ∀ rest, State.IndicesLegal { s with events := rest } := fun _ => h
  obtain ⟨p, w, rest, -, e⟩ | ⟨p, rest, -, e⟩ | ⟨rest, -, e⟩ | ⟨rest, -, e⟩ | ⟨p, rest, -, e⟩ | ⟨-, -, e⟩ | ⟨p, -, -, e⟩ :=
    step_cases s <;> rw [e] at hstep
  · cases hstep; exact (hrest rest).congr (hostWrite_regs ..)
  · cases hstep; exact (hrest rest).congr (hostTake_regs ..)
  · cases hstep; exact indicesLegal_of_reset rfl rfl
  · cases hstep; exact indicesLegal_of_reset rfl rfl
  · exact runPort_indicesLegal (hrest rest) hstep
  · cases hstep; exact h
  · exact runPort_indicesLegal h hstep

/-! ### The commands that pass their checks -/

/-- What a command that completes answers leaves the grant, and the registers are those of its effect. -/
theorem Completes.granted_regs {v : Word} (h : Completes i v s) (ht : exec i s = .next t) :
    t.granted = s.granted ∧ t.regs = (effect i s).regs := by
  obtain ⟨t', ht', hans, hregs, -⟩ := h.next rfl
  cases ht.symm.trans ht'
  exact ⟨hans.granted, hregs⟩

/-- A success leaves the words of every memory its command is no writer of. -/
theorem sameWordsBut_writes (h : SameWords (effect i s) t) : SameWordsBut (fun sp _ => Writes i s sp) s t := by
  intro sp a hno
  rw [h, State.word?, effect_mem_of_not_writes hno, State.word?]

theorem tbReset_completes (hg : s.granted = .p1) : Completes .tbReset 0 s := onItsPorts_pos _ (List.mem_singleton.2 hg)

theorem tbStart_completes (hg : s.granted = .p1) : Completes .tbStart (zext32 s.tin.toNat) s :=
  onItsPorts_pos _ (List.mem_singleton.2 hg)

theorem tbStop_completes (hg : s.granted = .p1) : Completes .tbStop (zext32 (nextSlot s.tin s.tout).toNat) s :=
  onItsPorts_pos _ (List.mem_singleton.2 hg)

theorem tbLock_completes (hg : s.granted = .p2) : Completes .tbLock (zext32 s.tout.toNat) s :=
  onItsPorts_pos _ (List.mem_singleton.2 hg)

theorem tbUnlock_completes (hg : s.granted = .p2) : Completes .tbUnlock (zext32 (nextSlot s.tout s.tin).toNat) s :=
  onItsPorts_pos _ (List.mem_singleton.2 hg)

/-- With a frame within NMAX and TOUT naming slot `k`, TB_RDOUT on P2 answers words of that slot (42_triple_buffer.md R240). -/
theorem exec_tbRdout {count : BitVec 20} {off : Word} {k : Slot} (part : Part) (hg : s.granted = .p2)
    (hr : off.toNat + count.toNat ≤ s.params.nmax) (hk : slotOf s.tout = some k) :
    exec (.tbRdout part count off) s =
      .next (reply .tbRdout (zext32 count.toNat) (s.readWords (.slot k part) off.toNat count.toNat) s) :=
  (onItsPorts_pos _ (List.mem_singleton.2 hg)).trans ((frameRange_pos _ hr).trans (withSlot_some _ hk))

/-- Settles O37: the indices are registers, and each command's effect on the registers keeps them legal. -/
theorem indicesStayApart : Obligations.IndicesStayApart := by
  refine ⟨fun p => indicesLegal_of_reset rfl rfl, fun s t => step_indicesLegal, fun s t hg he => ?_, fun i s t he hw => ?_⟩
  · obtain ⟨-, hregs⟩ := (tbReset_completes hg).granted_regs he
    exact ⟨congrArg Regs.tin hregs, congrArg Regs.tout hregs⟩
  · obtain ⟨-, -, -, htin, htout, -⟩ := registersHaveTheirWriters i s t he
    obtain hw | hw := hw
    · obtain ⟨rfl | rfl, -⟩ := htin hw
      · exact .inr (.inl rfl)
      · exact .inl rfl
    · obtain ⟨rfl, -⟩ | ⟨rfl, -⟩ := htout hw
      · exact .inr (.inr rfl)
      · exact .inl rfl

/-! ### The advance function -/

theorem nextSlot_toNat : ∀ a b : BitVec 2, a ≠ 3 → b ≠ 3 →
    (nextSlot a b).toNat = if (a.toNat + 1) % 3 ≠ b.toNat then (a.toNat + 1) % 3 else (a.toNat + 2) % 3 := by decide

/-- From one of two different slots, avoiding the other, the advance is to the third (42_triple_buffer.md R232). -/
theorem nextSlot_toNat_of_ne : ∀ a b : BitVec 2, a ≠ 3 → b ≠ 3 → a ≠ b → (nextSlot a b).toNat = 3 - a.toNat - b.toNat := by decide

/-- The third slot of a slot and the third slot is the remaining one: an index that moves away comes back at its next move, and the other
index, moving after it, takes what it left. -/
theorem nextSlot_nextSlot : ∀ a b : BitVec 2, a ≠ 3 → b ≠ 3 → a ≠ b →
    nextSlot (nextSlot a b) b = a ∧ nextSlot b (nextSlot a b) = a := by decide

/-! ### The rotations -/

theorem exec_tbStop_indices (hg : s.granted = .p1) (he : exec .tbStop s = .next t) :
    t.granted = .p1 ∧ t.tin = nextSlot s.tin s.tout ∧ t.tout = s.tout := by
  obtain ⟨hgranted, hregs⟩ := (tbStop_completes hg).granted_regs he
  exact ⟨hgranted.trans hg, congrArg Regs.tin hregs, congrArg Regs.tout hregs⟩

theorem exec_tbUnlock_indices (hg : s.granted = .p2) (he : exec .tbUnlock s = .next t) :
    t.granted = .p2 ∧ t.tin = s.tin ∧ t.tout = nextSlot s.tout s.tin := by
  obtain ⟨hgranted, hregs⟩ := (tbUnlock_completes hg).granted_regs he
  exact ⟨hgranted.trans hg, congrArg Regs.tin hregs, congrArg Regs.tout hregs⟩

/-- A TB_UNLOCK right after a TB_STOP takes the slot that TB_STOP published (42_triple_buffer.md R242 items 1 and 2). -/
theorem tbUnlock_after_tbStop {u : State} (h : s.IndicesLegal) (hg : s.granted = .p1) (hstop : exec .tbStop s = .next t)
    (hunlock : exec .tbUnlock { t with granted := .p2 } = .next u) : u.tout = s.tin := by
  obtain ⟨htin3, htout3, hne⟩ := h
  obtain ⟨-, htin, htout⟩ := exec_tbStop_indices hg hstop
  obtain ⟨-, -, hu⟩ := exec_tbUnlock_indices rfl hunlock
  obtain ⟨-, hback⟩ := nextSlot_nextSlot s.tin s.tout htin3 htout3 hne
  rw [hu, htin, htout, hback]

/-- A second TB_UNLOCK with no TB_STOP between goes back to the slot the first released (42_triple_buffer.md R242 item 3). -/
theorem tbUnlock_tbUnlock {u : State} (h : s.IndicesLegal) (hg : s.granted = .p2) (hfirst : exec .tbUnlock s = .next t)
    (hsecond : exec .tbUnlock t = .next u) : u.tout = s.tout := by
  obtain ⟨htin3, htout3, hne⟩ := h
  obtain ⟨hgt, htin, htout⟩ := exec_tbUnlock_indices hg hfirst
  obtain ⟨-, -, hu⟩ := exec_tbUnlock_indices hgt hsecond
  obtain ⟨hback, -⟩ := nextSlot_nextSlot s.tout s.tin htout3 htin3 hne.symm
  rw [hu, htin, htout, hback]

/-- Settles O36: each TB_STOP and TB_UNLOCK moves its index to the third slot. -/
theorem consumerTakesThePublishedSlot : Obligations.ConsumerTakesThePublishedSlot := by
  intro s a b c d h hg ha hb
  have hlegal : a.IndicesLegal := exec_indicesLegal h ha
  obtain ⟨hga, -, htout⟩ := exec_tbStop_indices hg ha
  refine ⟨tbUnlock_after_tbStop h hg ha, tbUnlock_after_tbStop hlegal hga hb, fun hc hd => ?_⟩
  exact (tbUnlock_tbUnlock (s := { a with granted := .p2 }) hlegal rfl hc hd).trans htout

/-! ### Completions -/

/-- Settles O32: the advance by evaluation on all pairs of slots; each rotation writes the slot it answers to its index. -/
theorem rotationsTakeTheThirdSlot : Obligations.RotationsTakeTheThirdSlot := by
  refine ⟨fun a b ha hb => ⟨nextSlot_toNat a b ha hb, nextSlot_toNat_of_ne a b ha hb⟩, fun s hg h => ?_, fun s hg h => ?_⟩
  · obtain ⟨htin, htout, hne⟩ := h
    rw [← nextSlot_toNat_of_ne s.tin s.tout htin htout hne, BitVec.ofNat_toNat 2, BitVec.setWidth_eq]
    obtain ⟨t, ht, hans, hregs, hwords, -⟩ := (tbStop_completes hg).next (op := .tbStop) rfl
    exact ⟨t, ht, hans, hregs, fun sp a => sameWordsBut_writes hwords sp a (by cases sp <;> simp [Writes, Instr.opcode])⟩
  · obtain ⟨htin, htout, hne⟩ := h
    rw [Nat.sub_right_comm, ← nextSlot_toNat_of_ne s.tout s.tin htout htin hne.symm, BitVec.ofNat_toNat 2, BitVec.setWidth_eq]
    obtain ⟨t, ht, hans, hregs, hwords, -⟩ := (tbUnlock_completes hg).next (op := .tbUnlock) rfl
    exact ⟨t, ht, hans, hregs, fun sp a => sameWordsBut_writes hwords sp a (by cases sp <;> simp [Writes, Instr.opcode])⟩

/-- Settles O33: neither command has an effect. -/
theorem tbStartAndTbLockNameTheSlots : Obligations.TbStartAndTbLockNameTheSlots := by
  refine fun s => ⟨fun hg => ?_, fun hg => ?_⟩ <;> rw [← zext32_toNat]
  · obtain ⟨t, ht, hans, hregs, hwords, -⟩ := (tbStart_completes hg).next (op := .tbStart) rfl
    exact ⟨t, ht, hans, hregs, hwords⟩
  · obtain ⟨t, ht, hans, hregs, hwords, -⟩ := (tbLock_completes hg).next (op := .tbLock) rfl
    exact ⟨t, ht, hans, hregs, hwords⟩

/-- Every slot of a cleared state is NMAX words +0.0 (42_triple_buffer.md R234). -/
theorem clearSlots_mem_slot (s : State) (k : Slot) (part : Part) :
    s.clearSlots.mem (.slot k part) = Memory.fill 0x00000000#32 0 s.params.nmax := by
  cases k <;> cases part <;> rfl

theorem effect_tbReset_mem (s : State) (sp : Space) : (effect .tbReset s).mem sp = s.clearSlots.mem sp :=
  mem_congr rfl rfl rfl rfl rfl rfl rfl rfl sp

/-- Settles O34: each slot is filled with +0.0, and TB_RESET writes no other memory. -/
theorem tbResetClearsTheSlots : Obligations.TbResetClearsTheSlots := by
  intro s hg
  obtain ⟨t, ht, hans, hregs, hwords, -⟩ := (tbReset_completes hg).next (op := .tbReset) rfl
  refine ⟨t, ht, hans, hregs, fun k part a ha => ?_, fun sp a hno => sameWordsBut_writes hwords sp a fun hw => ?_⟩
  · rw [hwords, State.word?, effect_tbReset_mem, clearSlots_mem_slot, read?_fill, if_pos (by omega)]
  · cases sp with
    | ring | scr => simp [Writes, Instr.opcode] at hw
    | slot k part => exact hno ⟨k, part, rfl⟩

/-- Settles O35: TB_RDOUT has no effect and answers the words it reads of slot TOUT. -/
theorem tbRdoutAnswersSlotTout : Obligations.TbRdoutAnswersSlotTout := by
  intro s part count off k hg hr hk
  have hread : s.readWords (.slot k part) off.toNat count.toNat = (List.range count.toNat).map fun i =>
      (s.word? (.slot k part) (off.toNat + i)).getD (Config.freeWord s.draws (.slot k part) (off.toNat + i)) :=
    List.map_congr_left fun i _ => readWord_eq ..
  rw [← hread, ← zext32_toNat]
  exact ⟨_, exec_tbRdout part hg hr ((slotOf_eq_some_iff _ _).2 hk), reply_answers .., reply_regs .., fun _ _ => reply_word? ..⟩

end Sys2Proof.Machine
end

section
/-! The system and access commands (43_access_system.md R260 to R264): what each does once its checks have passed. All but SCR_WR only
answer, so their completion statements come from `Raised` and its counterpart for successes, `reply_only_answers`. -/

namespace Sys2Proof.Machine

variable {s : State}

/-! ### Commands that only answer -/

/-- A success without an effect answers OK, its VALUE and its data words, and changes no register and no memory word. -/
theorem reply_only_answers (op : Opcode) (v : Word) (data : List Word) (s : State) :
    ∃ t, Host.Outcome.next (reply op v data s) = (.next t : Result) ∧ Answers s t (statusWord op.code .ok :: v :: data) ∧
      t.regs = s.regs ∧ SameWords s t :=
  ⟨_, rfl, reply_answers .., reply_regs .., fun _ _ => reply_word? ..⟩

/-- The words a command reads, as the statements write them, an unwritten one as its free value (10_state.md R42). -/
theorem readWords_eq (s : State) (sp : Space) (a n : Nat) :
    s.readWords sp a n = (List.range n).map fun i => (s.word? sp (a + i)).getD (Config.freeWord s.draws sp (a + i)) :=
  List.map_congr_left fun i _ => readWord_eq s sp (a + i)

/-- NOP and STAT are allowed on every port (30_encoding.md R107). -/
theorem granted_mem_all_ports (s : State) : s.granted ∈ [Port.p0, .p1, .p2] := by cases s.granted <;> decide

/-- Settles O18: NOP is allowed on every port and has no effect. -/
theorem nopOnlyAnswers : Obligations.NopOnlyAnswers := by
  intro s
  have hnop : exec .nop s = .next (reply .nop 0 [] s) := onItsPorts_pos _ (granted_mem_all_ports s)
  rw [hnop]
  exact reply_only_answers .nop 0 [] s

/-! ### STAT -/

/-- The registers and parameters in the order of STAT's selectors (43_access_system.md R261). -/
def State.statTable (s : State) : List Nat :=
  [s.cap.toNat, s.ridx.toNat, s.widx.toNat, s.tin.toNat, s.tout.toNat, s.fftn.toNat, s.params.log2Nmax.toNat, s.params.rbDepth.toNat]

/-- A selector names its entry of the table, zero-extended, and one past the table's end none. -/
theorem statValue_eq (s : State) (sel : Nat) : s.statValue sel = s.statTable[sel]?.map (BitVec.ofNat 32) := by
  match sel with
  | 0 | 1 | 2 | 3 | 4 | 5 | 6 | 7 => exact congrArg some (BitVec.ofNat_toNat 32 _).symm
  | _ + 8 => rfl

theorem exec_stat_some {sel : BitVec 20} {v : Word} (h : s.statValue sel.toNat = some v) :
    exec (.stat sel) s = .next (reply .stat v [] s) := by
  refine (onItsPorts_pos _ (granted_mem_all_ports s)).trans ?_
  rw [h]

theorem exec_stat_none {sel : BitVec 20} (h : s.statValue sel.toNat = none) : exec (.stat sel) s = .next (raise .stat .range s) := by
  refine (onItsPorts_pos _ (granted_mem_all_ports s)).trans ?_
  rw [h]

/-- Settles O19: the statement writes out `State.statTable`, and a selector above 7 lies past its end. -/
theorem statReadsTheSelectedRegister : Obligations.StatReadsTheSelectedRegister := by
  refine fun s sel => ⟨fun v hv => ?_, fun hsel => ?_⟩
  · have hentry : s.statTable[sel.toNat]? = some v := hv
    rw [exec_stat_some (v := BitVec.ofNat 32 v) (by rw [statValue_eq, hentry, Option.map_some])]
    exact reply_only_answers .stat (BitVec.ofNat 32 v) [] s
  · have hend : s.statTable[sel.toNat]? = none := List.getElem?_eq_none hsel
    rw [exec_stat_none (by rw [statValue_eq, hend, Option.map_none])]
    exact raise_raised .stat .range s

/-! ### Frame accesses on P1 -/

/-- A frame access of P1 within NMAX goes on to its own work (30_encoding.md R104). -/
theorem onItsPorts_frameRange_pos {op : Opcode} {count : Nat} {off : Word} (k : Result) (hop : allowedPorts op = [.p1])
    (hg : s.granted = .p1) (hr : off.toNat + count ≤ s.params.nmax) : onItsPorts op s (frameRange op count off s k) = k :=
  (onItsPorts_pos _ (by rw [hop, hg]; decide)).trans (frameRange_pos k hr)

/-- Settles O21: SCR_RD has no effect and answers the words it reads of SCR. -/
theorem scrRdAnswersTheWords : Obligations.ScrRdAnswersTheWords := by
  intro s count off hg hr
  have hrd : exec (.scrRd count off) s =
      .next (reply .scrRd (zext32 count.toNat) (s.readWords .scr off.toNat count.toNat) s) :=
    onItsPorts_frameRange_pos _ rfl hg hr
  rw [hrd, ← readWords_eq, ← zext32_toNat]
  exact reply_only_answers ..

theorem scrWr_completes {off : Word} {data : List Word} (hg : s.granted = .p1) (hr : off.toNat + data.length ≤ s.params.nmax) :
    Completes (.scrWr off data) (zext32 data.length) s :=
  onItsPorts_frameRange_pos _ rfl hg hr

/-- Settles O20: SCR_WR's effect is the write of its payload to SCR. -/
theorem scrWrStoresThePayload : Obligations.ScrWrStoresThePayload := by
  intro s off data hg hr
  obtain ⟨t, ht, hans, hregs, hwords, -⟩ := (scrWr_completes hg hr).next (op := .scrWr) rfl
  have hwritten : SameWords (s.writeWords .scr off.toNat data) t := hwords
  refine ⟨t, ht, hans, hregs.trans (setMem_regs ..), fun i hi => ?_, fun sp a hno => ?_⟩
  · rw [hwritten, writeWords_word?, if_pos ⟨rfl, by omega, by omega⟩, Nat.add_sub_cancel_left, List.getElem?_eq_getElem hi]
  · rw [hwritten, writeWords_word?, if_neg hno]

section slotRd
variable {slot : BitVec 2} {count : BitVec 20} {off : Word} (part : Part) (hg : s.granted = .p1)
  (hr : off.toNat + count.toNat ≤ s.params.nmax)
include hg hr

theorem exec_slotRd_some {k : Slot} (hk : slotOf slot = some k) : exec (.slotRd slot part count off) s =
    .next (reply .slotRd (zext32 count.toNat) (s.readWords (.slot k part) off.toNat count.toNat) s) := by
  refine (onItsPorts_frameRange_pos _ rfl hg hr).trans ?_
  rw [hk]

theorem exec_slotRd_none (hk : slotOf slot = none) :
    exec (.slotRd slot part count off) s = .next (raise .slotRd .range s) := by
  refine (onItsPorts_frameRange_pos _ rfl hg hr).trans ?_
  rw [hk]

end slotRd

/-- Settles O22: SLOT_RD has no effect; a slot number names the slot whose words it answers, and 3 names none. -/
theorem slotRdAnswersTheWords : Obligations.SlotRdAnswersTheWords := by
  refine fun s slot part count off hg hr => ⟨fun k hk => ?_, fun h3 => ?_⟩
  · rw [exec_slotRd_some part hg hr ((slotOf_eq_some_iff _ _).2 hk), ← readWords_eq, ← zext32_toNat]
    exact reply_only_answers ..
  · rw [exec_slotRd_none part hg hr (by rw [h3]; rfl)]
    exact raise_raised .slotRd .range s

end Sys2Proof.Machine
end

section
/-! Errors (60_exceptions.md R290 to R292): an error answers STATUS and VALUE alone and has no effect, on whichever port and for whichever
command or illegal header; a frame access past NMAX is one. -/

namespace Sys2Proof.Machine

variable {s t : State}

/-! ### An error has no effect -/

/-- Bits 7:0 of a STATUS word are its code (30_encoding.md R111). -/
theorem extractLsb'_statusWord (opc : BitVec 8) (st : Status) : (statusWord opc st).extractLsb' 0 8 = st.code := by
  rw [statusWord, BitVec.extractLsb'_append_eq_of_add_le (by decide), BitVec.extractLsb'_eq_self]

/-- From `s` to `t` the executing port has answered OK, or STATUS and VALUE alone, and then no register and no memory word has changed. -/
def AnswersOkOrNoEffect (s t : State) : Prop :=
  ∃ status value data, Answers s t (status :: value :: data) ∧
    (status.extractLsb' 0 8 = 0 ∨ (data = [] ∧ t.regs = s.regs ∧ SameWords s t))

theorem respond_okOrNoEffect (s : State) (status value : Word) : AnswersOkOrNoEffect s (s.respond [status, value]) :=
  ⟨status, value, [], respond_answers .., .inr ⟨rfl, respond_regs .., fun _ _ => respond_word? ..⟩⟩

/-- Every command raises an error, which is a response alone, or answers OK. -/
theorem exec_okOrNoEffect {i : Instr} (h : exec i s = .next t) : AnswersOkOrNoEffect s t := by
  obtain ⟨st, -, -, e⟩ | ⟨-, -, v, data, -, e⟩ | ⟨f, e⟩ := exec_cases i s <;> cases e.symm.trans h
  · exact respond_okOrNoEffect ..
  · exact ⟨_, v, data, success_answers .., .inl (extractLsb'_statusWord _ .ok)⟩

/-- A granted ready port takes the words its header gives, and then answers OK or has no effect. -/
theorem runPort_okOrNoEffect {p : Port} {hd : Word} {body : List Word} (hready : s.ready p = true)
    (hs : (s.port p).stream = hd :: body) (h : runPort p s = .next t) :
    AnswersOkOrNoEffect (s.consume p (commandLength hd)) t := by
  obtain ⟨hno, -⟩ | ⟨i, n, -, hf, e⟩ | ⟨why, hd', n, -, hf, e⟩ := runPort_cases p s
  · simp [hready] at hno
  · obtain ⟨_, _, hs', rfl, -⟩ := decode_command hf
    cases hs.symm.trans hs'
    exact exec_okOrNoEffect (e.symm.trans h)
  · obtain ⟨_, hs', rfl, -⟩ := decode_illegal hf
    cases hs.symm.trans hs'
    cases e.symm.trans h
    exact respond_okOrNoEffect ..

/-- Settles O12: the port's responses were all taken, so what it holds after the grant is the answer, which is not OK. -/
theorem errorsHaveNoEffect : Obligations.ErrorsHaveNoEffect := by
  intro s t p hd status value body data hready hs h hrsp herr
  obtain ⟨status', value', data', hans, hcases⟩ := runPort_okOrNoEffect hready hs h
  have hport := hans.executing
  rw [consume_granted, consume_port_same, rsp_of_ready hready, hs] at hport
  cases (congrArg PortState.rsp hport).symm.trans hrsp
  obtain ⟨rfl, hregs, hwords⟩ := hcases.resolve_left herr
  obtain ⟨hothers, -⟩ := runPort_frame hready h
  exact ⟨hregs.trans (consume_regs ..), fun sp a => (hwords sp a).trans (consume_word? ..), hport, hothers⟩

/-! ### Frame accesses past NMAX -/

/-- A frame access past NMAX is refused right after the port check (60_exceptions.md R293). -/
theorem raised_frame_range {op : Opcode} {count : Nat} {off : Word} (k : Result) (h : s.params.nmax < off.toNat + count)
    (hg : s.granted ∈ allowedPorts op) :
    Raised (statusWord op.code .range) s (onItsPorts op s (frameRange op count off s k)) :=
  raised_onItsPorts hg (frameRange_neg k h)

/-- The same for the ring's frame accesses, which check the configuration in between. -/
theorem raised_ring_frame_range {op : Opcode} {count : Nat} {off : Word} (k : Result) (h : s.params.nmax < off.toNat + count)
    (hg : s.granted ∈ allowedPorts op) (hc : s.cap ≠ 0) :
    Raised (statusWord op.code .range) s (onItsPorts op s (ringConfigured op s (frameRange op count off s k))) :=
  raised_onItsPorts hg ((ringConfigured_pos _ hc).trans (frameRange_neg k h))

/-- Settles O15: no check of a frame access but the port check and RB_POP's and RB_PEEK's configuration check precedes the range check. -/
theorem frameRangeIsRefused : Obligations.FrameRangeIsRefused := by
  intro s count off
  have onPort : ∀ {p : Port}, s.granted = p → s.granted ∈ [p] := List.mem_singleton.2
  exact ⟨fun h => ⟨fun hg hc => raised_ring_frame_range _ h (onPort hg) hc, fun hg hc => raised_ring_frame_range _ h (onPort hg) hc,
      fun hg _ => raised_frame_range _ h (onPort hg), fun hg => raised_frame_range _ h (onPort hg),
      fun hg _ _ => raised_frame_range _ h (onPort hg)⟩,
    fun _ h hg => raised_frame_range _ h (onPort hg)⟩

end Sys2Proof.Machine
end

section
/-! Block reset and waiting ports (70_reset_and_hazards.md R320, R322, R335): what either edge of `rst_n` leaves, that nothing but the
events to come moves while `rst_n` is low, and how long a port waits for the words of its command. -/

namespace Sys2Proof.Machine

variable {s : State} {p : Port}

/-! ### Waiting for the words of a command -/

/-- The decoder waits for the words a header announces, and for no others (30_encoding.md R106, R113, R114). -/
theorem decode_cons_eq_incomplete_iff (h : Word) (body : List Word) :
    decode (h :: body) = .incomplete ↔ (h :: body).length < commandLength h := by
  obtain ⟨ho, e⟩ | ⟨op, ho, hshort, e⟩ | ⟨op, ho, hlen, hfields⟩ := decode_cons_cases h body
  · simp [e, commandLength, ho]
  · simpa [e, commandLength_of_ofCode ho] using hshort
  · have hcomplete : decode (h :: body) ≠ .incomplete := by
      obtain ⟨-, e⟩ | ⟨-, -, -, e⟩ | ⟨-, -, e⟩ := hfields <;> simp [e]
    simpa [hcomplete, commandLength_of_ofCode ho] using hlen

/-- A stream is complete when it holds a header and the words the header announces. -/
theorem decode_ne_incomplete_iff (ws : List Word) :
    decode ws ≠ .incomplete ↔ ∃ h body, ws = h :: body ∧ commandLength h ≤ (h :: body).length := by
  cases ws with
  | nil => simp [decode]
  | cons h body =>
    rw [Ne, decode_cons_eq_incomplete_iff, Nat.not_lt]
    exact ⟨fun hlen => ⟨h, body, rfl, hlen⟩, fun ⟨_, _, e, hlen⟩ => by cases e; exact hlen⟩

/-- A port is ready out of reset, with its responses taken and a complete command at the front of its stream. -/
theorem ready_iff : s.ready p = true ↔ s.rstN = true ∧ (s.port p).rsp = [] ∧ decode (s.port p).stream ≠ .incomplete := by
  unfold State.ready State.fetch
  cases decode (s.port p).stream <;> simp

/-- Settles O7: a complete stream is all that readiness asks for besides, and a port that is not ready does nothing. -/
theorem portWaitsForItsWords : Obligations.PortWaitsForItsWords := by
  refine fun s p => ⟨fun hrst hrsp => ?_, runPort_not_ready⟩
  rw [ready_iff, ← decode_ne_incomplete_iff]
  simp only [hrst, hrsp, true_and]

/-! ### While `rst_n` is low -/

theorem ready_of_low (hlow : s.rstN = false) (p : Port) : s.ready p = false := by
  simp [State.ready, hlow]

/-- Words written while `rst_n` is low are discarded. -/
theorem hostWrite_of_low (hlow : s.rstN = false) (p : Port) (w : Word) : s.hostWrite p w = s := if_neg (by simp [hlow])

@[simp] theorem withEvents_word? (s : State) (es : List Event) (sp : Space) (a : Nat) :
    State.word? { s with events := es } sp a = s.word? sp a :=
  congrArg (Memory.read? · a) (mem_congr rfl rfl rfl rfl rfl rfl rfl rfl sp)

/-- A step while `rst_n` is low and does not move only uses up an event: writes are discarded, there is no response word to take, and no
port is ready. -/
theorem step_of_low (hlow : s.rstN = false) (hquiet : s.ResetQuiet) (hno : s.noReset) :
    ∃ es, step s = .next { s with events := es } := by
  obtain ⟨hnotLow, hnotHigh⟩ := hno
  obtain ⟨q, w, rest, -, e⟩ | ⟨q, rest, -, e⟩ | ⟨rest, he, -⟩ | ⟨rest, he, -⟩ | ⟨q, rest, -, e⟩ | ⟨-, -, e⟩ | ⟨q, -, ha, -⟩ :=
    step_cases s
  · exact ⟨rest, e.trans (congrArg _ (hostWrite_of_low (s := { s with events := rest }) hlow q w))⟩
  · exact ⟨rest, by rw [e, hostTake_nil (by rw [withEvents_port, hquiet hlow]; rfl)]⟩
  · exact absurd (by rw [he]; rfl) hnotLow
  · exact absurd (by rw [he]; rfl) hnotHigh
  · exact ⟨rest, e.trans (runPort_not_ready (ready_of_low hlow q))⟩
  · exact ⟨s.events, e⟩
  · exact absurd (arbiter_ready ha) (by simp [ready_of_low hlow])

/-- Settles O17: the events to come are no part of the ports, the registers or the memories. -/
theorem nothingMovesInReset : Obligations.NothingMovesInReset := by
  intro s t hlow hquiet hno hstep
  obtain ⟨es, e⟩ := step_of_low hlow hquiet hno
  cases e.symm.trans hstep
  exact ⟨withEvents_port s es, rfl, withEvents_word? s es, hlow⟩

/-! ### The edges of `rst_n` -/

@[simp] theorem blockReset_port (s : State) (level : Bool) (p : Port) : (s.blockReset level).port p = PortState.reset := by
  cases p <;> rfl

@[simp] theorem blockReset_word? (s : State) (level : Bool) (sp : Space) (a : Nat) : (s.blockReset level).word? sp a = none := by
  have hmem : (s.blockReset level).mem sp = [] :=
    (mem_congr rfl rfl rfl rfl rfl rfl rfl rfl sp).trans (resetOf_mem s.params sp)
  rw [State.word?, hmem]
  rfl

/-- The event of an edge of `rst_n` to a level. -/
theorem runEvent_edge (s : State) (level : Bool) :
    runEvent (if level then .resetHigh else .resetLow) s = .next (s.blockReset level) := by
  cases level <;> rfl

/-- Settles O16: an edge resets the block, whose ports and memories are then empty. -/
theorem blockResetLeavesTheResetState : Obligations.BlockResetLeavesTheResetState := by
  intro s rest level he
  refine ⟨_, (step_event he).trans (runEvent_edge _ level), rfl, rfl, rfl, rfl, blockReset_word? _ level, fun q => ?_⟩
  rw [blockReset_port]
  exact ⟨rfl, rfl, rfl⟩

end Sys2Proof.Machine
end
